-- ==== Sys2Proof/Word.lean ====
section
/-! DEFINITION. The word types of the block (spec/00_scope.md R7, R8): bytes, the integer widths of its
registers, binary64 as a bit pattern, and the three-entry tables indexed by a channel. -/

namespace Sys2Proof

/-- An unsigned 8-bit value (R7). -/
abbrev Byte := BitVec 8

/-- `u16` (R8). -/
abbrev U16 := BitVec 16

/-- `u32` (R8). -/
abbrev U32 := BitVec 32

/-- `i32`: the 32-bit two's-complement pattern (R8). -/
abbrev I32 := BitVec 32

/-- `f64`: the bit pattern of an IEEE 754 binary64 value (R8).  Its arithmetic is in
`Machine/Float64.lean`. -/
abbrev F64 := BitVec 64

/-- A finite binary64 value, field by field: the exponent field 2047 (infinities and NaN) does not
exist here.  It is the type of an answer of the `ADC` port: "each read is a finite f64" (R5). -/
structure FiniteF64 where
  /-- the sign bit -/
  neg  : Bool
  /-- the biased exponent, below 2047 -/
  expo : Fin 2047
  /-- the fraction field -/
  frac : BitVec 52
deriving DecidableEq, Repr, Inhabited

/-- The bit pattern of a finite value: sign, exponent, fraction. -/
def FiniteF64.toF64 (v : FiniteF64) : F64 :=
  BitVec.ofNat 64 (v.neg.toNat * 2 ^ 63 + v.expo.val * 2 ^ 52 + v.frac.toNat)

/-- A logical channel, 1 to 3 (`NUM_CHANNELS` = 3, R6). -/
inductive Channel where
  | ch1 | ch2 | ch3
deriving DecidableEq, Repr, Inhabited

/-- The channels in channel order. -/
def Channel.all : List Channel := [.ch1, .ch2, .ch3]

/-- The index `c - 1` of channel c: its bit in `ACTIVE_MASK` (R52) and its `ADC` index (R258). -/
def Channel.index : Channel → Nat
  | .ch1 => 0
  | .ch2 => 1
  | .ch3 => 2

/-- One value for each channel (`CH_OP[1..3]`, `measurements`, `LAST_MEAS`). -/
structure Triple (α : Type) where
  c1 : α
  c2 : α
  c3 : α
deriving DecidableEq, Repr, Inhabited

/-- The value of one channel. -/
def Triple.get {α : Type} (t : Triple α) : Channel → α
  | .ch1 => t.c1
  | .ch2 => t.c2
  | .ch3 => t.c3

/-- The table with one channel's value replaced. -/
def Triple.set {α : Type} (t : Triple α) (c : Channel) (v : α) : Triple α :=
  match c with
  | .ch1 => { t with c1 := v }
  | .ch2 => { t with c2 := v }
  | .ch3 => { t with c3 := v }

end Sys2Proof
end

