-- ==== Sys2Proof/Machine/Float64.lean ====
section
/-! DEFINITION. Binary64 on bit patterns (spec/00_scope.md R8, spec/40_codec.md R151): each operation is
computed exactly on natural numbers and rounded once, to nearest with ties to even. -/

namespace Sys2Proof.Machine

/-- The sign bit. -/
def f64Neg (v : F64) : Bool := v.msb

/-- The biased exponent field. -/
def f64Expo (v : F64) : Nat := v.toNat / 2 ^ 52 % 2048

/-- The fraction field. -/
def f64Frac (v : F64) : Nat := v.toNat % 2 ^ 52

/-- Neither an infinity nor a NaN. -/
def f64IsFinite (v : F64) : Bool := f64Expo v != 2047

/-- An infinity. -/
def f64IsInf (v : F64) : Bool := f64Expo v == 2047 && f64Frac v == 0

/-- A NaN. -/
def f64IsNaN (v : F64) : Bool := f64Expo v == 2047 && f64Frac v != 0

/-- The significand with its hidden bit (none for a subnormal). -/
def f64Mant (v : F64) : Nat := if f64Expo v = 0 then f64Frac v else 2 ^ 52 + f64Frac v

/-- The magnitude of a finite value is exactly `f64Num v / f64Den v`. -/
def f64Num (v : F64) : Nat := f64Mant v * 2 ^ (max (f64Expo v) 1 - 1075)

/-- The denominator of the magnitude, a power of two. -/
def f64Den (v : F64) : Nat := 2 ^ (1075 - max (f64Expo v) 1)

/-- The signed numerator of a finite value. -/
def f64SNum (v : F64) : Int := if f64Neg v then -(f64Num v : Int) else f64Num v

/-- A zero of the given sign. -/
def f64Zero (neg : Bool) : F64 := BitVec.ofNat 64 (neg.toNat * 2 ^ 63)

/-- An infinity of the given sign. -/
def f64Inf (neg : Bool) : F64 := BitVec.ofNat 64 (neg.toNat * 2 ^ 63 + 2047 * 2 ^ 52)

/-- `num / den` rounded to the nearest integer, ties to even. -/
def roundHalfEven (num den : Nat) : Nat :=
  let q := num / den
  let r := num % den
  if den < 2 * r ∨ (2 * r = den ∧ q % 2 = 1) then q + 1 else q

/-- The floor of the base-2 logarithm of `num / den`, both positive. -/
def floorLog2 (num den : Nat) : Int :=
  let g : Int := (Nat.log2 num : Int) - Nat.log2 den
  if den * 2 ^ g.toNat ≤ num * 2 ^ (-g).toNat then g else g - 1

/-- The binary64 value nearest `± num / den` (`den` positive), ties to even: the significand is rounded
at the exponent field `e`, and a carry out of it moves into the exponent by itself. -/
def f64Round (neg : Bool) (num den : Nat) : F64 :=
  if num = 0 then f64Zero neg
  else
    let e : Nat := max (floorLog2 num den + 1023).toNat 1
    let q := roundHalfEven (num * 2 ^ (1075 - e)) (den * 2 ^ (e - 1075))
    let bits := (e - 1) * 2 ^ 52 + q
    if 2047 * 2 ^ 52 ≤ bits then f64Inf neg
    else BitVec.ofNat 64 (neg.toNat * 2 ^ 63 + bits)

/-- The binary64 value nearest the decimal number `± d * 10^e` (R151: correctly rounded; a huge
exponent gives an infinity).  The two outer tests only spare the exact computation where the result is
already certain: above `10^310` everything overflows, and below `10^-400` everything rounds to zero. -/
def f64OfDecimal (neg : Bool) (d : Nat) (e : Int) : F64 :=
  if d = 0 then f64Zero neg
  else if 310 < e then f64Inf neg
  else if e < -(402 + Nat.log2 d : Int) then f64Zero neg
  else f64Round neg (d * 10 ^ e.toNat) (10 ^ (-e).toNat)

/-- The sum of two finite values; an exact zero is negative only when both operands are. -/
def f64Add (x y : F64) : F64 :=
  let n : Int := f64SNum x * f64Den y + f64SNum y * f64Den x
  if n = 0 then f64Zero (f64Neg x && f64Neg y)
  else f64Round (decide (n < 0)) n.natAbs (f64Den x * f64Den y)

/-- The product of two values, neither a NaN, and no infinity times zero. -/
def f64Mul (x y : F64) : F64 :=
  if f64IsInf x || f64IsInf y then f64Inf (f64Neg x != f64Neg y)
  else f64Round (f64Neg x != f64Neg y) (f64Num x * f64Num y) (f64Den x * f64Den y)

/-- The quotient of two finite values, the divisor not zero. -/
def f64Div (x y : F64) : F64 :=
  f64Round (f64Neg x != f64Neg y) (f64Num x * f64Den y) (f64Den x * f64Num y)

/-- The place of a value that is no NaN in the order of binary64: `f64Key x ≤ f64Key y` is `x ≤ y`, and
both zeros have the key 0. -/
def f64Key (v : F64) : Int :=
  if f64Neg v then -((v.toNat % 2 ^ 63 : Nat) : Int) else ((v.toNat % 2 ^ 63 : Nat) : Int)

/-- `clamp(x, lo, hi) = min(max(x, lo), hi)` (R8). -/
def f64Clamp (x lo hi : F64) : F64 :=
  let m := if f64Key x < f64Key lo then lo else x
  if f64Key hi < f64Key m then hi else m

/-- `trunc(x)` of a finite value: toward zero (R8). -/
def f64Trunc (v : F64) : Int :=
  if f64Neg v then -((f64Num v / f64Den v : Nat) : Int) else ((f64Num v / f64Den v : Nat) : Int)

/-- Truncation toward zero and then saturation to `[lo, hi]`; an infinity saturates to the bound of its
sign without a truncation (spec/42_commands.md R196, R199). -/
def f64TruncSat (lo hi : Int) (v : F64) : Int :=
  if f64IsInf v then (if f64Neg v then lo else hi) else min (max (f64Trunc v) lo) hi

end Sys2Proof.Machine
end

