-- ==== Sys2Proof/Syntax.lean ====
section
/-! DEFINITION. The block's inputs as syntax: the enumerations of its registers, the operand records of
its formats, and `Instr`, one constructor for each row of spec/opcode_table.json. -/

namespace Sys2Proof

/-- `COMM_STATE` (spec/10_state.md R41), in the order of its ordinals 0 to 5. -/
inductive CommState where
  | idle | waitingInstruction | waitingData | waitingHeaderAck | waitingPacketAck | waitingRoleswap
deriving DecidableEq, Repr, Inhabited

/-- The direction of an instruction header (R48). -/
inductive Direction where
  | send | recv
deriving DecidableEq, Repr, Inhabited

/-- The value encoding an instruction header asks for (R48). -/
inductive ValueType where
  | ascii | hex
deriving DecidableEq, Repr, Inhabited

/-- The form field of an instruction header (R48). -/
inductive Form where
  | variableForm | listForm
deriving DecidableEq, Repr, Inhabited

/-- The first check of spec/43_psm.md R233 that an instruction frame fails, in the order of the checks. -/
inductive FramingError where
  | length | start | direction | checksum
deriving DecidableEq, Repr, Inhabited

/-- One comma-separated field of a data payload (spec/42_commands.md R191), as its text.  Its kind and
its values are read from the text by `Machine/Operands.lean`. -/
abbrev Token := List Byte

/-- The operand fields of an `HDR15` frame as they stand on the wire (spec/30_encoding.md R103): every
byte after the direction byte, the unchecked ones included. -/
structure HdrFields where
  /-- byte 2 -/
  typeByte   : Byte
  /-- byte 3 -/
  formByte   : Byte
  /-- bytes 4 and 5, big-endian -/
  line       : U16
  /-- bytes 6 to 9, big-endian -/
  offset     : U32
  /-- bytes 10 and 11, big-endian -/
  packetSize : U16
  /-- byte 12, documented as 0xFF and not checked -/
  pad        : Byte
  /-- byte 13 -/
  area       : Byte
  /-- byte 14 -/
  checksum   : Byte
deriving DecidableEq, Repr, Inhabited

/-- The inputs of the block, one constructor for each row of spec/opcode_table.json, in the table's
order.  A chunk row carries the chunk `c`.  A frame row carries the frame `b`, or what the frame holds
besides its decode key.  A command row carries the tokens its rule reads. -/
inductive Instr where
  /-- `CHUNK_EMPTY` (R171) -/
  | chunkEmpty
  /-- `CHUNK_APPEND_CONT` (R174) -/
  | chunkAppendCont (c : List Byte)
  /-- `CHUNK_APPEND_START` (R172) -/
  | chunkAppendStart (c : List Byte)
  /-- `CHUNK_VERBATIM` (R173) -/
  | chunkVerbatim (c : List Byte)
  /-- `START_IDLE` (R231) -/
  | startIdle (b : List Byte)
  /-- `NOISE` (R232) -/
  | noise (b : List Byte)
  /-- `HDR_SEND` (R237) -/
  | hdrSend (h : HdrFields)
  /-- `HDR_RECV` (R238) -/
  | hdrRecv (h : HdrFields)
  /-- `HDR_INVALID` (R234): the failing check and the frame -/
  | hdrInvalid (e : FramingError) (b : List Byte)
  /-- `DATA` (R239) -/
  | data (b : List Byte)
  /-- `CMD_CLEAR` (R197) -/
  | cmdClear
  /-- `CMD_CHSETUP` (R198): T1 and T2 -/
  | cmdChsetup (chan op : Token)
  /-- `CMD_RATE` (R199): T1 and T2 -/
  | cmdRate (period count : Token)
  /-- `CMD_STATUS` (R200) -/
  | cmdStatus
  /-- `CMD_TRIGGER` (R201) -/
  | cmdTrigger
  /-- `CMD_MODE` (R202): T1 -/
  | cmdMode (mode : Token)
  /-- `META_STATUS` (R204) -/
  | metaStatus
  /-- `META_SAMPLE1` (R205) -/
  | metaSample1
  /-- `META_SAMPLE2` (R205) -/
  | metaSample2
  /-- `META_SAMPLE3` (R205) -/
  | metaSample3
  /-- `META_PUBLISH1` (R206): T2 -/
  | metaPublish1 (value : Token)
  /-- `META_PUBLISH2` (R206): T2 -/
  | metaPublish2 (value : Token)
  /-- `META_PUBLISH3` (R206): T2 -/
  | metaPublish3 (value : Token)
  /-- `META_UNKNOWN` (R207): T1 -/
  | metaUnknown (selector : Token)
  /-- `CMD_UNRECOGNIZED` (R208): T0 -/
  | cmdUnrecognized (t0 : Token)
  /-- `ACK_B_OK_HDR` (R241): the bytes after byte 0 -/
  | ackBOkHdr (rest : List Byte)
  /-- `ACK_B_OK_PKT` (R253): the bytes after byte 0 -/
  | ackBOkPkt (rest : List Byte)
  /-- `ACK_B_RETRY` (R242): the bytes after byte 0 -/
  | ackBRetry (rest : List Byte)
  /-- `ACK_B_ERROR` (R242): the bytes after byte 0 -/
  | ackBError (rest : List Byte)
  /-- `START_RESTART` (R243): the bytes after byte 0 -/
  | startRestart (rest : List Byte)
  /-- `ACK_OTHER` (R252): byte 0 and the bytes after it -/
  | ackOther (b0 : Byte) (rest : List Byte)
  /-- `ROLESWAP_STEP` (R255) -/
  | roleswapStep (b : List Byte)
deriving DecidableEq, Repr, Inhabited

/-- Where an input is decoded (R112, R113): a chunk under `FRA_APPENDING`, a frame under `COMM_STATE`,
or the command text of a data frame. -/
inductive Source where
  | chunk (appending : Bool)
  | frame (state : CommState)
  | command
deriving DecidableEq, Repr, Inhabited

end Sys2Proof
end

