-- ==== Sys2Proof/Config.lean ====
section
/-! DEFINITION. What an implementation fixes: the parameters of spec/00_scope.md R6 that rules read, and
the free values, opaque constants without a body, that stand for what the spec leaves open. -/

namespace Sys2Proof

/-- The parameters of R6 whose value a rule reads or is measured against.  They are fixed at reset for
the whole run (spec/70_reset_and_hazards.md R323); a state carries them, so a statement about every
state holds for every value of them. -/
structure Params where
  /-- `QUEUE_CAP` -/
  queueCap           : Nat
  /-- `TX_CAP` -/
  txCap              : Nat
  /-- `STATUS_CHECK_PAYLOAD`, 9 bytes (OPEN) -/
  statusCheckPayload : Vector Byte 9
  /-- `RESP_DIR_BYTE` (OPEN) -/
  respDirByte        : Byte
  /-- `RESP_LINE` (OPEN) -/
  respLine           : U16
  /-- `RESP_OFFSET` (OPEN) -/
  respOffset         : U32
  /-- `END_PACKET` (OPEN) -/
  endPacket          : List Byte
  /-- `ROLESWAP_TRAILER` (OPEN) -/
  roleswapTrailer    : List Byte
deriving DecidableEq, Repr, Inhabited

/-- DESIGN CHOICE (log entry 2), unsafe: the reference values of R6 and of spec/95_test_vectors.md. -/
def Params.reference : Params where
  queueCap := 10
  txCap := 1024
  statusCheckPayload := Vector.replicate 9 0x30
  respDirByte := 0x4E
  respLine := 0
  respOffset := 0
  endPacket := [0x3A, 0x45, 0x4E, 0x44] ++ List.replicate 10 0xFF ++ [0x33]
  roleswapTrailer := [0x4C] ++ List.replicate 13 0xFF ++ [0x0D]

/-- `TRANSPORT_CHUNK_MAX` (OPEN): no rule's effect depends on it (log entry 3). -/
opaque Config.transportChunkMax : Nat

/-- `PUB_FORMAT(k, T2)` (OPEN): the JSON text of a publish call (R206). -/
opaque Config.pubFormat : Channel → Token → List Byte

/-- `PUB_TIMEOUT` (OPEN), timing only. -/
opaque Config.pubTimeout : Nat

/-- Free value: the answer of `ADC(c - 1)` for channel c at the n-th free draw (R5). -/
opaque Config.adcDraw : Channel → Nat → FiniteF64

/-- Free value: the answer of a `CONN` query at the n-th free draw (R5). -/
opaque Config.connDraw : Nat → Bool

/-- Free value: the answer of `PUB.tryEnqueue` at the n-th free draw (R5, R206). -/
opaque Config.pubDraw : Nat → Bool

/-- Free value: whether a tick falls before the next `TASK` step, at the n-th free draw
(spec/60_exceptions.md R293). -/
opaque Config.tickDraw : Nat → Bool

/-- Free value: whether the timeout wins the race of spec/43_psm.md R262, at the n-th free draw. -/
opaque Config.timeoutDraw : Nat → Bool

/-- Free value: the six characters `encodeFixedAscii` gives for a value that is not finite
(spec/93_implementation_defined.md I4). -/
opaque Config.nonFiniteText : F64 → Vector Byte 6

/-- Free value: the integer `rescale12bit` masks for a NaN (spec/93_implementation_defined.md I5). -/
opaque Config.nanCode : F64 → U16

end Sys2Proof
end

