-- ==== Sys2Proof/Machine/Wire.lean ====
section
/-! DEFINITION. The bit-exact wire constants of spec/30_encoding.md R100, the fixed parameters of
spec/00_scope.md R6, and the numbers the spec gives its enumerations. -/

namespace Sys2Proof.Machine

/-- `START`: the start indicator. -/
def wireStart : Byte := 0x15
/-- `MARK`: `':'`. -/
def wireMark : Byte := 0x3A
/-- `A_OK`. -/
def wireAOk : Byte := 0x13
/-- `B_OK`. -/
def wireBOk : Byte := 0x06
/-- `B_RETRY`. -/
def wireBRetry : Byte := 0x05
/-- `B_ERROR`. -/
def wireBError : Byte := 0x22
/-- `DIR_SEND`: `'N'`. -/
def wireDirSend : Byte := 0x4E
/-- `DIR_RECV`: `'R'`. -/
def wireDirRecv : Byte := 0x52
/-- `TYPE_ASCII`: `'A'`. -/
def wireTypeAscii : Byte := 0x41
/-- `TYPE_HEX`: `'H'`. -/
def wireTypeHex : Byte := 0x48
/-- `FORM_VAR`: `'V'`. -/
def wireFormVar : Byte := 0x56
/-- `FORM_LIST`: `'L'`. -/
def wireFormList : Byte := 0x4C
/-- `HDR_PAD`. -/
def wireHdrPad : Byte := 0xFF
/-- `AREA_FIRST`: `'A'`. -/
def wireAreaFirst : Byte := 0x41
/-- `AREA_CONT`: `'M'`. -/
def wireAreaCont : Byte := 0x4D
/-- `COMMA`. -/
def wireComma : Byte := 0x2C
/-- `POINT`. -/
def wirePoint : Byte := 0x2E
/-- `'-'`. -/
def wireMinus : Byte := 0x2D
/-- `'+'`. -/
def wirePlus : Byte := 0x2B
/-- `'0'`. -/
def wireZero : Byte := 0x30

/-- `HDR_LEN` (R6). -/
def hdrLen : Nat := 15
/-- `RX_CAP` (R6). -/
def rxCap : Nat := 30
/-- `MAX_TOKENS` (R6). -/
def maxTokens : Nat := 6
/-- `MIN_TRIGGER_PERIOD_US` (R6). -/
def minTriggerPeriodUs : U32 := 200000
/-- `STATUS_CHECK_SIZE` (R6). -/
def statusCheckSize : U16 := 9

/-- The wire byte of a direction (R100). -/
def directionByte : Direction → Byte
  | .send => wireDirSend
  | .recv => wireDirRecv

/-- The ordinals of `COMM_STATE` (spec/10_state.md R41). -/
def commOrdinal : CommState → Nat
  | .idle => 0
  | .waitingInstruction => 1
  | .waitingData => 2
  | .waitingHeaderAck => 3
  | .waitingPacketAck => 4
  | .waitingRoleswap => 5

end Sys2Proof.Machine
end

