-- ==== Sys2Proof/Machine/Codec.lean ====
section
/-! DEFINITION. The Packet Codec (spec/40_codec.md): pure functions, no state (R146). -/

namespace Sys2Proof.Machine

/-- The bytes of a frame that its checksum covers: every byte except the first and the last. -/
def checksumRegion (b : List Byte) : List Byte := (b.drop 1).dropLast

/-- The sum of bytes modulo 256. -/
def byteSum (b : List Byte) : Byte := b.foldr (· + ·) 0

/-- `checksum(b)` (R140); `none` is `LenError`. -/
def checksum (b : List Byte) : Option Byte :=
  if b.length < 3 then none else some (0 - byteSum (checksumRegion b))

/-- `verifyChecksum(b)` (R141). -/
def verifyChecksum (b : List Byte) : Bool :=
  match checksum b with
  | none => false
  | some c => b.getLast? == some c

/-- The ASCII digit of `n % 10`. -/
def digitByte (n : Nat) : Byte := wireZero + BitVec.ofNat 8 (n % 10)

/-- The decimal digits of `n` before `acc`, at most `fuel` of them. -/
def decimalAux : Nat → Nat → List Byte → List Byte
  | 0, _, acc => acc
  | fuel + 1, n, acc =>
    if n < 10 then digitByte n :: acc else decimalAux fuel (n / 10) (digitByte n :: acc)

/-- The decimal digits of `n`, no leading zeros, one `0` for zero.  A number has at most
`log2 n + 1` decimal digits. -/
def decimalText (n : Nat) : List Byte := decimalAux (Nat.log2 n + 1) n []

/-- The decimal text of an integer, with a `-` before a negative one. -/
def intText (i : Int) : List Byte :=
  if i < 0 then wireMinus :: decimalText i.natAbs else decimalText i.natAbs

/-- Exactly six decimal digits of `n`. -/
def sixDigits (n : Nat) : List Byte :=
  [100000, 10000, 1000, 100, 10, 1].map fun p => digitByte (n / p)

/-- `fmt_f(v)` (R142): the C `"%f"` rendering of a finite value, rounded to the nearest multiple of
10^-6, ties to even (R151). -/
def fmtF (v : F64) : List Byte :=
  let n := roundHalfEven (f64Num v * 10 ^ 6) (f64Den v)
  (if f64Neg v then [wireMinus] else []) ++
    decimalText (n / 10 ^ 6) ++ [wirePoint] ++ sixDigits (n % 10 ^ 6)

/-- The cut and the padding of R142: the first six characters, or zeros on the left, after the sign. -/
def fitSix (s : List Byte) : List Byte :=
  if 6 ≤ s.length then s.take 6
  else if s.head? = some wireMinus then
    wireMinus :: (List.replicate (6 - s.length) wireZero ++ s.drop 1)
  else List.replicate (6 - s.length) wireZero ++ s

/-- `encodeFixedAscii(v)` (R142).  For a value that is not finite the spec states no result: the
characters are a free value (log entry 9). -/
def encodeFixedAscii (v : F64) : List Byte :=
  if f64IsFinite v then fitSix (fmtF v) else (Config.nonFiniteText v).toList

/-- The f64 nearest 10.92 (R143). -/
def rescaleOffset : F64 := f64OfDecimal false 1092 (-2)
/-- The f64 nearest 21.555 (R143). -/
def rescaleSpan : F64 := f64OfDecimal false 21555 (-3)
/-- 4096.0 (R143). -/
def rescaleSteps : F64 := f64OfDecimal false 4096 0
/-- 10.0, the clamping bound of R143. -/
def rescaleHi : F64 := f64OfDecimal false 10 0
/-- -10.0, the clamping bound of R143. -/
def rescaleLo : F64 := f64OfDecimal true 10 0

/-- The truncated code of R143 before its mask, for a value that is no NaN. -/
def rescaleRaw (v : F64) : U16 :=
  let x := f64Clamp v rescaleLo rescaleHi
  let scaled := f64Div (f64Mul (f64Add rescaleOffset x) rescaleSteps) rescaleSpan
  BitVec.ofInt 16 (f64Trunc scaled)

/-- `rescale12bit(v)` (R143).  For a NaN the spec states no result: the masked integer is a free value
(log entry 9). -/
def rescale12bit (v : F64) : U16 :=
  (if f64IsNaN v then Config.nanCode v else rescaleRaw v) &&& 0x0FFF

/-- `asciiList(vs)` (R148). -/
def asciiList : List F64 → List Byte
  | [] => []
  | [v] => encodeFixedAscii v
  | v :: w :: vs => encodeFixedAscii v ++ [wireComma] ++ asciiList (w :: vs)

/-- The two bytes of a code, low byte first (spec/20_memory.md R83). -/
def littleEndian16 (k : U16) : List Byte := [k.extractLsb' 0 8, k.extractLsb' 8 8]

/-- `hexList(ks)` (R149). -/
def hexList (ks : List U16) : List Byte := ks.flatMap littleEndian16

/-- The two bytes of a `u16`, high byte first (spec/20_memory.md R82). -/
def bigEndian16 (v : U16) : List Byte := [v.extractLsb' 8 8, v.extractLsb' 0 8]

/-- The four bytes of a `u32`, high byte first (spec/20_memory.md R82). -/
def bigEndian32 (v : U32) : List Byte :=
  [v.extractLsb' 24 8, v.extractLsb' 16 8, v.extractLsb' 8 8, v.extractLsb' 0 8]

/-- A frame from its bytes before the checksum byte: the checksum byte is computed over the frame and is
0x00 where `checksum` answers `LenError` (R145, R147). -/
def withChecksum (body : List Byte) : List Byte :=
  body ++ [(checksum (body ++ [0])).getD 0]

/-- `buildHeader(t, f, size, area)` (R144). -/
def buildHeader (p : Params) (t f : Byte) (size : U16) (area : Byte) : List Byte :=
  withChecksum ([wireMark, p.respDirByte, t, f] ++ bigEndian16 p.respLine ++
    bigEndian32 p.respOffset ++ bigEndian16 size ++ [wireHdrPad, area])

/-- `buildPacket(p)` (R145); an empty payload gives `3A 00` (R147). -/
def buildPacket (payload : List Byte) : List Byte := withChecksum (wireMark :: payload)

/-- Whether `buildPacket` meets `LenError` (R147): `checksum` fails on the packet's frame. -/
def packetLenError (payload : List Byte) : Bool := (checksum (wireMark :: payload ++ [0])).isNone

end Sys2Proof.Machine
end

