-- ==== Sys2Proof/Machine/Operands.lean ====
section
/-! DEFINITION. The operand forms: the fields of an instruction header (spec/30_encoding.md R103, R104)
and the tokens of a data payload (R111, spec/42_commands.md R190 to R196). -/

namespace Sys2Proof.Machine

/-- The fields of a 15-byte frame after its direction byte (R103); multi-byte fields are big-endian
(spec/20_memory.md R82). -/
def readHdrFields : List Byte → Option HdrFields
  | [_, _, t, f, l1, l0, o3, o2, o1, o0, p1, p0, pad, a, ck] =>
    some { typeByte := t, formByte := f, line := l1 ++ l0, offset := o3 ++ o2 ++ o1 ++ o0,
           packetSize := p1 ++ p0, pad := pad, area := a, checksum := ck }
  | _ => none

/-- The bytes of a header frame before its checksum byte. -/
def hdrBody (d : Direction) (h : HdrFields) : List Byte :=
  [wireMark, directionByte d, h.typeByte, h.formByte] ++ bigEndian16 h.line ++
    bigEndian32 h.offset ++ bigEndian16 h.packetSize ++ [h.pad, h.area]

/-- The 15 bytes of a header frame (R103). -/
def hdrFrame (d : Direction) (h : HdrFields) : List Byte := hdrBody d h ++ [h.checksum]

/-- A type byte is read as Hex exactly when it is `'H'` (R104, spec/43_psm.md R235). -/
def typeOfByte (t : Byte) : ValueType := if t = wireTypeHex then .hex else .ascii

/-- A form byte is read as List exactly when it is `'L'` (R104, spec/43_psm.md R235). -/
def formOfByte (f : Byte) : Form := if f = wireFormList then .listForm else .variableForm

/-- The payload text `P = b[1..L-2]` of a data frame (R190), empty when `L <= 2`. -/
def payloadText (b : List Byte) : List Byte := (b.drop 1).dropLast

/-- The fields of a text split at every comma: n commas give n + 1 fields (R191). -/
def splitCommas : List Byte → List Token
  | [] => [[]]
  | x :: xs =>
    if x = wireComma then [] :: splitCommas xs
    else match splitCommas xs with
      | [] => [[x]]
      | t :: ts => (x :: t) :: ts

/-- The kept tokens of a payload: none for an empty text (R191), at most six (R194). -/
def tokensOf (p : List Byte) : List Token :=
  if p = [] then [] else (splitCommas p).take maxTokens

/-- A token is of kind `Float` when it contains a point (R192). -/
def tokIsFloat (t : Token) : Bool := t.contains wirePoint

/-- `[0-9]`. -/
def isDigit (b : Byte) : Bool := decide (0x30 ≤ b.toNat) && decide (b.toNat ≤ 0x39)

/-- The number a run of digits stands for. -/
def digitsValue (ds : List Byte) : Nat := ds.foldl (fun a d => 10 * a + (d.toNat - 0x30)) 0

/-- An optional sign: whether it is `-`, and the rest of the text. -/
def splitSign : List Byte → Bool × List Byte
  | [] => (false, [])
  | x :: xs => if x = wireMinus then (true, xs) else if x = wirePlus then (false, xs) else (false, x :: xs)

/-- The value of an `Int` token: its longest prefix `[+-]? [0-9]*`, 0 without a digit, modulo 2^32
(R192). -/
def tokInt (t : Token) : I32 :=
  let r := splitSign t
  let m := digitsValue (r.2.takeWhile isDigit)
  BitVec.ofInt 32 (if r.1 then -(m : Int) else m)

/-- The optional exponent `([eE] [+-]? [0-9]+)?` at the start of a text: 0 where there is none. -/
def exponentOf : List Byte → Int
  | [] => 0
  | x :: xs =>
    if x = 0x65 ∨ x = 0x45 then
      let r := splitSign xs
      let m := digitsValue (r.2.takeWhile isDigit)
      if r.1 then -(m : Int) else m
    else 0

/-- The value of a `Float` token: its longest prefix
`[+-]? [0-9]* ("." [0-9]*)? ([eE] [+-]? [0-9]+)?` with a digit before the exponent, as the nearest f64;
0.0 if there is none (R193). -/
def tokFloat (t : Token) : F64 :=
  let r := splitSign t
  let whole := r.2.takeWhile isDigit
  let rest := r.2.dropWhile isDigit
  let point := rest.head? = some wirePoint
  let frac := if point then (rest.drop 1).takeWhile isDigit else []
  let tail := if point then (rest.drop 1).dropWhile isDigit else rest
  if whole ++ frac = [] then f64Zero false
  else f64OfDecimal r.1 (digitsValue (whole ++ frac)) (exponentOf tail - frac.length)

/-- `intArg(Ti)` (R196): an `Int` token's value; a `Float` token's value truncated toward zero and
saturated to the i32 range. -/
def intArg (t : Token) : I32 :=
  if tokIsFloat t then BitVec.ofInt 32 (f64TruncSat (-2 ^ 31) (2 ^ 31 - 1) (tokFloat t)) else tokInt t

/-- The channel of a 1-based index, none outside 1..3 (R198). -/
def channelOf (c : I32) : Option Channel :=
  if c = 1 then some .ch1 else if c = 2 then some .ch2 else if c = 3 then some .ch3 else none

/-- The selectors command 2001 knows (R203). -/
def isMetaSelector (s : I32) : Bool := [0, 1, 2, 3, 21, 22, 23].contains s

/-- The command numbers the CI knows (R195). -/
def isCommandNumber (v : I32) : Bool := [0, 1, 3, 7, 8, 12, 2001].contains v

/-- The tokens a command row stands for, T0 and its operands, in their plainest spelling; none for a
chunk or a frame row. -/
def commandTokens : Instr → Option (List Token)
  | .cmdClear => some [decimalText 0]
  | .cmdChsetup c op => some [decimalText 1, c, op]
  | .cmdRate p n => some [decimalText 3, p, n]
  | .cmdStatus => some [decimalText 7]
  | .cmdTrigger => some [decimalText 8]
  | .cmdMode m => some [decimalText 12, m]
  | .metaStatus => some [decimalText 2001, decimalText 0]
  | .metaSample1 => some [decimalText 2001, decimalText 1]
  | .metaSample2 => some [decimalText 2001, decimalText 2]
  | .metaSample3 => some [decimalText 2001, decimalText 3]
  | .metaPublish1 v => some [decimalText 2001, decimalText 21, v]
  | .metaPublish2 v => some [decimalText 2001, decimalText 22, v]
  | .metaPublish3 v => some [decimalText 2001, decimalText 23, v]
  | .metaUnknown s => some [decimalText 2001, s]
  | .cmdUnrecognized t0 => some [t0]
  | .chunkEmpty | .chunkAppendCont _ | .chunkAppendStart _ | .chunkVerbatim _ | .startIdle _
  | .noise _ | .hdrSend _ | .hdrRecv _ | .hdrInvalid _ _ | .data _ | .ackBOkHdr _ | .ackBOkPkt _
  | .ackBRetry _ | .ackBError _ | .startRestart _ | .ackOther _ _ | .roleswapStep _ => none

/-- Tokens joined by commas into a payload text (R111). -/
def joinCommas : List Token → List Byte
  | [] => []
  | [t] => t
  | t :: u :: ts => t ++ wireComma :: joinCommas (u :: ts)

end Sys2Proof.Machine
end

