-- ==== Sys2Proof/WellFormed.lean ====
section
/-! DEFINITION. Which instruction terms stand for an input of their row: the field conditions of
spec/opcode_table.json and the lengths of spec/30_encoding.md R101, R106. -/

namespace Sys2Proof

open Machine

/-- A chunk that begins an append when none is open (spec/41_reassembler.md R170, R172). -/
def startsAppend (c : List Byte) : Bool :=
  decide (2 < c.length) && decide (c.length < hdrLen) &&
    match c with
    | c0 :: c1 :: _ => c0 == wireMark && (c1 == wireDirSend || c1 == wireDirRecv)
    | _ => false

/-- The lengths a frame can have (R101, spec/41_reassembler.md R175). -/
def frameLength (b : List Byte) : Bool := decide (1 ≤ b.length) && decide (b.length ≤ rxCap)

/-- The first check of spec/43_psm.md R233 that a frame fails, none for a valid header. -/
def headerFault (b : List Byte) : Option FramingError :=
  if b.length ≠ hdrLen then some .length
  else if b.head? ≠ some wireMark then some .start
  else if b[1]? ≠ some wireDirSend ∧ b[1]? ≠ some wireDirRecv then some .direction
  else if verifyChecksum b = false then some .checksum
  else none

/-- A token holds no comma (R111). -/
def tokenText (t : Token) : Bool := !t.contains wireComma

/-- A command's tokens are texts without commas, at most six, that fit a data frame. -/
def tokensFit (ts : List Token) : Bool :=
  ts.all tokenText && decide (ts.length ≤ maxTokens) &&
    decide ((joinCommas ts).length + 2 ≤ rxCap)

/-- The command tokens of a row fit a data frame. -/
def commandFits (i : Instr) : Bool :=
  match commandTokens i with
  | some ts => tokensFit ts
  | none => false

/-- The acknowledgement codes an ack state knows (R114). -/
def isAckCode (b : Byte) : Bool := [wireBOk, wireBRetry, wireBError, wireStart].contains b

/-- The instruction is an input its row selects. -/
def Instr.wf : Instr → Bool
  | .chunkEmpty => true
  | .chunkAppendCont c => decide (1 ≤ c.length)
  | .chunkAppendStart c => startsAppend c
  | .chunkVerbatim c => decide (1 ≤ c.length) && !startsAppend c
  | .startIdle b => frameLength b && b.contains wireStart
  | .noise b => frameLength b && !b.contains wireStart
  | .hdrSend h => verifyChecksum (hdrFrame .send h)
  | .hdrRecv h => verifyChecksum (hdrFrame .recv h)
  | .hdrInvalid e b => frameLength b && headerFault b == some e
  | .data b => frameLength b
  | .cmdClear => true
  | .cmdChsetup c op => commandFits (.cmdChsetup c op)
  | .cmdRate p n => commandFits (.cmdRate p n)
  | .cmdStatus => true
  | .cmdTrigger => true
  | .cmdMode m => commandFits (.cmdMode m)
  | .metaStatus => true
  | .metaSample1 => true
  | .metaSample2 => true
  | .metaSample3 => true
  | .metaPublish1 v => commandFits (.metaPublish1 v)
  | .metaPublish2 v => commandFits (.metaPublish2 v)
  | .metaPublish3 v => commandFits (.metaPublish3 v)
  | .metaUnknown s => commandFits (.metaUnknown s) && !isMetaSelector (intArg s)
  | .cmdUnrecognized t => commandFits (.cmdUnrecognized t) && (tokIsFloat t || !isCommandNumber (tokInt t))
  | .ackBOkHdr r => decide (r.length < rxCap)
  | .ackBOkPkt r => decide (r.length < rxCap)
  | .ackBRetry r => decide (r.length < rxCap)
  | .ackBError r => decide (r.length < rxCap)
  | .startRestart r => decide (r.length < rxCap)
  | .ackOther b0 r => !isAckCode b0 && decide (r.length < rxCap)
  | .roleswapStep b => frameLength b

/-- The places where an input of this row is decoded (R112, R113). -/
def Instr.admits (i : Instr) (src : Source) : Bool :=
  match i with
  | .chunkEmpty => src == .chunk false || src == .chunk true
  | .chunkAppendCont _ => src == .chunk true
  | .chunkAppendStart _ => src == .chunk false
  | .chunkVerbatim _ => src == .chunk false
  | .startIdle _ => src == .frame .idle
  | .noise _ => src == .frame .idle
  | .hdrSend _ => src == .frame .waitingInstruction
  | .hdrRecv _ => src == .frame .waitingInstruction
  | .hdrInvalid _ _ => src == .frame .waitingInstruction
  | .data _ => src == .frame .waitingData
  | .cmdClear | .cmdChsetup _ _ | .cmdRate _ _ | .cmdStatus | .cmdTrigger | .cmdMode _
  | .metaStatus | .metaSample1 | .metaSample2 | .metaSample3
  | .metaPublish1 _ | .metaPublish2 _ | .metaPublish3 _ | .metaUnknown _
  | .cmdUnrecognized _ => src == .command
  | .ackBOkHdr _ => src == .frame .waitingHeaderAck
  | .ackBOkPkt _ => src == .frame .waitingPacketAck
  | .ackBRetry _ | .ackBError _ | .startRestart _ | .ackOther _ _ =>
    src == .frame .waitingHeaderAck || src == .frame .waitingPacketAck
  | .roleswapStep _ => src == .frame .waitingRoleswap

end Sys2Proof
end

