-- ==== Sys2Proof/Decode.lean ====
section
/-! DEFINITION. The decoder of every input (spec/30_encoding.md section 4), total on any bytes and
rejecting by name, and after it the encoder, written from the same formats. -/

namespace Sys2Proof

open Machine

/-- Why bytes select no row.  Neither stops the machine: FRA emits no empty frame
(spec/41_reassembler.md R175), and the CI answers a short command with `DATA_TOKEN_COUNT`. -/
inductive DecodeError where
  /-- a frame of no bytes: R175 emits none -/
  | emptyFrame
  /-- fewer tokens than the command reads, or none (spec/42_commands.md R195, R203) -/
  | tokenCount
deriving DecidableEq, Repr, Inhabited

/-- The chunk row of a chunk (spec/41_reassembler.md R170). -/
def decodeChunk (appending : Bool) (c : List Byte) : Instr :=
  if c = [] then .chunkEmpty
  else if appending then .chunkAppendCont c
  else if startsAppend c then .chunkAppendStart c
  else .chunkVerbatim c

/-- The row of a frame in `WaitingInstruction` (spec/43_psm.md R233). -/
def decodeHeaderFrame (b : List Byte) : Instr :=
  match headerFault b with
  | some e => .hdrInvalid e b
  | none =>
    match readHdrFields b with
    | some h => if b[1]? = some wireDirSend then .hdrSend h else .hdrRecv h
    | none => .hdrInvalid .length b

/-- The row byte 0 selects in an ack state (spec/43_psm.md R240, R254); `ok` is the state's own B-OK
row. -/
def decodeAck (ok : List Byte → Instr) (b0 : Byte) (rest : List Byte) : Instr :=
  if b0 = wireBOk then ok rest
  else if b0 = wireBRetry then .ackBRetry rest
  else if b0 = wireBError then .ackBError rest
  else if b0 = wireStart then .startRestart rest
  else .ackOther b0 rest

/-- The row of a frame: `COMM_STATE` alone decides which format it is read as (R113). -/
def decodeFrame (st : CommState) (b : List Byte) : Except DecodeError Instr :=
  match b with
  | [] => .error .emptyFrame
  | b0 :: rest =>
    match st with
    | .idle => .ok (if b.contains wireStart then .startIdle b else .noise b)
    | .waitingInstruction => .ok (decodeHeaderFrame b)
    | .waitingData => .ok (.data b)
    | .waitingHeaderAck => .ok (decodeAck .ackBOkHdr b0 rest)
    | .waitingPacketAck => .ok (decodeAck .ackBOkPkt b0 rest)
    | .waitingRoleswap => .ok (.roleswapStep b)

/-- The row of command 2001 with the tokens after T0 (spec/42_commands.md R203). -/
def decodeMeta : List Token → Except DecodeError Instr
  | [] => .error .tokenCount
  | t1 :: more =>
    let s := intArg t1
    if s = 0 then .ok .metaStatus
    else if s = 1 then .ok .metaSample1
    else if s = 2 then .ok .metaSample2
    else if s = 3 then .ok .metaSample3
    else if s = 21 ∨ s = 22 ∨ s = 23 then
      match more with
      | [] => .error .tokenCount
      | v :: _ =>
        .ok (if s = 21 then .metaPublish1 v else if s = 22 then .metaPublish2 v else .metaPublish3 v)
    else .ok (.metaUnknown t1)

/-- The command row of a token list (spec/42_commands.md R195): too few tokens are rejected, tokens the
command does not read are ignored. -/
def decodeTokens : List Token → Except DecodeError Instr
  | [] => .error .tokenCount
  | t0 :: ts =>
    if tokIsFloat t0 then .ok (.cmdUnrecognized t0)
    else
      let v := tokInt t0
      if v = 0 then .ok .cmdClear
      else if v = 1 then
        match ts with
        | c :: op :: _ => .ok (.cmdChsetup c op)
        | _ => .error .tokenCount
      else if v = 3 then
        match ts with
        | p :: n :: _ => .ok (.cmdRate p n)
        | _ => .error .tokenCount
      else if v = 7 then .ok .cmdStatus
      else if v = 8 then .ok .cmdTrigger
      else if v = 12 then
        match ts with
        | m :: _ => .ok (.cmdMode m)
        | _ => .error .tokenCount
      else if v = 2001 then decodeMeta ts
      else .ok (.cmdUnrecognized t0)

/-- The command row of a data frame (spec/42_commands.md R190 to R195). -/
def decodeCommand (b : List Byte) : Except DecodeError Instr := decodeTokens (tokensOf (payloadText b))

/-- The decoder: the row that bytes select where they are read. -/
def decode : Source → List Byte → Except DecodeError Instr
  | .chunk a, c => .ok (decodeChunk a c)
  | .frame st, b => decodeFrame st b
  | .command, b => decodeCommand b

/-- The data frame that carries a command's tokens: `':'`, the text, a checksum byte (R106). -/
def encodeCommand (ts : List Token) : List Byte := withChecksum (wireMark :: joinCommas ts)

/-- The data frame of a command row. -/
def encodeRow (i : Instr) : List Byte := encodeCommand ((commandTokens i).getD [])

/-- The encoder: the bytes of an instruction, in wire order. -/
def encode : Instr → List Byte
  | .chunkEmpty => []
  | .chunkAppendCont c => c
  | .chunkAppendStart c => c
  | .chunkVerbatim c => c
  | .startIdle b => b
  | .noise b => b
  | .hdrSend h => hdrFrame .send h
  | .hdrRecv h => hdrFrame .recv h
  | .hdrInvalid _ b => b
  | .data b => b
  | .ackBOkHdr r => wireBOk :: r
  | .ackBOkPkt r => wireBOk :: r
  | .ackBRetry r => wireBRetry :: r
  | .ackBError r => wireBError :: r
  | .startRestart r => wireStart :: r
  | .ackOther b0 r => b0 :: r
  | .roleswapStep b => b
  | .cmdClear => encodeRow .cmdClear
  | .cmdChsetup c op => encodeRow (.cmdChsetup c op)
  | .cmdRate p n => encodeRow (.cmdRate p n)
  | .cmdStatus => encodeRow .cmdStatus
  | .cmdTrigger => encodeRow .cmdTrigger
  | .cmdMode m => encodeRow (.cmdMode m)
  | .metaStatus => encodeRow .metaStatus
  | .metaSample1 => encodeRow .metaSample1
  | .metaSample2 => encodeRow .metaSample2
  | .metaSample3 => encodeRow .metaSample3
  | .metaPublish1 v => encodeRow (.metaPublish1 v)
  | .metaPublish2 v => encodeRow (.metaPublish2 v)
  | .metaPublish3 v => encodeRow (.metaPublish3 v)
  | .metaUnknown t => encodeRow (.metaUnknown t)
  | .cmdUnrecognized t => encodeRow (.cmdUnrecognized t)

/-- The input a decode key of R112 stands for, and where it is read (log entry 13).  The key's width
names its format: 24 bits hold a `CHUNK` key, 16 an `HDR15` key, 8 a `CTRL1` key, 64 a `CMD` key, and
no bits are the chunk of no bytes.  What the key leaves out takes the value the row's conditions need,
else zero: a chunk has three bytes, a header its valid checksum, a command a third token `0`. -/
def tableInput (nbits w : Nat) : Option (Source × List Byte) :=
  let byteAt (k : Nat) : Byte := BitVec.ofNat 8 (w / 2 ^ k)
  if nbits = 0 then some (.chunk false, [])
  else if nbits = 8 then
    some (.frame (if byteAt 0 = wireStart then .idle else .waitingHeaderAck), [byteAt 0])
  else if nbits = 16 then
    some (.frame .waitingInstruction,
      withChecksum ([byteAt 8, byteAt 0] ++ List.replicate 12 0))
  else if nbits = 24 then some (.chunk (w / 2 ^ 16 % 2 == 1), [byteAt 8, byteAt 0, 0])
  else if nbits = 64 then
    some (.command, encodeCommand
      [intText (BitVec.ofNat 32 (w / 2 ^ 32)).toInt, intText (BitVec.ofNat 32 w).toInt, decimalText 0])
  else none

/-- The instruction the decoder reads from a key of spec/opcode_table.json. -/
def decodeTableWord (nbits w : Nat) : Option Instr :=
  match tableInput nbits w with
  | none => none
  | some (src, bytes) =>
    match decode src bytes with
    | .ok i => some i
    | .error _ => none

end Sys2Proof
end

