-- ==== Sys2Proof/Machine/State.lean ====
section
/-! DEFINITION. The state of the block as plain data (spec/10_state.md, registers S01 to S27), with the
model's own fields for its ports, and the state after reset (spec/70_reset_and_hazards.md R321). -/

namespace Sys2Proof.Machine

/-- `HL_STATE` (R42), in the order of its ordinals 0 to 5. -/
inductive HlState where
  | none | sending | meStatus | meGetSample1 | meGetSample2 | meGetSample3
deriving DecidableEq, Repr, Inhabited

/-- `PROCEDURE` (R43). -/
inductive Procedure where
  | none | send38k | recv38k
deriving DecidableEq, Repr, Inhabited

/-- `PENDING_CMD` (R45). -/
inductive PendingCmd where
  | none | statusCheck | voltageList
deriving DecidableEq, Repr, Inhabited

/-- `TRIG_MODE` (R54). -/
inductive TrigMode where
  | realTime | batch
deriving DecidableEq, Repr, Inhabited

/-- The status of a sample (R53, R57). -/
inductive SampleStatus where
  | ok | fail
deriving DecidableEq, Repr, Inhabited

/-- `TASK_PHASE` (R58). -/
inductive TaskPhase where
  | ready | awaitSample
deriving DecidableEq, Repr, Inhabited

/-- The packet a held frame is building: always the hex voltage list (R59). -/
inductive PacketKind where
  | hexList
deriving DecidableEq, Repr, Inhabited

/-- What a held frame goes on with after its packet (R59). -/
inductive Continuation where
  /-- the batch-loop tail of spec/43_psm.md R250 -/
  | batchTail
  /-- the real-time tail of spec/43_psm.md R251 -/
  | realTimeTail
deriving DecidableEq, Repr, Inhabited

/-- `AWAIT_CTX` (R59). -/
structure AwaitCtx where
  kind : PacketKind
  cont : Continuation
deriving DecidableEq, Repr, Inhabited

/-- `HDR` (R48): the record decoded from an instruction frame. -/
structure Header where
  direction  : Direction
  valueType  : ValueType
  form       : Form
  line       : U16
  offset     : U32
  packetSize : U16
  area       : Byte
  checksum   : Byte
deriving DecidableEq, Repr, Inhabited

/-- A SampleEvent (R53). -/
structure SampleEvent where
  measurements : Triple F64
  status       : SampleStatus
deriving DecidableEq, Repr, Inhabited

/-- The event codes of the `DIAG` port (spec/60_exceptions.md R283). -/
inductive DiagCode where
  | framingLen | framingStart | framingDir | framingChecksum
  | payloadOverflow
  | dataNoStart | dataTokenCount | channelRange | unsupportedOp | unrecognizedCmd
  | ackRetryRx | ackErrorRx | unexpectedAck | restart
  | sampleUnavailable
  | publishDropped
  | appendCapacity
  | codecLen
  | idleNoise
deriving DecidableEq, Repr, Inhabited

/-- What the block puts on its output ports, in order (spec/00_scope.md R5, R9). -/
inductive OutEvent where
  /-- one `sendBytes` call on `TX` -/
  | tx (bytes : List Byte)
  /-- one event on `DIAG` -/
  | diag (code : DiagCode)
  /-- one `tryEnqueue` call on `PUB`, for a channel and the token of its value -/
  | pub (channel : Channel) (value : Token)
deriving DecidableEq, Repr, Inhabited

/-- The whole machine.  S01 to S27 are the registers of spec/10_state.md section 2; the fields after
them are the model's own. -/
structure State where
  /-- S01 `FRA_APPENDING` (R33) -/
  fraAppending  : Bool
  /-- S02 `APPBUF` (R34) -/
  appBuf        : Vector Byte 15
  /-- S03 `APP_LEN` (R34) -/
  appLen        : Nat
  /-- S04 `RXBUF` (R35) -/
  rxBuf         : Vector Byte 30
  /-- S04 `RX_LEN` (R35) -/
  rxLen         : Nat
  /-- S05 `COMM_STATE` (R41) -/
  commState     : CommState
  /-- S06 `HL_STATE` (R42) -/
  hlState       : HlState
  /-- S07 `PROCEDURE` (R43) -/
  procedure     : Procedure
  /-- S08 `SAMPLE_INDEX` (R44) -/
  sampleIndex   : U16
  /-- S09 `PENDING_CMD` (R45) -/
  pendingCmd    : PendingCmd
  /-- S10 `DIR1` (R46) -/
  dir1          : Bool
  /-- S11 `DIR2` (R46) -/
  dir2          : Bool
  /-- S12 `HDR` (R48) -/
  hdr           : Header
  /-- S13 `FORM2` (R47) -/
  form2         : Form
  /-- S14 `EXPECTED_LEN` (R49) -/
  expectedLen   : Nat
  /-- S15 `DATA_ERR` (R50) -/
  dataErr       : Bool
  /-- S16 `CH_OP[1..3]` (R51) -/
  chOp          : Triple I32
  /-- S17 `ACTIVE_MASK` (R52) -/
  activeMask    : BitVec 3
  /-- S18 `TRIG_PERIOD_US` (R54) -/
  trigPeriodUs  : U32
  /-- S19 `TRIG_COUNT` (R54) -/
  trigCount     : U32
  /-- S20 `TRIG_MODE` (R54) -/
  trigMode      : TrigMode
  /-- S21 `TIMER_ARMED` (R55) -/
  timerArmed    : Bool
  /-- S22 `TIMER_PERIOD_US` (R55) -/
  timerPeriodUs : U32
  /-- S23 `SQ`, the head first (R56) -/
  sq            : List SampleEvent
  /-- S24 `LAST_MEAS[0..2]` (R57) -/
  lastMeas      : Triple F64
  /-- S25 `LAST_STATUS` (R57) -/
  lastStatus    : SampleStatus
  /-- S26 `TASK_PHASE` (R58) -/
  taskPhase     : TaskPhase
  /-- S27 `AWAIT_CTX` (R59) -/
  awaitCtx      : AwaitCtx
  /-- the parameters, fixed at reset (spec/70_reset_and_hazards.md R323) -/
  params        : Params
  /-- the model's own: chunks delivered on `RX` and not yet taken, oldest first -/
  rx            : List (List Byte)
  /-- the model's own: the next answers of the `ADC` port, in the order of the reads -/
  adcIn         : List FiniteF64
  /-- the model's own: the next answers of the `CONN` port, in the order of the queries -/
  connIn        : List Bool
  /-- the model's own: the next answers of the `PUB` port -/
  pubIn         : List Bool
  /-- the model's own: for the next steps with the timer armed, whether a tick is the next step -/
  tickIn        : List Bool
  /-- the model's own: for the next races of R262, whether the timeout wins -/
  timeoutIn     : List Bool
  /-- the model's own: how many draws the free values of `Config` have answered -/
  freeDraws     : Nat
  /-- the model's own: everything put on the output ports, oldest first -/
  out           : List OutEvent
deriving DecidableEq, Repr, Inhabited

/-- Why the machine would stop with a fault.  There is no constructor: "The block itself has no fault
outcome" (spec/00_scope.md R10). -/
inductive Fault where
deriving DecidableEq, Repr

/-- Why the model has no meaning to give.  None of these is reached by `step`. -/
inductive Refusal where
  /-- raised by an arm of `exec` for an instruction without a meaning (none in this model); safe -/
  | notModelled (mnemonic : String)
  /-- raised when a frame of no bytes is handed to the protocol state machine, which only an ill-formed
  chunk row can do: FRA emits frames of at least one byte (R175); safe -/
  | emptyFrame
  /-- raised when a row that is no frame row is handed to the protocol state machine, which its decoder
  never does; safe -/
  | notAFrameRow
  /-- raised when a row that is no command row is handed to the command interpreter, which its decoder
  never does; safe -/
  | notACommandRow
deriving DecidableEq, Repr

/-- The machine right after reset (spec/70_reset_and_hazards.md R321).  The values of `appBuf`, `rxBuf`,
`hdr`, `form2` and `awaitCtx`, which the spec leaves unspecified, are log entry 1; the parameters are
log entry 2; the ports hold nothing. -/
def State.reset : State where
  fraAppending := false
  appBuf := Vector.replicate 15 0
  appLen := 0
  rxBuf := Vector.replicate 30 0
  rxLen := 0
  commState := .idle
  hlState := .none
  procedure := .none
  sampleIndex := 0
  pendingCmd := .none
  dir1 := false
  dir2 := false
  hdr := { direction := .send, valueType := .ascii, form := .variableForm, line := 0, offset := 0,
           packetSize := 0, area := 0, checksum := 0 }
  form2 := .variableForm
  expectedLen := 0
  dataErr := false
  chOp := ⟨0, 0, 0⟩
  activeMask := 0
  trigPeriodUs := 0
  trigCount := 0
  trigMode := .realTime
  timerArmed := false
  timerPeriodUs := 0
  sq := []
  lastMeas := ⟨0, 0, 0⟩
  lastStatus := .ok
  taskPhase := .ready
  awaitCtx := { kind := .hexList, cont := .batchTail }
  params := Params.reference
  rx := []
  adcIn := []
  connIn := []
  pubIn := []
  tickIn := []
  timeoutIn := []
  freeDraws := 0
  out := []

/-- What a step or a meaning answers. -/
abbrev Result := Host.Outcome State Fault Refusal

end Sys2Proof.Machine
end

