-- ==== Sys2Proof/Machine/Ops.lean ====
section
/-! DEFINITION. The named operations every rule is written in (spec/00_scope.md R9): the buffers, the
output ports, the draws of the query ports, the sample queue, the timer, and the error conditions. -/

namespace Sys2Proof.Machine

/-- Go on with `f` where `r` is a next state. -/
def andThen (r : Result) (f : State → Result) : Result :=
  match r with
  | .next s => f s
  | .fault e => .fault e
  | .refused e => .refused e

/-! ### Buffers -/

/-- `MemRead(BUF, i, n)` (R9, spec/20_memory.md R80). -/
def memRead {cap : Nat} (buf : Vector Byte cap) (i n : Nat) : List Byte :=
  (buf.toList.drop i).take n

/-- `MemWrite(BUF, i, n, v)` with n the length of `v` (R9).  A byte past the capacity is not written:
the buffer is never overrun (spec/20_memory.md R80). -/
def memWrite {cap : Nat} (buf : Vector Byte cap) (i : Nat) (v : List Byte) : Vector Byte cap :=
  ⟨⟨(buf.toList.take i ++ v ++ buf.toList.drop (i + v.length)).take cap⟩, by simp; omega⟩

/-- The frame the PSM is processing, `RXBUF[0..RX_LEN-1]` (spec/10_state.md R35). -/
def State.frame (s : State) : List Byte := memRead s.rxBuf 0 s.rxLen

/-- Load a frame into the receive buffer (spec/41_reassembler.md R175). -/
def loadFrame (f : List Byte) (s : State) : State :=
  { s with rxLen := f.length, rxBuf := memWrite s.rxBuf 0 f }

/-- "Clear the buffer": `RX_LEN <- 0` (spec/10_state.md R35). -/
def clearFrame (s : State) : State := { s with rxLen := 0 }

/-! ### Output ports -/

/-- Put one event on an output port, after all earlier ones (spec/20_memory.md R93). -/
def emitOut (e : OutEvent) (s : State) : State := { s with out := s.out ++ [e] }

/-- `send(b)`: one string on `TX`, whole (R9). -/
def send (b : List Byte) (s : State) : State := emitOut (.tx b) s

/-- `diag(CODE)`: one event on `DIAG` and no other effect (R9). -/
def diag (c : DiagCode) (s : State) : State := emitOut (.diag c) s

/-- Raising an error condition (R9, spec/60_exceptions.md R286): there is no trap mechanism, so it is
the error's `DIAG` event and nothing else; the rule that raises it goes on in line, and there is no
return. -/
def raiseError (c : DiagCode) (s : State) : State := diag c s

/-- The number of a `DIAG` code (spec/60_exceptions.md R283). -/
def diagNumber : DiagCode → Byte
  | .framingLen => 0x01
  | .framingStart => 0x02
  | .framingDir => 0x03
  | .framingChecksum => 0x04
  | .payloadOverflow => 0x10
  | .dataNoStart => 0x20
  | .dataTokenCount => 0x21
  | .channelRange => 0x23
  | .unsupportedOp => 0x24
  | .unrecognizedCmd => 0x25
  | .ackRetryRx => 0x30
  | .ackErrorRx => 0x31
  | .unexpectedAck => 0x32
  | .restart => 0x33
  | .sampleUnavailable => 0x40
  | .publishDropped => 0x50
  | .appendCapacity => 0x60
  | .codecLen => 0x70
  | .idleNoise => 0x80

/-- The JSON text of a `PUB` event (spec/42_commands.md R206); other events have none. -/
def publishText : OutEvent → Option (List Byte)
  | .pub k v => some (Config.pubFormat k v)
  | .tx _ | .diag _ => none

/-! ### Query ports: each read is a fresh draw (R5), the next scripted answer or a free value -/

/-- One read of `ADC(c - 1)`. -/
def drawAdc (c : Channel) (s : State) : FiniteF64 × State :=
  match s.adcIn with
  | v :: vs => (v, { s with adcIn := vs })
  | [] => (Config.adcDraw c s.freeDraws, { s with freeDraws := s.freeDraws + 1 })

/-- One query of `CONN`. -/
def drawConn (s : State) : Bool × State :=
  match s.connIn with
  | v :: vs => (v, { s with connIn := vs })
  | [] => (Config.connDraw s.freeDraws, { s with freeDraws := s.freeDraws + 1 })

/-- The answer of one `PUB.tryEnqueue` call. -/
def drawPub (s : State) : Bool × State :=
  match s.pubIn with
  | v :: vs => (v, { s with pubIn := vs })
  | [] => (Config.pubDraw s.freeDraws, { s with freeDraws := s.freeDraws + 1 })

/-- Whether a tick is the next step.  A stopped timer ticks never, and nothing is drawn
(spec/60_exceptions.md R289, R293). -/
def drawTick (s : State) : Bool × State :=
  if s.timerArmed then
    match s.tickIn with
    | v :: vs => (v, { s with tickIn := vs })
    | [] => (Config.tickDraw s.freeDraws, { s with freeDraws := s.freeDraws + 1 })
  else (false, s)

/-- Whether the timeout wins the race of spec/43_psm.md R262. -/
def drawTimeout (s : State) : Bool × State :=
  match s.timeoutIn with
  | v :: vs => (v, { s with timeoutIn := vs })
  | [] => (Config.timeoutDraw s.freeDraws, { s with freeDraws := s.freeDraws + 1 })

/-- One `ADC` read for each channel of a list, in its order. -/
def readChannels : List Channel → State → List F64 × State
  | [], s => ([], s)
  | c :: cs, s =>
    let r := drawAdc c s
    let more := readChannels cs r.2
    (r.1.toF64 :: more.1, more.2)

/-! ### Sample queue and timer -/

/-- `qpush(e)`: the newest event is dropped, silently, when the queue is full (spec/20_memory.md R87). -/
def qpush (e : SampleEvent) (s : State) : State :=
  if s.sq.length < s.params.queueCap then { s with sq := s.sq ++ [e] } else s

/-- `arm(p)` (spec/60_exceptions.md R291). -/
def arm (p : U32) (s : State) : State := { s with timerPeriodUs := p, timerArmed := true }

/-- `disarm()` (spec/60_exceptions.md R291). -/
def disarm (s : State) : State := { s with timerArmed := false }

/-! ### Channels -/

/-- Channel c is active: its operation code is not 0 (spec/92_eei_decisions.md D15). -/
def channelActive (s : State) (c : Channel) : Bool := s.chOp.get c != 0

/-- The active channels, in channel order (spec/43_psm.md R248). -/
def activeChannels (s : State) : List Channel := Channel.all.filter (channelActive s)

/-- The mask of the active channels: bit c - 1 for channel c (spec/42_commands.md R201). -/
def channelMask (s : State) : BitVec 3 :=
  BitVec.ofBool (channelActive s .ch3) ++ BitVec.ofBool (channelActive s .ch2) ++
    BitVec.ofBool (channelActive s .ch1)

/-! ### Placing an input -/

/-- Place an input so that the very next step runs it: the chunk at the head of `RX`, the registers its
row is decoded under (log entry 14), `TASK` ready and no tick first. -/
def stageInput (src : Source) (bytes : List Byte) (s : State) : State :=
  let s := { s with
    rx := bytes :: s.rx
    taskPhase := .ready
    tickIn := if s.timerArmed then false :: s.tickIn else s.tickIn }
  match src with
  | .chunk true =>
    { s with
      fraAppending := true
      appLen := if 3 ≤ s.appLen ∧ s.appLen ≤ 14 then s.appLen else 3 }
  | .chunk false => { s with fraAppending := false, appLen := 0 }
  | .frame st => { s with fraAppending := false, appLen := 0, commState := st }
  | .command => { s with fraAppending := false, appLen := 0, commState := .waitingData }

end Sys2Proof.Machine
end

