-- ==== Sys2Proof/Machine/Flags.lean ====
section
/-! DEFINITION. The flags of the block: `DATA_ERR` (spec/10_state.md R50) and the session flags `DIR1`
and `DIR2` (R46). -/

namespace Sys2Proof.Machine

/-- `DATA_ERR <- true` with the diagnostic of the error (spec/60_exceptions.md R282). -/
def raiseDataError (c : DiagCode) (s : State) : State := raiseError c { s with dataErr := true }

/-- `DATA_ERR <- false` (R50). -/
def clearDataError (s : State) : State := { s with dataErr := false }

/-- The acknowledgement of a data frame: `B_ERROR` if `DATA_ERR` else `B_OK` (spec/43_psm.md R239). -/
def dataAck (s : State) : Byte := if s.dataErr then wireBError else wireBOk

/-- "Clears session flags": `DIR1` and `DIR2` become false (spec/43_psm.md R253, R255). -/
def clearSessionFlags (s : State) : State := { s with dir1 := false, dir2 := false }

end Sys2Proof.Machine
end

