-- ==== Sys2Proof/Machine/Commands.lean ====
section
/-! DEFINITION. The Command Interpreter (spec/42_commands.md): the meaning of each command row and
`interpret`, which the PSM calls on a data frame. -/

namespace Sys2Proof.Machine

/-- `CMD_CLEAR` (R197). -/
def execCmdClear (s : State) : Result := .next { s with chOp := ⟨0, 0, 0⟩, sampleIndex := 0 }

/-- Store a channel's operation code; a code other than 2 is kept and reported (R198). -/
def setChannelOp (c : Channel) (op : I32) (s : State) : State :=
  let s := { s with chOp := s.chOp.set c op }
  if op = 2 then s else raiseError .unsupportedOp s

/-- `CMD_CHSETUP` (R198). -/
def execCmdChsetup (chan op : Token) (s : State) : Result :=
  match channelOf (intArg chan) with
  | some c => .next (setChannelOp c (intArg op) s)
  | none => .next (raiseError .channelRange s)

/-- The period of command 3 in microseconds, clamped to a u32 (R199): an exact integer product, or one
f64 multiply and a truncation. -/
def periodMicros (t : Token) : U32 :=
  if tokIsFloat t then
    BitVec.ofInt 32 (f64TruncSat 0 (2 ^ 32 - 1) (f64Mul (tokFloat t) (f64OfDecimal false 1000000 0)))
  else BitVec.ofInt 32 (min (max ((tokInt t).toInt * 1000000) 0) (2 ^ 32 - 1))

/-- `CMD_RATE` (R199). -/
def execCmdRate (period count : Token) (s : State) : Result :=
  let cnt := intArg count
  .next { s with
    trigPeriodUs := periodMicros period
    trigCount := if cnt = -1 then 0 else cnt
    trigMode := if cnt = -1 then .realTime else .batch }

/-- `CMD_STATUS` (R200). -/
def execCmdStatus (s : State) : Result := .next { s with pendingCmd := .statusCheck }

/-- `CMD_TRIGGER` (R201). -/
def execCmdTrigger (s : State) : Result :=
  let s := { s with activeMask := channelMask s }
  let s := if minTriggerPeriodUs ≤ s.trigPeriodUs then arm s.trigPeriodUs s else s
  .next { s with sampleIndex := 0, hlState := .sending }

/-- `CMD_MODE` (R202). -/
def execCmdMode (mode : Token) (s : State) : Result :=
  .next { s with trigMode := if intArg mode = 1 then .realTime else .batch }

/-- `META_STATUS` (R204). -/
def execMetaStatus (s : State) : Result := .next { s with hlState := .meStatus }

/-- `META_SAMPLE1` (R205). -/
def execMetaSample1 (s : State) : Result := .next { s with hlState := .meGetSample1 }

/-- `META_SAMPLE2` (R205). -/
def execMetaSample2 (s : State) : Result := .next { s with hlState := .meGetSample2 }

/-- `META_SAMPLE3` (R205). -/
def execMetaSample3 (s : State) : Result := .next { s with hlState := .meGetSample3 }

/-- A best-effort publish (R206): one `PUB` call, and a diagnostic when the sink refuses it. -/
def publish (k : Channel) (value : Token) (s : State) : State :=
  let r := drawPub (emitOut (.pub k value) s)
  if r.1 then r.2 else raiseError .publishDropped r.2

/-- `META_PUBLISH1` (R206). -/
def execMetaPublish1 (value : Token) (s : State) : Result := .next (publish .ch1 value s)

/-- `META_PUBLISH2` (R206). -/
def execMetaPublish2 (value : Token) (s : State) : Result := .next (publish .ch2 value s)

/-- `META_PUBLISH3` (R206). -/
def execMetaPublish3 (value : Token) (s : State) : Result := .next (publish .ch3 value s)

/-- `META_UNKNOWN` (R207): a diagnostic and no state change, whatever the selector. -/
def execMetaUnknown (s : State) : Result := .next (raiseError .unrecognizedCmd s)

/-- `CMD_UNRECOGNIZED` (R208): a diagnostic and no state change, whatever token 0. -/
def execCmdUnrecognized (s : State) : Result := .next (raiseError .unrecognizedCmd s)

/-- Run a command row (R195).  The decoder of commands gives command rows only. -/
def runCommand (i : Instr) (s : State) : Result :=
  match i with
  | .cmdClear => execCmdClear s
  | .cmdChsetup c op => execCmdChsetup c op s
  | .cmdRate p n => execCmdRate p n s
  | .cmdStatus => execCmdStatus s
  | .cmdTrigger => execCmdTrigger s
  | .cmdMode m => execCmdMode m s
  | .metaStatus => execMetaStatus s
  | .metaSample1 => execMetaSample1 s
  | .metaSample2 => execMetaSample2 s
  | .metaSample3 => execMetaSample3 s
  | .metaPublish1 v => execMetaPublish1 v s
  | .metaPublish2 v => execMetaPublish2 v s
  | .metaPublish3 v => execMetaPublish3 v s
  | .metaUnknown _ => execMetaUnknown s
  | .cmdUnrecognized _ => execCmdUnrecognized s
  | .chunkEmpty | .chunkAppendCont _ | .chunkAppendStart _ | .chunkVerbatim _ | .startIdle _
  | .noise _ | .hdrSend _ | .hdrRecv _ | .hdrInvalid _ _ | .data _ | .ackBOkHdr _ | .ackBOkPkt _
  | .ackBRetry _ | .ackBError _ | .startRestart _ | .ackOther _ _ | .roleswapStep _ =>
    .refused .notACommandRow

/-- `interpret(b)` (R190 to R210): at most one command of the frame; a frame with too few tokens marks a
data error and runs none. -/
def interpret (b : List Byte) (s : State) : Result :=
  match decodeCommand b with
  | .ok i => runCommand i s
  | .error _ => .next (raiseDataError .dataTokenCount s)

end Sys2Proof.Machine
end

