-- ==== Sys2Proof/Machine/Sampling.lean ====
section
/-! DEFINITION. The sampling timer's tick (spec/60_exceptions.md R292) and the queue read of a hex list
(spec/43_psm.md R262). -/

namespace Sys2Proof.Machine

/-- One channel of the tick: an `ADC` read if its mask bit is set, else 0.0 and no read. -/
def tickChannel (c : Channel) (s : State) : F64 × State :=
  if s.activeMask.getLsbD c.index then
    let r := drawAdc c s
    (r.1.toF64, r.2)
  else (f64Zero false, s)

/-- `tick()` (R292): the measurements in channel order, and one push. -/
def tick (s : State) : State :=
  let r1 := tickChannel .ch1 s
  let r2 := tickChannel .ch2 r1.2
  let r3 := tickChannel .ch3 r2.2
  qpush { measurements := ⟨r1.1, r2.1, r3.1⟩, status := .ok } r3.2

/-- `qpop()` of a queue with head `e` and rest `q`, and the two registers a successful queue read writes
(spec/43_psm.md R262). -/
def takeSample (e : SampleEvent) (q : List SampleEvent) (s : State) : State :=
  { s with sq := q, lastMeas := e.measurements, lastStatus := .ok }

/-- The registers a timed-out queue read writes, and its diagnostic (spec/43_psm.md R262). -/
def sampleTimeout (s : State) : State := raiseError .sampleUnavailable { s with lastStatus := .fail }

/-- The hold: `TASK` waits on the queue and takes no chunk (spec/43_psm.md R262). -/
def holdForSample (k : Continuation) (s : State) : State :=
  { s with awaitCtx := { kind := .hexList, cont := k }, taskPhase := .awaitSample }

end Sys2Proof.Machine
end

