-- ==== Sys2Proof/Machine/Psm.lean ====
section
/-! DEFINITION. The Protocol State Machine (spec/43_psm.md): the meaning of each frame row, the payloads
it sends, `psmStep`, and the resumption of a held frame. -/

namespace Sys2Proof.Machine

/-! ### Idle and WaitingInstruction -/

/-- `START_IDLE` (R231), whatever else the frame holds. -/
def execStartIdle (s : State) : Result :=
  .next { send [wireAOk] (clearFrame s) with commState := .waitingInstruction }

/-- `NOISE` (R232), whatever the frame holds. -/
def execNoise (s : State) : Result := .next (diag .idleNoise s)

/-- The diagnostic of a failing header check (R234, spec/60_exceptions.md R280). -/
def framingCode : FramingError → DiagCode
  | .length => .framingLen
  | .start => .framingStart
  | .direction => .framingDir
  | .checksum => .framingChecksum

/-- `HDR_INVALID` (R234). -/
def execHdrInvalid (e : FramingError) (s : State) : Result :=
  .next { raiseError (framingCode e) s with commState := .idle }

/-- `decodeHeader(b)` (spec/30_encoding.md R104, R235). -/
def decodeHeader (d : Direction) (h : HdrFields) : Header where
  direction := d
  valueType := typeOfByte h.typeByte
  form := formOfByte h.formByte
  line := h.line
  offset := h.offset
  packetSize := h.packetSize
  area := h.area
  checksum := h.checksum

/-- `EXPECTED_LEN` and its overflow diagnostic (R237): the announced length `packetSize + 2`, clamped to
the receive capacity. -/
def announceLength (size : U16) (s : State) : State :=
  if rxCap < size.toNat + 2 then raiseError .payloadOverflow { s with expectedLen := rxCap }
  else { s with expectedLen := size.toNat + 2 }

/-- `HDR_SEND` (R236, R237). -/
def execHdrSend (h : HdrFields) (s : State) : Result :=
  let s := { s with hdr := decodeHeader .send h, dir1 := true }
  let s := announceLength s.hdr.packetSize s
  .next { send [wireBOk] s with commState := .waitingData }

/-! ### Response cases -/

/-- The response cases of R244. -/
inductive ResponseCase where
  | status
  | sample (k : Channel)
  | statusCheck
  | voltageList
deriving DecidableEq, Repr, Inhabited

/-- `headerCase()` (R244): the first match in priority order. -/
def headerCase (s : State) : ResponseCase :=
  match s.hlState with
  | .meStatus => .status
  | .meGetSample1 => .sample .ch1
  | .meGetSample2 => .sample .ch2
  | .meGetSample3 => .sample .ch3
  | .none | .sending =>
    if s.pendingCmd = .statusCheck ∧ s.form2 = .listForm then .statusCheck else .voltageList

/-- The size of a voltage list with n active channels (R248): `7n - 1` modulo 2^16, or `2n`. -/
def listSize (t : ValueType) (n : Nat) : U16 :=
  match t with
  | .ascii => BitVec.ofNat 16 (7 * n) - 1
  | .hex => BitVec.ofNat 16 (2 * n)

/-- The area byte of a voltage list (R247). -/
def listArea (s : State) : Byte := if s.sampleIndex = 0 then wireAreaFirst else wireAreaCont

/-- The type byte a value encoding is answered with (R244). -/
def typeByteOf : ValueType → Byte
  | .ascii => wireTypeAscii
  | .hex => wireTypeHex

/-- The form byte a form is answered with (R244). -/
def formByteOf : Form → Byte
  | .variableForm => wireFormVar
  | .listForm => wireFormList

/-- The response header of the present case (R244, R245). -/
def responseHeader (s : State) : List Byte :=
  match headerCase s with
  | .status => buildHeader s.params wireTypeAscii wireFormVar 1 wireAreaFirst
  | .sample _ => buildHeader s.params wireTypeAscii wireFormVar 6 wireAreaFirst
  | .statusCheck => buildHeader s.params wireTypeAscii wireFormList statusCheckSize wireAreaFirst
  | .voltageList =>
    buildHeader s.params (typeByteOf s.hdr.valueType) (formByteOf s.form2)
      (listSize s.hdr.valueType (activeChannels s).length) (listArea s)

/-- `HDR_RECV` (R236, R238). -/
def execHdrRecv (h : HdrFields) (s : State) : Result :=
  let hdr := decodeHeader .recv h
  let s := { s with hdr := hdr, dir2 := true, form2 := hdr.form }
  .next { send (responseHeader s) s with commState := .waitingHeaderAck }

/-! ### WaitingData -/

/-- `DATA` (R239): the command runs, the frame is acknowledged by `DATA_ERR`, and the flag is left
false. -/
def execData (b : List Byte) (s : State) : Result :=
  let s := clearDataError s
  let s := if b.head? = some wireMark then s else raiseDataError .dataNoStart s
  andThen (interpret b s) fun s =>
    .next { clearDataError (send [dataAck s] s) with commState := .idle }

/-! ### Packets -/

/-- Send a packet; an empty payload is reported after it (spec/40_codec.md R147). -/
def sendPacket (payload : List Byte) (s : State) : State :=
  let s := send (buildPacket payload) s
  if packetLenError payload then raiseError .codecLen s else s

/-- `statusByte()` (R257): three queries in order, then the escalation. -/
def statusByte (s : State) : Byte × State :=
  let link := drawConn s
  let sync := drawConn link.2
  let cloud := drawConn sync.2
  (if link.1 && sync.1 && cloud.1 then 0x33
   else if link.1 && sync.1 then 0x32
   else if link.1 then 0x31
   else 0x30, cloud.2)

/-- The status packet (R249, R257). -/
def sendStatus (s : State) : State :=
  let r := statusByte s
  { sendPacket [r.1] r.2 with commState := .waitingPacketAck }

/-- The direct-sample packet of channel k (R249, R261). -/
def sendSample (k : Channel) (s : State) : State :=
  let r := drawAdc k s
  { sendPacket (encodeFixedAscii r.1.toF64) r.2 with commState := .waitingPacketAck }

/-- The status-check packet (R249, R263). -/
def sendStatusCheck (s : State) : State :=
  { sendPacket s.params.statusCheckPayload.toList { s with pendingCmd := .none } with
    commState := .waitingPacketAck }

/-- The real-time tail after the packet: disarm at the count, and wait for its acknowledgement (R251). -/
def realTimeTail (s : State) : State :=
  let s := if s.trigCount.toNat ≤ s.sampleIndex.toNat then disarm s else s
  { s with commState := .waitingPacketAck }

/-- Send a voltage-list packet, count it (R260), and go on as its mode says: the batch loop stays where
it is (R250). -/
def finishList (k : Continuation) (payload : List Byte) (s : State) : State :=
  let s := sendPacket payload s
  let s := { s with sampleIndex := s.sampleIndex + 1 }
  match k with
  | .batchTail => s
  | .realTimeTail => realTimeTail s

/-- The hex payload of the measurements in hand (R259). -/
def hexPayload (s : State) : List Byte :=
  hexList ((activeChannels s).map fun c => rescale12bit (s.lastMeas.get c))

/-- Build and send a voltage list: Ascii from fresh `ADC` reads (R258), Hex from the sample queue, with
a hold when it is empty (R259, R262). -/
def sendList (k : Continuation) (s : State) : State :=
  match s.hdr.valueType with
  | .ascii =>
    let r := readChannels (activeChannels s) s
    finishList k (asciiList r.1) r.2
  | .hex =>
    match s.sq with
    | e :: q =>
      let s := takeSample e q s
      finishList k (hexPayload s) s
    | [] => holdForSample k s

/-- The batch step on B-OK (R250): the terminator when the count is reached, else one more packet. -/
def batchStep (s : State) : State :=
  if s.sampleIndex.zeroExtend 32 = s.trigCount then
    { send s.params.endPacket s with commState := .waitingRoleswap }
  else sendList .batchTail s

/-- `ACK_B_OK_HDR` (R241), whatever follows byte 0. -/
def execAckBOkHdr (s : State) : Result :=
  match headerCase s with
  | .status => .next (sendStatus s)
  | .sample k => .next (sendSample k s)
  | .statusCheck => .next (sendStatusCheck s)
  | .voltageList =>
    match s.trigMode with
    | .batch => .next (batchStep s)
    | .realTime => .next (sendList .realTimeTail s)

/-! ### The other acknowledgements and the roleswap -/

/-- `ACK_B_RETRY` (R242), whatever follows byte 0. -/
def execAckBRetry (s : State) : Result := .next (diag .ackRetryRx s)

/-- `ACK_B_ERROR` (R242), whatever follows byte 0. -/
def execAckBError (s : State) : Result := .next (diag .ackErrorRx s)

/-- `START_RESTART` (R243), whatever follows byte 0. -/
def execStartRestart (s : State) : Result :=
  .next { send [wireAOk] (diag .restart s) with commState := .waitingInstruction }

/-- `ACK_OTHER` (R252), whatever byte 0 and the rest are. -/
def execAckOther (s : State) : Result := .next (raiseError .unexpectedAck s)

/-- `ACK_B_OK_PKT` (R253), whatever follows byte 0. -/
def execAckBOkPkt (s : State) : Result := .next { clearSessionFlags s with commState := .idle }

/-- `ROLESWAP_STEP` (R255, R265), whatever the frame holds. -/
def execRoleswapStep (s : State) : Result :=
  .next (send s.params.roleswapTrailer { clearSessionFlags s with commState := .idle })

/-! ### Dispatch -/

/-- Run a frame row.  The decoder of frames gives frame rows only. -/
def runFrame (i : Instr) (s : State) : Result :=
  match i with
  | .startIdle _ => execStartIdle s
  | .noise _ => execNoise s
  | .hdrSend h => execHdrSend h s
  | .hdrRecv h => execHdrRecv h s
  | .hdrInvalid e _ => execHdrInvalid e s
  | .data b => execData b s
  | .ackBOkHdr _ => execAckBOkHdr s
  | .ackBOkPkt _ => execAckBOkPkt s
  | .ackBRetry _ => execAckBRetry s
  | .ackBError _ => execAckBError s
  | .startRestart _ => execStartRestart s
  | .ackOther _ _ => execAckOther s
  | .roleswapStep _ => execRoleswapStep s
  | .chunkEmpty | .chunkAppendCont _ | .chunkAppendStart _ | .chunkVerbatim _
  | .cmdClear | .cmdChsetup _ _ | .cmdRate _ _ | .cmdStatus | .cmdTrigger | .cmdMode _
  | .metaStatus | .metaSample1 | .metaSample2 | .metaSample3
  | .metaPublish1 _ | .metaPublish2 _ | .metaPublish3 _ | .metaUnknown _ | .cmdUnrecognized _ =>
    .refused .notAFrameRow

/-- The frame is consumed when its handler is done; a held frame is not done (R230, R262). -/
def endFrame (s : State) : State :=
  match s.taskPhase with
  | .ready => clearFrame s
  | .awaitSample => s

/-- `psmStep()` (R230). -/
def psmStep (s : State) : Result :=
  match decodeFrame s.commState s.frame with
  | .ok i => andThen (runFrame i s) fun s => .next (endFrame s)
  | .error _ => .refused .emptyFrame

/-- The held frame goes on with the measurements in hand (R262): its packet, its tail, its end. -/
def finishHeld (s : State) : State :=
  let s := { s with taskPhase := .ready }
  endFrame (finishList s.awaitCtx.cont (hexPayload s) s)

/-- `resumeSample()` (R262): an empty queue times out; otherwise the race is a draw. -/
def resumeSample (s : State) : State :=
  match s.sq with
  | [] => finishHeld (sampleTimeout s)
  | e :: q =>
    let r := drawTimeout s
    if r.1 then finishHeld (sampleTimeout r.2) else finishHeld (takeSample e q r.2)

end Sys2Proof.Machine
end

