-- ==== Sys2Proof/Machine/Reassembler.lean ====
section
/-! DEFINITION. The Frame Reassembler (spec/41_reassembler.md): the meaning of each chunk row. -/

namespace Sys2Proof.Machine

/-- `emit(f)` (R175): the frame is loaded and the PSM step runs in the same `TASK` step. -/
def emitFrame (f : List Byte) (s : State) : Result := psmStep (loadFrame f s)

/-- `CHUNK_EMPTY` (R171): nothing happens. -/
def execChunkEmpty (s : State) : Result := .next s

/-- `CHUNK_APPEND_START` (R172). -/
def execChunkAppendStart (c : List Byte) (s : State) : Result :=
  .next { s with appBuf := memWrite s.appBuf 0 c, appLen := c.length, fraAppending := true }

/-- `CHUNK_VERBATIM` (R173): one frame, cut to the receive capacity. -/
def execChunkVerbatim (c : List Byte) (s : State) : Result := emitFrame (c.take rxCap) s

/-- Append what the header still needs of a chunk; a surplus is reported and lost (R174). -/
def appendChunk (c : List Byte) (s : State) : State :=
  let k := min c.length (hdrLen - s.appLen)
  let s := { s with appBuf := memWrite s.appBuf s.appLen (c.take k), appLen := s.appLen + k }
  if k < c.length then raiseError .appendCapacity s else s

/-- `CHUNK_APPEND_CONT` (R174): at 15 bytes the header is emitted. -/
def execChunkAppendCont (c : List Byte) (s : State) : Result :=
  let s := appendChunk c s
  if s.appLen = hdrLen then
    emitFrame (memRead s.appBuf 0 hdrLen) { s with fraAppending := false, appLen := 0 }
  else .next s

end Sys2Proof.Machine
end

