-- ==== Sys2Proof/Machine/Dispatch.lean ====
section
/-! DEFINITION. `exec`: the meaning of every row of spec/opcode_table.json, one arm per constructor. -/

namespace Sys2Proof.Machine

def exec (i : Instr) (s : State) : Host.Outcome State Fault Refusal :=
  match i with
  | .chunkEmpty => Sys2Proof.Machine.execChunkEmpty s
  | .chunkAppendCont c => Sys2Proof.Machine.execChunkAppendCont c s
  | .chunkAppendStart c => Sys2Proof.Machine.execChunkAppendStart c s
  | .chunkVerbatim c => Sys2Proof.Machine.execChunkVerbatim c s
  | .startIdle _ => Sys2Proof.Machine.execStartIdle s
  | .noise _ => Sys2Proof.Machine.execNoise s
  | .hdrSend h => Sys2Proof.Machine.execHdrSend h s
  | .hdrRecv h => Sys2Proof.Machine.execHdrRecv h s
  | .hdrInvalid e _ => Sys2Proof.Machine.execHdrInvalid e s
  | .data b => Sys2Proof.Machine.execData b s
  | .cmdClear => Sys2Proof.Machine.execCmdClear s
  | .cmdChsetup c op => Sys2Proof.Machine.execCmdChsetup c op s
  | .cmdRate p n => Sys2Proof.Machine.execCmdRate p n s
  | .cmdStatus => Sys2Proof.Machine.execCmdStatus s
  | .cmdTrigger => Sys2Proof.Machine.execCmdTrigger s
  | .cmdMode m => Sys2Proof.Machine.execCmdMode m s
  | .metaStatus => Sys2Proof.Machine.execMetaStatus s
  | .metaSample1 => Sys2Proof.Machine.execMetaSample1 s
  | .metaSample2 => Sys2Proof.Machine.execMetaSample2 s
  | .metaSample3 => Sys2Proof.Machine.execMetaSample3 s
  | .metaPublish1 v => Sys2Proof.Machine.execMetaPublish1 v s
  | .metaPublish2 v => Sys2Proof.Machine.execMetaPublish2 v s
  | .metaPublish3 v => Sys2Proof.Machine.execMetaPublish3 v s
  | .metaUnknown _ => Sys2Proof.Machine.execMetaUnknown s
  | .cmdUnrecognized _ => Sys2Proof.Machine.execCmdUnrecognized s
  | .ackBOkHdr _ => Sys2Proof.Machine.execAckBOkHdr s
  | .ackBOkPkt _ => Sys2Proof.Machine.execAckBOkPkt s
  | .ackBRetry _ => Sys2Proof.Machine.execAckBRetry s
  | .ackBError _ => Sys2Proof.Machine.execAckBError s
  | .startRestart _ => Sys2Proof.Machine.execStartRestart s
  | .ackOther _ _ => Sys2Proof.Machine.execAckOther s
  | .roleswapStep _ => Sys2Proof.Machine.execRoleswapStep s

end Sys2Proof.Machine
end

