-- ==== Sys2Proof/Machine/Step.lean ====
section
/-! DEFINITION. One step of the machine: a tick, the resumption of a held frame, or the next chunk
(spec/20_memory.md R89, R90). -/

namespace Sys2Proof.Machine

/-- One `TASK` step.  A held frame goes on; a ready `TASK` takes the next chunk and runs the row it
selects; with no chunk delivered it waits and nothing changes (log entry 6). -/
def taskStep (s : State) : Result :=
  match s.taskPhase with
  | .awaitSample => .next (resumeSample s)
  | .ready =>
    match s.rx with
    | [] => .next s
    | c :: cs => exec (decodeChunk s.fraAppending c) { s with rx := cs }

/-- One step: a tick if the timer is armed and the draw says so, else a `TASK` step. -/
def step (s : State) : Result :=
  let r := drawTick s
  if r.1 then .next (tick r.2) else taskStep r.2

/-- `s` with the input of a decode key placed so that the next step runs it (log entry 14). -/
def State.withFetchWord (s : State) (nbits w : Nat) : State :=
  match tableInput nbits w with
  | none => s
  | some (src, bytes) => stageInput src bytes s

end Sys2Proof.Machine
end

