-- ==== Sys2Proof/Safety.lean ====
section
/-! DEFINITION. What counts as a safe run, in the terms the statements use: the invariant of the
reachable states, the transition relation of the protocol, the fit of transmitted strings, and the
numbers that digits, decimal texts and bit patterns stand for. -/

namespace Sys2Proof.Machine

/-- All three measurements are finite binary64 values. -/
def measuresFinite (m : Triple F64) : Prop := ∀ c : Channel, f64IsFinite (m.get c) = true

/-- The states a run can be in between two steps. -/
structure State.Inv (s : State) : Prop where
  /-- `APP_LEN` is 0 whenever `FRA_APPENDING` is false (R34) -/
  appendClosed : s.fraAppending = false → s.appLen = 0
  /-- an open append holds 3 to 14 bytes (spec/41_reassembler.md R174) -/
  appendOpen   : s.fraAppending = true → 3 ≤ s.appLen ∧ s.appLen ≤ 14
  /-- an open append began `":N"` or `":R"` (spec/41_reassembler.md R172, R176) -/
  appendHeader : s.fraAppending = true → s.appBuf[0] = wireMark ∧
    (s.appBuf[1] = wireDirSend ∨ s.appBuf[1] = wireDirRecv)
  /-- a ready `TASK` has consumed its frame (spec/43_psm.md R230) -/
  frameConsumed : s.taskPhase = .ready → s.rxLen = 0
  /-- `RX_LEN` is at most 30 (S04) -/
  frameBound   : s.rxLen ≤ 30
  /-- a held frame is a B-OK in `WaitingHeaderAck` on a hex request (spec/43_psm.md R262) -/
  heldFrame    : s.taskPhase = .awaitSample →
    s.commState = .waitingHeaderAck ∧ s.hdr.valueType = .hex ∧ 1 ≤ s.rxLen ∧
    (s.awaitCtx.cont = .batchTail ↔ s.trigMode = .batch)
  /-- between frames `DATA_ERR` is always false (R50) -/
  dataErrClear : s.dataErr = false
  /-- `EXPECTED_LEN` is at most 30 (S14) -/
  expectedBound : s.expectedLen ≤ 30
  /-- `PROCEDURE` stays `None` (R43) -/
  procedureNone : s.procedure = .none
  /-- no rule sets `VoltageList` (R45) -/
  pendingKnown : s.pendingCmd ≠ .voltageList
  /-- the queue is bounded (R56) -/
  queueBound   : s.sq.length ≤ s.params.queueCap
  /-- a queued event holds finite measurements and the status the tick gives it
  (spec/60_exceptions.md R292) -/
  queueEvents  : ∀ e ∈ s.sq, measuresFinite e.measurements ∧ e.status = .ok
  /-- the last measurements are finite (R57) -/
  lastFinite   : measuresFinite s.lastMeas
  /-- the timer is armed with a period of at least 200000 microseconds (spec/42_commands.md R201) -/
  armedPeriod  : s.timerArmed = true → minTriggerPeriodUs ≤ s.timerPeriodUs
  /-- a data frame is awaited after a Send header (spec/43_psm.md R237) -/
  sendSession  : s.commState = .waitingData → s.hdr.direction = .send ∧ s.dir1 = true ∧
    s.expectedLen = min (s.hdr.packetSize.toNat + 2) 30
  /-- an acknowledgement or the roleswap is awaited after a Recv header (spec/43_psm.md R238, R241) -/
  recvSession  : s.commState = .waitingHeaderAck ∨ s.commState = .waitingPacketAck ∨
    s.commState = .waitingRoleswap →
    s.hdr.direction = .recv ∧ s.form2 = s.hdr.form ∧ s.dir2 = true

/-- The next `COMM_STATE` of the table of spec/43_psm.md R266, for a frame `b` in state `s`.  A hex list
that has to hold leaves `COMM_STATE` as it is until it is resumed (R262). -/
def commAfter (s : State) (b : List Byte) : CommState :=
  match s.commState with
  | .idle => if b.contains wireStart then .waitingInstruction else .idle
  | .waitingInstruction =>
    if headerFault b = none then
      if b[1]? = some wireDirSend then .waitingData else .waitingHeaderAck
    else .idle
  | .waitingData => .idle
  | .waitingHeaderAck =>
    if b.head? = some wireBOk then
      if headerCase s ≠ .voltageList then .waitingPacketAck
      else if s.trigMode = .batch ∧ s.sampleIndex.toNat = s.trigCount.toNat then .waitingRoleswap
      else if s.trigMode = .batch ∨ (s.hdr.valueType = .hex ∧ s.sq = []) then .waitingHeaderAck
      else .waitingPacketAck
    else if b.head? = some wireStart then .waitingInstruction
    else .waitingHeaderAck
  | .waitingPacketAck =>
    if b.head? = some wireBOk then .idle
    else if b.head? = some wireStart then .waitingInstruction
    else .waitingPacketAck
  | .waitingRoleswap => .idle

/-- The event is a transmission. -/
def isTx : OutEvent → Bool
  | .tx _ => true
  | .diag _ | .pub _ _ => false

/-- The event, if a transmission, fits a transmit buffer of `cap` bytes. -/
def txFits (cap : Nat) : OutEvent → Bool
  | .tx b => decide (b.length ≤ cap)
  | .diag _ | .pub _ _ => true

/-- The transmit capacity holds the longest frame the rules build and the two strings that are sent as
they stand (spec/43_psm.md R256). -/
def paramsFitTransmit (p : Params) : Prop :=
  22 ≤ p.txCap ∧ p.endPacket.length ≤ p.txCap ∧ p.roleswapTrailer.length ≤ p.txCap

/-! ### Numbers -/

/-- All bytes are ASCII digits, `'0'` to `'9'` (spec/30_encoding.md R111). -/
def AllDigits (ds : List Byte) : Prop := ∀ d ∈ ds, 0x30 ≤ d.toNat ∧ d.toNat ≤ 0x39

/-- The number a run of decimal digits stands for, each digit at its place. -/
def positional : List Byte → Nat
  | [] => 0
  | d :: ds => (d.toNat - 0x30) * 10 ^ ds.length + positional ds

/-- The optional sign `[+-]?` of a number's text, with whether it is `-` (spec/30_encoding.md R111). -/
inductive SignText : List Byte → Bool → Prop where
  | absent : SignText [] false
  | plus : SignText [0x2B] false
  | minus : SignText [0x2D] true

/-- The optional exponent `([eE] [+-]? D+)?` of a decimal text (spec/30_encoding.md R111). -/
inductive ExponentText : List Byte → ℤ → Prop where
  | absent : ExponentText [] 0
  | written (e : Byte) (sg ds : List Byte) (neg : Bool) :
      e = 0x65 ∨ e = 0x45 → SignText sg neg → AllDigits ds → ds ≠ [] →
      ExponentText (e :: sg ++ ds) (if neg then -(positional ds : ℤ) else positional ds)

/-- A text of the grammar `[+-]? D* ("." D* )? ([eE] [+-]? D+)?` with a digit before the exponent, and the
decimal number it stands for (spec/42_commands.md R193). -/
inductive DecimalText : List Byte → ℚ → Prop where
  | whole (sg ws x : List Byte) (neg : Bool) (e : ℤ) :
      SignText sg neg → AllDigits ws → ws ≠ [] → ExponentText x e →
      DecimalText (sg ++ ws ++ x) ((if neg then -1 else 1) * positional ws * 10 ^ e)
  | point (sg ws fs x : List Byte) (neg : Bool) (e : ℤ) :
      SignText sg neg → AllDigits ws → AllDigits fs → ws ++ fs ≠ [] → ExponentText x e →
      DecimalText (sg ++ ws ++ 0x2E :: fs ++ x)
        ((if neg then -1 else 1) * positional (ws ++ fs) * 10 ^ (e - fs.length))

/-- `trunc` of a number: toward zero (spec/00_scope.md R8). -/
def truncToward0 (q : ℚ) : ℤ := if 0 ≤ q then ⌊q⌋ else ⌈q⌉

/-- The number a finite bit pattern of IEEE 754 binary64 stands for (spec/00_scope.md R8): the fraction
over 2^1074 where the exponent field is 0, else the significand with its hidden bit, scaled. -/
def f64Value (v : F64) : ℚ :=
  let expo : ℕ := v.toNat / 2 ^ 52 % 2048
  let frac : ℕ := v.toNat % 2 ^ 52
  (if v.msb then -1 else 1) *
    if expo = 0 then (frac : ℚ) * 2 ^ (-1074 : ℤ)
    else ((2 ^ 52 + frac : ℕ) : ℚ) * 2 ^ ((expo : ℤ) - 1075)

/-- `r` is the binary64 value nearest `q`, ties to even (spec/00_scope.md R8, spec/40_codec.md R151): an
infinity of its sign from half a unit above the largest finite value, else a finite value that no other
is closer than, and one with an even significand where another is as close. -/
def NearestF64 (q : ℚ) (r : F64) : Prop :=
  if |q| < 2 ^ 1024 - 2 ^ 970 then
    f64IsFinite r = true ∧ ∀ y : F64, f64IsFinite y = true →
      |q - f64Value r| ≤ |q - f64Value y| ∧
      (|q - f64Value r| = |q - f64Value y| → f64Value y = f64Value r ∨ r.toNat % 2 = 0)
  else f64IsInf r = true ∧ f64Neg r = decide (q < 0)

end Sys2Proof.Machine
end

