-- ==== Sys2Proof/Certificates/Slice0/Obligations.lean ====
section
/-! DEFINITION. The statements for the provers.  A frame is written by putting the fields a rule writes
back: `{ t with f := s.f } = s` says that `t` differs from `s` in `f` at most. -/

open Sys2Proof Sys2Proof.Machine

/-! ### Encoding and decoding -/

/-- Every well-formed instruction is decoded back from its encoding, wherever its row is decoded
(spec/30_encoding.md R112, R113). -/
def Obligations.EncodedInstructionDecodesBack : Prop :=
  ∀ (i : Instr) (src : Source), i.wf = true → i.admits src = true → decode src (encode i) = .ok i

/-- Encoding a decoded chunk or frame gives its bytes: no bit of the input is dropped. -/
def Obligations.DecodedBytesReencode : Prop :=
  ∀ (src : Source) (b : List Byte) (i : Instr), src ≠ .command → decode src b = .ok i → encode i = b

/-- A decoded chunk or frame is a well-formed instruction of a row that is decoded there. -/
def Obligations.DecodedRowIsWellFormed : Prop :=
  ∀ (src : Source) (b : List Byte) (i : Instr), src ≠ .command →
    (∀ st, src = .frame st → b.length ≤ 30) → decode src b = .ok i →
    i.wf = true ∧ i.admits src = true

/-- Words written out from the formats of spec/30_encoding.md decode to the instructions they stand for:
one of each family. -/
def Obligations.SampleWordsDecode : Prop :=
  decode (.chunk false) [0x3A, 0x4E, 0x41, 0x56] = .ok (.chunkAppendStart [0x3A, 0x4E, 0x41, 0x56]) ∧
  decode (.frame .waitingInstruction)
    [0x3A, 0x4E, 0x41, 0x56, 0x12, 0x34, 0x56, 0x78, 0x9A, 0xBC, 0x00, 0x03, 0xFF, 0x41, 0x6E] =
    .ok (.hdrSend { typeByte := 0x41, formByte := 0x56, line := 0x1234, offset := 0x56789ABC,
                    packetSize := 3, pad := 0xFF, area := 0x41, checksum := 0x6E }) ∧
  decode .command [0x3A, 0x31, 0x2C, 0x31, 0x2C, 0x32, 0x14] = .ok (.cmdChsetup [0x31] [0x32]) ∧
  decode (.frame .waitingHeaderAck) [0x06] = .ok (.ackBOkHdr []) ∧
  decode (.frame .waitingPacketAck) [0x06] = .ok (.ackBOkPkt [])

/-- Dispatch on token 0 (spec/42_commands.md R195): no token or too few are rejected, a `Float` or an
unknown number is the unrecognised command, and with enough tokens the command's row is selected and
the tokens after those it reads are ignored. -/
def Obligations.TokenDispatch : Prop :=
  decodeTokens [] = .error .tokenCount ∧
  (∀ t0 ts, tokIsFloat t0 = true → decodeTokens (t0 :: ts) = .ok (.cmdUnrecognized t0)) ∧
  (∀ t0 ts, tokIsFloat t0 = false → (tokInt t0).toInt ∉ ([0, 1, 3, 7, 8, 12, 2001] : List Int) →
    decodeTokens (t0 :: ts) = .ok (.cmdUnrecognized t0)) ∧
  (∀ t0 ts, tokIsFloat t0 = false →
    ∀ vn ∈ ([(0, 1), (1, 3), (3, 3), (7, 1), (8, 1), (12, 2), (2001, 2)] : List (Int × Nat)),
      (tokInt t0).toInt = vn.1 → (t0 :: ts).length < vn.2 →
      decodeTokens (t0 :: ts) = .error .tokenCount) ∧
  (∀ t0 more, tokIsFloat t0 = false → (tokInt t0).toInt = 0 →
    decodeTokens (t0 :: more) = .ok .cmdClear) ∧
  (∀ t0 t1 t2 more, tokIsFloat t0 = false → (tokInt t0).toInt = 1 →
    decodeTokens (t0 :: t1 :: t2 :: more) = .ok (.cmdChsetup t1 t2)) ∧
  (∀ t0 t1 t2 more, tokIsFloat t0 = false → (tokInt t0).toInt = 3 →
    decodeTokens (t0 :: t1 :: t2 :: more) = .ok (.cmdRate t1 t2)) ∧
  (∀ t0 more, tokIsFloat t0 = false → (tokInt t0).toInt = 7 →
    decodeTokens (t0 :: more) = .ok .cmdStatus) ∧
  (∀ t0 more, tokIsFloat t0 = false → (tokInt t0).toInt = 8 →
    decodeTokens (t0 :: more) = .ok .cmdTrigger) ∧
  (∀ t0 t1 more, tokIsFloat t0 = false → (tokInt t0).toInt = 12 →
    decodeTokens (t0 :: t1 :: more) = .ok (.cmdMode t1)) ∧
  (∀ t0 t1 more, tokIsFloat t0 = false → (tokInt t0).toInt = 2001 →
    decodeTokens (t0 :: t1 :: more) = decodeMeta (t1 :: more))

/-- The selector of command 2001 (spec/42_commands.md R203): its rows, and the publish selectors'
missing value token. -/
def Obligations.MetaSelectorDispatch : Prop :=
  ∀ (t1 : Token) (more : List Token),
    ((intArg t1).toInt = 0 → decodeMeta (t1 :: more) = .ok .metaStatus) ∧
    ((intArg t1).toInt = 1 → decodeMeta (t1 :: more) = .ok .metaSample1) ∧
    ((intArg t1).toInt = 2 → decodeMeta (t1 :: more) = .ok .metaSample2) ∧
    ((intArg t1).toInt = 3 → decodeMeta (t1 :: more) = .ok .metaSample3) ∧
    (21 ≤ (intArg t1).toInt → (intArg t1).toInt ≤ 23 → decodeMeta [t1] = .error .tokenCount) ∧
    (∀ v, (intArg t1).toInt = 21 → decodeMeta (t1 :: v :: more) = .ok (.metaPublish1 v)) ∧
    (∀ v, (intArg t1).toInt = 22 → decodeMeta (t1 :: v :: more) = .ok (.metaPublish2 v)) ∧
    (∀ v, (intArg t1).toInt = 23 → decodeMeta (t1 :: v :: more) = .ok (.metaPublish3 v)) ∧
    ((intArg t1).toInt ∉ ([0, 1, 2, 3, 21, 22, 23] : List Int) →
      decodeMeta (t1 :: more) = .ok (.metaUnknown t1))

/-- Multi-byte header fields are big-endian, read (R104) and transmitted (R107): the rule
spec/20_memory.md R82. -/
def Obligations.HeaderFieldsAreBigEndian : Prop :=
  (∀ b0 b1 t f l1 l0 o3 o2 o1 o0 p1 p0 pad a ck : Byte, ∃ h : HdrFields,
    readHdrFields [b0, b1, t, f, l1, l0, o3, o2, o1, o0, p1, p0, pad, a, ck] = some h ∧
    h.line.toNat = l1.toNat * 256 + l0.toNat ∧
    h.offset.toNat = o3.toNat * 16777216 + o2.toNat * 65536 + o1.toNat * 256 + o0.toNat ∧
    h.packetSize.toNat = p1.toNat * 256 + p0.toNat ∧
    h.typeByte = t ∧ h.formByte = f ∧ h.pad = pad ∧ h.area = a ∧ h.checksum = ck) ∧
  (∀ (p : Params) (t f : Byte) (size : U16) (area : Byte),
    ∃ l1 l0 o3 o2 o1 o0 s1 s0 ck : Byte,
      buildHeader p t f size area =
        [wireMark, p.respDirByte, t, f, l1, l0, o3, o2, o1, o0, s1, s0, wireHdrPad, area, ck] ∧
      p.respLine.toNat = l1.toNat * 256 + l0.toNat ∧
      p.respOffset.toNat =
        o3.toNat * 16777216 + o2.toNat * 65536 + o1.toNat * 256 + o0.toNat ∧
      size.toNat = s1.toNat * 256 + s0.toNat)

/-- Type and form of an accepted header (spec/43_psm.md R235): Hex exactly at byte 2 `'H'`, List exactly
at byte 3 `'L'`, and no value of bytes 2, 3, 12 or 13 makes a header invalid. -/
def Obligations.TypeAndFormReading : Prop :=
  (∀ (b : List Byte) (d : Direction) (h : HdrFields), readHdrFields b = some h →
    ((decodeHeader d h).valueType = .hex ↔ b[2]? = some 0x48) ∧
    ((decodeHeader d h).form = .listForm ↔ b[3]? = some 0x4C)) ∧
  (∀ (b : List Byte) (k : Nat) (x : Byte), headerFault b = none →
    k ∈ ([2, 3, 12, 13] : List Nat) →
    headerFault (withChecksum ((b.set k x).take 14)) = none)

/-! ### Packet codec -/

/-- The checksum (spec/40_codec.md R140): an error below three bytes, else the byte that brings the sum
of the bytes between the first and the last to 0 modulo 256, whatever the last byte holds. -/
def Obligations.ChecksumContract : Prop :=
  ∀ b : List Byte,
    (b.length < 3 → checksum b = none) ∧
    (3 ≤ b.length → ∃ c : Byte, checksum b = some c ∧
      ((((b.drop 1).dropLast.map BitVec.toNat).sum + c.toNat) % 256 = 0) ∧
      ∀ x : Byte, checksum (b.set (b.length - 1) x) = some c)

/-- Checksum verification (spec/40_codec.md R141): false below three bytes, else exactly a zero sum of
the bytes after the first; one changed byte among them is detected, and byte 0 is not covered. -/
def Obligations.VerifyDetectsSingleChange : Prop :=
  ∀ b : List Byte,
    (b.length < 3 → verifyChecksum b = false) ∧
    (3 ≤ b.length →
      (verifyChecksum b = true ↔ ((b.drop 1).map BitVec.toNat).sum % 256 = 0) ∧
      (∀ (k : Nat) (x : Byte), verifyChecksum b = true → 1 ≤ k → k < b.length →
        b[k]? ≠ some x → verifyChecksum (b.set k x) = false) ∧
      (∀ x : Byte, verifyChecksum (b.set 0 x) = verifyChecksum b))

/-- The rendering of a finite value (spec/40_codec.md R142): `-` exactly for a negative value or -0.0,
integer digits without leading zeros, a point, six fraction digits; the digits are those of the multiple
of 10^-6 nearest the magnitude, ties to even.  It has at least eight characters, and the value is encoded
in its first six.  That the rendering is the C `%f` and a binary64 pattern its operand is the
general-knowledge passage of log entry 16. -/
def Obligations.FixedAsciiIsSixCharacters : Prop :=
  ∀ v : F64, f64IsFinite v = true →
    (∃ ws fs : List Byte,
      fmtF v = (if v.msb then [0x2D] else []) ++ ws ++ 0x2E :: fs ∧
      AllDigits ws ∧ ws ≠ [] ∧ (ws.head? = some 0x30 → ws = [0x30]) ∧
      AllDigits fs ∧ fs.length = 6 ∧
      2 * |10 ^ 6 * |f64Value v| - positional (ws ++ fs)| ≤ 1 ∧
      (2 * |10 ^ 6 * |f64Value v| - positional (ws ++ fs)| = 1 → positional (ws ++ fs) % 2 = 0)) ∧
    8 ≤ (fmtF v).length ∧ (encodeFixedAscii v).length = 6 ∧ encodeFixedAscii v = (fmtF v).take 6

/-- The rescaler (spec/40_codec.md R143): 174 to 3975 for every input that is no NaN, clamping at 10 V and
-10 V, and between them the truncated quotient of the formula, each operation and both literals rounded
to the nearest binary64 value; and the f64 operations themselves, each the exact result so rounded
(R151).  That the rounding is to nearest, ties to even, is the general-knowledge passage of log entry
16. -/
def Obligations.RescaleRangeAndClamping : Prop :=
  (∀ x y : F64, f64IsFinite x = true → f64IsFinite y = true →
    NearestF64 (f64Value x + f64Value y) (f64Add x y) ∧
    NearestF64 (f64Value x * f64Value y) (f64Mul x y) ∧
    (f64Value y ≠ 0 → NearestF64 (f64Value x / f64Value y) (f64Div x y))) ∧
  ∀ v : F64, f64IsNaN v = false →
    174 ≤ (rescale12bit v).toNat ∧ (rescale12bit v).toNat ≤ 3975 ∧
    (f64IsInf v = true → (rescale12bit v).toNat = if f64Neg v then 174 else 3975) ∧
    (f64IsInf v = false →
      (10 ≤ f64Value v → rescale12bit v = 3975) ∧ (f64Value v ≤ -10 → rescale12bit v = 174) ∧
      (-10 ≤ f64Value v → f64Value v ≤ 10 →
        ∃ offset span sum product scaled : F64,
          NearestF64 (1092 / 100) offset ∧ NearestF64 (21555 / 1000) span ∧
          NearestF64 (f64Value offset + f64Value v) sum ∧
          NearestF64 (f64Value sum * 4096) product ∧
          NearestF64 (f64Value product / f64Value span) scaled ∧
          ((rescale12bit v).toNat : ℤ) = truncToward0 (f64Value scaled)))

/-- The list payloads (spec/40_codec.md R148, R149): the Ascii list is the encodings of its values in
order, a comma between two of them, and is empty for no value; the hex list is the two bytes of each code
in order, the low byte first (spec/20_memory.md R83); and their lengths. -/
def Obligations.ListPayloadLengths : Prop :=
  asciiList [] = [] ∧
  (∀ v : F64, asciiList [v] = encodeFixedAscii v) ∧
  (∀ (v w : F64) (vs : List F64),
    asciiList (v :: w :: vs) = encodeFixedAscii v ++ 0x2C :: asciiList (w :: vs)) ∧
  (∀ vs : List F64, (∀ v ∈ vs, f64IsFinite v = true) →
    (asciiList vs).length = 7 * vs.length - 1) ∧
  hexList [] = [] ∧
  (∀ ks : List U16, (hexList ks).length = 2 * ks.length) ∧
  (∀ (k : U16) (ks : List U16), ∃ lo hi : Byte,
    hexList (k :: ks) = lo :: hi :: hexList ks ∧ k.toNat = hi.toNat * 256 + lo.toNat)

/-- Built frames: a header is 15 bytes and verifies, a packet with a payload is two bytes longer and
verifies, and an empty packet is `3A 00` (spec/40_codec.md R144, R145, R147). -/
def Obligations.BuiltFramesVerify : Prop :=
  (∀ (p : Params) (t f : Byte) (size : U16) (area : Byte),
    (buildHeader p t f size area).length = 15 ∧ verifyChecksum (buildHeader p t f size area) = true) ∧
  (∀ payload : List Byte, payload ≠ [] →
    ∃ c : Byte, buildPacket payload = 0x3A :: payload ++ [c] ∧
      verifyChecksum (buildPacket payload) = true) ∧
  buildPacket [] = [0x3A, 0x00]

/-! ### Frame reassembler -/

/-- `CHUNK_EMPTY` changes nothing, whether or not an append is open (spec/41_reassembler.md R171). -/
def Obligations.EmptyChunkChangesNothing : Prop :=
  ∀ s : State, decodeChunk s.fraAppending [] = .chunkEmpty ∧ exec .chunkEmpty s = .next s

/-- `CHUNK_APPEND_START` holds the chunk and emits nothing (spec/41_reassembler.md R172). -/
def Obligations.ShortHeaderOpensAppend : Prop :=
  ∀ (c : List Byte) (s : State), 3 ≤ c.length → c.length ≤ 14 →
    ∃ t, exec (.chunkAppendStart c) s = .next t ∧
      t.fraAppending = true ∧ t.appLen = c.length ∧ memRead t.appBuf 0 c.length = c ∧
      { t with fraAppending := s.fraAppending, appLen := s.appLen, appBuf := s.appBuf } = s

/-- `CHUNK_APPEND_CONT` (spec/41_reassembler.md R174): below 15 bytes the chunk is appended and nothing
else happens; at 15 bytes the append is closed, a surplus is reported, and the row that the held bytes
select as a frame runs (R175).  The frame is then consumed (spec/43_psm.md R230), unless the row holds: a
frame held by R262 keeps `RX_LEN`, which is read from the two rules by log entry 17. -/
def Obligations.AppendContinues : Prop :=
  ∀ (c : List Byte) (s : State), c ≠ [] → s.appLen ≤ 14 →
    (s.appLen + c.length < 15 →
      ∃ t, exec (.chunkAppendCont c) s = .next t ∧
        t.appLen = s.appLen + c.length ∧
        memRead t.appBuf 0 t.appLen = memRead s.appBuf 0 s.appLen ++ c ∧
        { t with appLen := s.appLen, appBuf := s.appBuf } = s) ∧
    (15 ≤ s.appLen + c.length →
      ∃ u i t, exec (.chunkAppendCont c) s = .next (endFrame t) ∧
        u.frame = memRead s.appBuf 0 s.appLen ++ c.take (15 - s.appLen) ∧ u.rxLen = 15 ∧
        u.fraAppending = false ∧ u.appLen = 0 ∧
        u.out = s.out ++ (if 15 < s.appLen + c.length then [.diag .appendCapacity] else []) ∧
        { u with fraAppending := s.fraAppending, appLen := s.appLen, appBuf := s.appBuf,
                 rxLen := s.rxLen, rxBuf := s.rxBuf, out := s.out } = s ∧
        decodeFrame s.commState u.frame = .ok i ∧ exec i u = .next t ∧
        endFrame t = { t with rxLen := if t.taskPhase = .ready then 0 else t.rxLen })

/-- `CHUNK_VERBATIM` (spec/41_reassembler.md R173, R175): the chunk, cut to 30 bytes, is the frame; the
row it selects in the present `COMM_STATE` runs, and the frame is consumed (spec/43_psm.md R230) unless
the row holds: a hex list that finds the queue empty (R262) keeps `RX_LEN` and the frame until it is
resumed, which is read from the two rules by log entry 17. -/
def Obligations.VerbatimChunkRunsItsFrame : Prop :=
  ∀ (c : List Byte) (s : State), c ≠ [] →
    ∃ u i t, exec (.chunkVerbatim c) s = .next (endFrame t) ∧
      u.frame = c.take 30 ∧ u.rxLen = min c.length 30 ∧
      { u with rxLen := s.rxLen, rxBuf := s.rxBuf } = s ∧
      decodeFrame s.commState (c.take 30) = .ok i ∧ exec i u = .next t ∧
      endFrame t = { t with rxLen := if t.taskPhase = .ready then 0 else t.rxLen }

/-- A header split after 3 to 14 bytes is reassembled: the first part gives no output, and after the
second the block is where one whole chunk takes it, but for the contents of the append buffer.  A
split after 1 or 2 bytes forwards the first part (spec/41_reassembler.md R177). -/
def Obligations.SplitHeaderReassembles : Prop :=
  ∀ (s : State) (h : List Byte) (j : Nat) (rest : List (List Byte)),
    s.taskPhase = .ready → s.fraAppending = false → h.length = 15 →
    h[0]? = some 0x3A → (h[1]? = some 0x4E ∨ h[1]? = some 0x52) →
    (3 ≤ j → j ≤ 14 → s.rx = h.take j :: h.drop j :: rest →
      ∃ a b c, taskStep s = .next a ∧ a.out = s.out ∧ a.commState = s.commState ∧
        taskStep a = .next b ∧ taskStep { s with rx := h :: rest } = .next c ∧
        b = { c with appBuf := b.appBuf, appLen := 0 }) ∧
    (1 ≤ j → j ≤ 2 → decodeChunk s.fraAppending (h.take j) = .chunkVerbatim (h.take j))

/-! ### Command interpreter -/

/-- `CMD_CLEAR` (spec/42_commands.md R197). -/
def Obligations.ClearCommand : Prop :=
  ∀ s : State, ∃ t, exec .cmdClear s = .next t ∧
    (∀ c : Channel, t.chOp.get c = 0) ∧ t.sampleIndex = 0 ∧
    { t with chOp := s.chOp, sampleIndex := s.sampleIndex } = s

/-- `CMD_CHSETUP` (spec/42_commands.md R198): the channel's code is stored, reported unless it is 2; an
index outside 1..3 is reported and changes nothing. -/
def Obligations.ChannelSetupCommand : Prop :=
  ∀ (chan op : Token) (s : State), ∃ t, exec (.cmdChsetup chan op) s = .next t ∧
    (∀ c : Channel, (intArg chan).toInt = c.index + 1 →
      t.chOp.get c = intArg op ∧ (∀ d : Channel, d ≠ c → t.chOp.get d = s.chOp.get d) ∧
      t.out = s.out ++ (if (intArg op).toInt = 2 then [] else [.diag .unsupportedOp])) ∧
    ((intArg chan).toInt < 1 ∨ 3 < (intArg chan).toInt →
      t.chOp = s.chOp ∧ t.out = s.out ++ [.diag .channelRange]) ∧
    { t with chOp := s.chOp, out := s.out } = s

/-- `CMD_RATE` (spec/42_commands.md R199).  The period of an `Int` token is the exact product in
microseconds, clamped.  An infinite `Float` token gives the bound of its sign; a finite one the product
rounded to the nearest binary64 value, truncated toward zero and clamped, an overflowing product again the
bound of its sign.  That the multiply is binary64, to nearest with ties to even, is the general-knowledge
passage of log entry 16. -/
def Obligations.RateCommand : Prop :=
  ∀ (period count : Token) (s : State), ∃ t, exec (.cmdRate period count) s = .next t ∧
    (tokIsFloat period = false →
      (t.trigPeriodUs.toNat : Int) = min (max ((tokInt period).toInt * 1000000) 0) (2 ^ 32 - 1)) ∧
    (tokIsFloat period = true →
      (f64IsInf (tokFloat period) = true →
        t.trigPeriodUs.toNat = if f64Neg (tokFloat period) then 0 else 2 ^ 32 - 1) ∧
      (f64IsInf (tokFloat period) = false → ∃ m : F64,
        NearestF64 (f64Value (tokFloat period) * 1000000) m ∧
        (f64IsInf m = true → t.trigPeriodUs.toNat = if f64Neg m then 0 else 2 ^ 32 - 1) ∧
        (f64IsInf m = false →
          (t.trigPeriodUs.toNat : Int) =
            min (max (truncToward0 (f64Value m)) 0) (2 ^ 32 - 1)))) ∧
    ((intArg count).toInt = -1 → t.trigCount = 0 ∧ t.trigMode = .realTime) ∧
    ((intArg count).toInt ≠ -1 → t.trigCount = intArg count ∧ t.trigMode = .batch) ∧
    { t with trigPeriodUs := s.trigPeriodUs, trigCount := s.trigCount, trigMode := s.trigMode } = s

/-- `CMD_STATUS` and `CMD_MODE` (spec/42_commands.md R200, R202). -/
def Obligations.StatusAndModeCommands : Prop :=
  (∀ s : State, exec .cmdStatus s = .next { s with pendingCmd := .statusCheck }) ∧
  (∀ (m : Token) (s : State), ∃ t, exec (.cmdMode m) s = .next t ∧
    ((intArg m).toInt = 1 → t.trigMode = .realTime) ∧
    ((intArg m).toInt ≠ 1 → t.trigMode = .batch) ∧
    { t with trigMode := s.trigMode } = s)

/-- `CMD_TRIGGER` (spec/42_commands.md R201): the mask is latched, the timer armed for a period of at
least 200000 microseconds and else left as it is, the counter cleared. -/
def Obligations.TriggerCommand : Prop :=
  ∀ s : State, ∃ t, exec .cmdTrigger s = .next t ∧
    (∀ c : Channel, t.activeMask.getLsbD c.index = (s.chOp.get c != 0)) ∧
    (200000 ≤ s.trigPeriodUs.toNat → t.timerArmed = true ∧ t.timerPeriodUs = s.trigPeriodUs) ∧
    (s.trigPeriodUs.toNat < 200000 →
      t.timerArmed = s.timerArmed ∧ t.timerPeriodUs = s.timerPeriodUs) ∧
    t.sampleIndex = 0 ∧ t.hlState = .sending ∧
    { t with activeMask := s.activeMask, timerArmed := s.timerArmed,
             timerPeriodUs := s.timerPeriodUs, sampleIndex := s.sampleIndex,
             hlState := s.hlState } = s

/-- `META_STATUS` and `META_SAMPLE1` to `META_SAMPLE3` (spec/42_commands.md R204, R205). -/
def Obligations.MetaStateCommands : Prop :=
  ∀ s : State,
    exec .metaStatus s = .next { s with hlState := .meStatus } ∧
    exec .metaSample1 s = .next { s with hlState := .meGetSample1 } ∧
    exec .metaSample2 s = .next { s with hlState := .meGetSample2 } ∧
    exec .metaSample3 s = .next { s with hlState := .meGetSample3 }

/-- `META_PUBLISH1` to `META_PUBLISH3` (spec/42_commands.md R206): one `PUB` call, a diagnostic exactly
when the sink refuses it, and no state change.  That the call is recorded by its channel and token is the
model's choice, log entry 4, and that its answer is taken from a scripted list log entry 7. -/
def Obligations.PublishCommands : Prop :=
  ∀ (v : Token) (s : State),
    ∀ ik ∈ [(Instr.metaPublish1 v, Channel.ch1), (.metaPublish2 v, .ch2), (.metaPublish3 v, .ch3)],
      ∃ (t : State) (r : Bool), exec ik.1 s = .next t ∧
        (∀ p ps, s.pubIn = p :: ps → r = p ∧ t.pubIn = ps ∧ t.freeDraws = s.freeDraws) ∧
        t.out = s.out ++ .pub ik.2 v :: (if r then [] else [.diag .publishDropped]) ∧
        { t with out := s.out, pubIn := s.pubIn, freeDraws := s.freeDraws } = s

/-- `META_UNKNOWN` and `CMD_UNRECOGNIZED` (spec/42_commands.md R207, R208). -/
def Obligations.UnknownCommands : Prop :=
  ∀ (tok : Token) (s : State),
    exec (.metaUnknown tok) s = .next { s with out := s.out ++ [.diag .unrecognizedCmd] } ∧
    exec (.cmdUnrecognized tok) s = .next { s with out := s.out ++ [.diag .unrecognizedCmd] }

/-- Token kind and the value of an `Int` token (spec/42_commands.md R192): kind `Float` exactly with a
point in it; the value is the number of its run of digits, leading zeros or not, with its sign, modulo
2^32, whatever stands after them, and 0 without a digit.  The decimal text the encoder writes is such a
run, for its number. -/
def Obligations.IntTokenValue : Prop :=
  (∀ t : Token, tokIsFloat t = true ↔ 0x2E ∈ t) ∧
  (∀ ds junk : List Byte, AllDigits ds →
    (∀ x, junk.head? = some x → ¬(0x30 ≤ x.toNat ∧ x.toNat ≤ 0x39)) →
    (ds ≠ [] → tokInt (ds ++ junk) = BitVec.ofNat 32 (positional ds)) ∧
    tokInt (0x2B :: ds ++ junk) = BitVec.ofNat 32 (positional ds) ∧
    tokInt (0x2D :: ds ++ junk) = BitVec.ofInt 32 (-positional ds) ∧
    (junk.head? ≠ some 0x2B → junk.head? ≠ some 0x2D → tokInt junk = 0)) ∧
  (∀ n : Nat, AllDigits (decimalText n) ∧ decimalText n ≠ [] ∧ positional (decimalText n) = n)

/-- The value of a `Float` token (spec/42_commands.md R193), and the integer argument (R196).  The longest
prefix that is a decimal text gives the nearest binary64 value, and 0.0 stands for a token without one.
The integer argument is an `Int` token's value, or a `Float` token's value truncated toward zero and
saturated to the i32 range.  That the conversion is correctly rounded to binary64, ties to even, is the
general-knowledge passage of log entry 16. -/
def Obligations.IntegerArgumentSaturates : Prop :=
  ∀ t : Token,
    (∀ (p : List Byte) (q : ℚ), p <+: t → DecimalText p q →
      (∀ (p' : List Byte) (q' : ℚ), p' <+: t → DecimalText p' q' → p'.length ≤ p.length) →
      NearestF64 q (tokFloat t)) ∧
    ((∀ (p : List Byte) (q : ℚ), p <+: t → ¬DecimalText p q) → tokFloat t = 0) ∧
    (tokIsFloat t = false → intArg t = tokInt t) ∧
    (tokIsFloat t = true →
      (f64IsInf (tokFloat t) = true →
        (intArg t).toInt = if f64Neg (tokFloat t) then -2147483648 else 2147483647) ∧
      (f64IsInf (tokFloat t) = false →
        (intArg t).toInt =
          min (max (truncToward0 (f64Value (tokFloat t))) (-2147483648)) 2147483647))

/-- Splitting (spec/42_commands.md R191) and the token capacity (R194). -/
def Obligations.TokenSplitting : Prop :=
  tokensOf [] = [] ∧
  (∀ p : List Byte, (splitCommas p).length = p.count 0x2C + 1 ∧
    joinCommas (splitCommas p) = p ∧ (∀ t ∈ splitCommas p, 0x2C ∉ t)) ∧
  (∀ ts : List Token, ts ≠ [] → (∀ t ∈ ts, 0x2C ∉ t) → splitCommas (joinCommas ts) = ts) ∧
  (∀ p : List Byte, p ≠ [] → tokensOf p = (splitCommas p).take 6 ∧
    (tokensOf p).length = min (p.count 0x2C + 1) 6)

/-- Commands write only the configuration registers, and transmit nothing (spec/42_commands.md R210). -/
def Obligations.CommandsWriteOnlyConfiguration : Prop :=
  ∀ (i : Instr) (s t : State), (commandTokens i).isSome = true → exec i s = .next t →
    (∃ new, t.out = s.out ++ new ∧ ∀ e ∈ new, isTx e = false) ∧
    { t with chOp := s.chOp, sampleIndex := s.sampleIndex, trigPeriodUs := s.trigPeriodUs,
             trigCount := s.trigCount, trigMode := s.trigMode, pendingCmd := s.pendingCmd,
             activeMask := s.activeMask, timerArmed := s.timerArmed,
             timerPeriodUs := s.timerPeriodUs, hlState := s.hlState, pubIn := s.pubIn,
             freeDraws := s.freeDraws, out := s.out } = s

/-! ### Protocol state machine -/

/-- `START_IDLE` and `NOISE` (spec/43_psm.md R231, R232): the start indicator anywhere in the frame
decides. -/
def Obligations.IdleFrames : Prop :=
  ∀ (b : List Byte) (s : State),
    (b ≠ [] → decodeFrame .idle b = .ok (if 0x15 ∈ b then .startIdle b else .noise b)) ∧
    exec (.startIdle b) s =
      .next { s with rxLen := 0, commState := .waitingInstruction, out := s.out ++ [.tx [0x13]] } ∧
    exec (.noise b) s = .next { s with out := s.out ++ [.diag .idleNoise] }

/-- `HDR_SEND` (spec/43_psm.md R236, R237). -/
def Obligations.SendHeader : Prop :=
  ∀ (h : HdrFields) (s : State), ∃ t, exec (.hdrSend h) s = .next t ∧
    t.hdr = { direction := .send
              valueType := if h.typeByte = 0x48 then .hex else .ascii
              form := if h.formByte = 0x4C then .listForm else .variableForm
              line := h.line, offset := h.offset, packetSize := h.packetSize
              area := h.area, checksum := h.checksum } ∧
    t.dir1 = true ∧ t.expectedLen = min (h.packetSize.toNat + 2) 30 ∧
    t.commState = .waitingData ∧
    t.out = s.out ++ (if 28 < h.packetSize.toNat then [.diag .payloadOverflow] else []) ++
      [.tx [0x06]] ∧
    { t with hdr := s.hdr, dir1 := s.dir1, expectedLen := s.expectedLen,
             commState := s.commState, out := s.out } = s

/-- `HDR_RECV` (spec/43_psm.md R236, R238, R244 to R248): the header that answers it, case by case. -/
def Obligations.RecvHeader : Prop :=
  ∀ (h : HdrFields) (s : State), ∃ (t : State) (ty fo : Byte) (size : U16) (area : Byte),
    exec (.hdrRecv h) s = .next t ∧
    t.hdr = { direction := .recv
              valueType := if h.typeByte = 0x48 then .hex else .ascii
              form := if h.formByte = 0x4C then .listForm else .variableForm
              line := h.line, offset := h.offset, packetSize := h.packetSize
              area := h.area, checksum := h.checksum } ∧
    t.dir2 = true ∧ t.form2 = t.hdr.form ∧ t.commState = .waitingHeaderAck ∧
    t.out = s.out ++ [.tx (buildHeader s.params ty fo size area)] ∧
    (s.hlState = .meStatus → ty = 0x41 ∧ fo = 0x56 ∧ size = 1 ∧ area = 0x41) ∧
    (s.hlState = .meGetSample1 ∨ s.hlState = .meGetSample2 ∨ s.hlState = .meGetSample3 →
      ty = 0x41 ∧ fo = 0x56 ∧ size = 6 ∧ area = 0x41) ∧
    (s.hlState = .none ∨ s.hlState = .sending →
      (s.pendingCmd = .statusCheck → h.formByte = 0x4C →
        ty = 0x41 ∧ fo = 0x4C ∧ size = 9 ∧ area = 0x41) ∧
      (s.pendingCmd ≠ .statusCheck ∨ h.formByte ≠ 0x4C →
        ty = (if h.typeByte = 0x48 then 0x48 else 0x41) ∧
        fo = (if h.formByte = 0x4C then 0x4C else 0x56) ∧
        area = (if s.sampleIndex = 0 then 0x41 else 0x4D) ∧
        ∀ n, n = Channel.all.countP (fun c => s.chOp.get c != 0) →
          size.toNat = if h.typeByte = 0x48 then 2 * n else if n = 0 then 0xFFFF else 7 * n - 1)) ∧
    { t with hdr := s.hdr, dir2 := s.dir2, form2 := s.form2, commState := s.commState,
             out := s.out } = s

/-- The header checks of a frame in `WaitingInstruction` (spec/43_psm.md R233): the first failing one
decides, and selects `HDR_INVALID` with it; a frame that passes them all selects the row of its direction,
with its fields.  `HDR_INVALID` (R234) reports the failing check and goes to `Idle`, and nothing else
changes. -/
def Obligations.InvalidHeader : Prop :=
  (∀ b : List Byte,
    (headerFault b = some .length ↔ b.length ≠ 15) ∧
    (headerFault b = some .start ↔ b.length = 15 ∧ b[0]? ≠ some 0x3A) ∧
    (headerFault b = some .direction ↔ b.length = 15 ∧ b[0]? = some 0x3A ∧
      b[1]? ≠ some 0x4E ∧ b[1]? ≠ some 0x52) ∧
    (headerFault b = some .checksum ↔ b.length = 15 ∧ b[0]? = some 0x3A ∧
      (b[1]? = some 0x4E ∨ b[1]? = some 0x52) ∧ verifyChecksum b = false)) ∧
  (∀ (b : List Byte) (e : FramingError), b ≠ [] → headerFault b = some e →
    decodeFrame .waitingInstruction b = .ok (.hdrInvalid e b)) ∧
  (∀ b : List Byte, headerFault b = none → ∃ h : HdrFields, readHdrFields b = some h ∧
    (b[1]? = some 0x4E → decodeFrame .waitingInstruction b = .ok (.hdrSend h)) ∧
    (b[1]? = some 0x52 → decodeFrame .waitingInstruction b = .ok (.hdrRecv h))) ∧
  (∀ (b : List Byte) (s : State),
    exec (.hdrInvalid .length b) s =
      .next { s with commState := .idle, out := s.out ++ [.diag .framingLen] } ∧
    exec (.hdrInvalid .start b) s =
      .next { s with commState := .idle, out := s.out ++ [.diag .framingStart] } ∧
    exec (.hdrInvalid .direction b) s =
      .next { s with commState := .idle, out := s.out ++ [.diag .framingDir] } ∧
    exec (.hdrInvalid .checksum b) s =
      .next { s with commState := .idle, out := s.out ++ [.diag .framingChecksum] })

/-- `DATA` with a command (spec/43_psm.md R239): the command the frame selects runs, a missing mark is
reported first, and the acknowledgement and the way back to `Idle` follow.  The command is that of the
tokens of the text between the first byte and the last (spec/42_commands.md R190): whatever these two are,
`':'` or not (R209), and no text in a frame of at most two bytes. -/
def Obligations.DataFrameRunsItsCommand : Prop :=
  (∀ (a : Byte) (p : List Byte) (z : Byte), payloadText (a :: p ++ [z]) = p) ∧
  (∀ b : List Byte, b.length ≤ 2 → payloadText b = []) ∧
  (∀ b : List Byte, decodeCommand b = decodeTokens (tokensOf (payloadText b))) ∧
  (∀ b : List Byte, b ≠ [] → decodeFrame .waitingData b = .ok (.data b)) ∧
  ∀ (b : List Byte) (s : State) (i : Instr), decodeCommand b = .ok i →
    ∃ u, exec i { s with
        dataErr := decide (b.head? ≠ some 0x3A)
        out := s.out ++ (if b.head? = some 0x3A then [] else [.diag .dataNoStart]) } = .next u ∧
      exec (.data b) s = .next { u with
        dataErr := false
        commState := .idle
        out := u.out ++ [.tx [if b.head? = some 0x3A then 0x06 else 0x22]] }

/-- `DATA` without one (spec/43_psm.md R239, spec/42_commands.md R195): too few tokens are answered
`B_ERROR`, and no register but `COMM_STATE` and the cleared flag changes. -/
def Obligations.ShortCommandIsDataError : Prop :=
  ∀ (b : List Byte) (s : State) (e : DecodeError), decodeCommand b = .error e →
    exec (.data b) s = .next { s with
      dataErr := false
      commState := .idle
      out := s.out ++ (if b.head? = some 0x3A then [] else [.diag .dataNoStart]) ++
        [.diag .dataTokenCount, .tx [0x22]] }

/-- `ACK_B_OK_HDR` (spec/43_psm.md R241): the frame that selects it, when its case is the voltage list
(R244), and what it does in the fixed cases (R249, R257, R261, R263).  That the answers of `CONN` and `ADC`
are taken from scripted lists, and without one from a free value, is the model's choice, log entry 7; that
a reading is finite, log entry 5. -/
def Obligations.FixedResponsePackets : Prop :=
  ∀ (rest : List Byte) (s : State),
    decodeFrame .waitingHeaderAck (0x06 :: rest) = .ok (.ackBOkHdr rest) ∧
    (headerCase s = .voltageList ↔ (s.hlState = .none ∨ s.hlState = .sending) ∧
      (s.pendingCmd ≠ .statusCheck ∨ s.form2 ≠ .listForm)) ∧
    (s.hlState = .meStatus → ∃ (t : State) (link sync cloud : Bool),
      exec (.ackBOkHdr rest) s = .next t ∧
      (∀ l y k more, s.connIn = l :: y :: k :: more →
        link = l ∧ sync = y ∧ cloud = k ∧ t.connIn = more ∧ t.freeDraws = s.freeDraws) ∧
      t.commState = .waitingPacketAck ∧
      t.out = s.out ++ [.tx (buildPacket [if link = false then 0x30 else if sync = false then 0x31
        else if cloud = false then 0x32 else 0x33])] ∧
      { t with commState := s.commState, out := s.out, connIn := s.connIn,
               freeDraws := s.freeDraws } = s) ∧
    (∀ hk ∈ [(HlState.meGetSample1, Channel.ch1), (.meGetSample2, .ch2), (.meGetSample3, .ch3)],
      s.hlState = hk.1 → ∃ (t : State) (v : FiniteF64),
        exec (.ackBOkHdr rest) s = .next t ∧
        (∀ a more, s.adcIn = a :: more → v = a ∧ t.adcIn = more ∧ t.freeDraws = s.freeDraws) ∧
        (s.adcIn = [] → v = Config.adcDraw hk.2 s.freeDraws) ∧
        t.commState = .waitingPacketAck ∧
        t.out = s.out ++ [.tx (buildPacket (encodeFixedAscii v.toF64))] ∧
        { t with commState := s.commState, out := s.out, adcIn := s.adcIn,
                 freeDraws := s.freeDraws } = s) ∧
    (s.hlState = .none ∨ s.hlState = .sending → s.pendingCmd = .statusCheck →
      s.form2 = .listForm →
      exec (.ackBOkHdr rest) s = .next { s with
        pendingCmd := .none
        commState := .waitingPacketAck
        out := s.out ++ [.tx (buildPacket s.params.statusCheckPayload.toList)] })

/-- `ACK_B_OK_HDR` at the end of a batch (spec/43_psm.md R250, R264). -/
def Obligations.BatchEndSendsTerminator : Prop :=
  ∀ (rest : List Byte) (s : State), headerCase s = .voltageList → s.trigMode = .batch →
    s.sampleIndex.toNat = s.trigCount.toNat →
    exec (.ackBOkHdr rest) s = .next { s with
      commState := .waitingRoleswap, out := s.out ++ [.tx s.params.endPacket] }

/-- `ACK_B_OK_HDR` with an Ascii list (spec/43_psm.md R250, R251, R258, R260): one reading for each
active channel, one packet, one more counted; Batch stays, RealTime disarms at the count and goes on.  An
empty list sends `3A 00` and then reports `CODEC_LEN` (spec/40_codec.md R147); that order is read from the
rule's words by log entry 12.  That the readings are taken from a scripted list is the model's choice, log
entry 7, and that they are finite, log entry 5. -/
def Obligations.AsciiListPacket : Prop :=
  ∀ (rest : List Byte) (s : State), headerCase s = .voltageList → s.hdr.valueType = .ascii →
    (s.trigMode = .batch → s.sampleIndex.toNat ≠ s.trigCount.toNat) →
    ∃ (t : State) (vs : List F64),
      exec (.ackBOkHdr rest) s = .next t ∧
      vs.length = Channel.all.countP (fun c => s.chOp.get c != 0) ∧
      (∀ v ∈ vs, f64IsFinite v = true) ∧
      (vs.length ≤ s.adcIn.length → vs = (s.adcIn.take vs.length).map FiniteF64.toF64 ∧
        t.adcIn = s.adcIn.drop vs.length ∧ t.freeDraws = s.freeDraws) ∧
      t.sampleIndex = s.sampleIndex + 1 ∧
      t.out = s.out ++ .tx (buildPacket (asciiList vs)) ::
        (if vs = [] then [.diag .codecLen] else []) ∧
      (s.trigMode = .batch → t.commState = s.commState ∧ t.timerArmed = s.timerArmed) ∧
      (s.trigMode = .realTime → t.commState = .waitingPacketAck ∧
        t.timerArmed = (s.timerArmed && decide (t.sampleIndex.toNat < s.trigCount.toNat))) ∧
      { t with sampleIndex := s.sampleIndex, commState := s.commState,
               timerArmed := s.timerArmed, adcIn := s.adcIn, freeDraws := s.freeDraws,
               out := s.out } = s

/-- `ACK_B_OK_HDR` with a Hex list and a sample in the queue (spec/43_psm.md R250, R251, R259, R262):
the oldest event is taken, and its measurements of the active channels are sent; Batch stays, RealTime
disarms at the count and goes on.  Without an active channel `3A 00` is sent and then `CODEC_LEN` reported
(spec/40_codec.md R147); that order is read from the rule's words by log entry 12. -/
def Obligations.HexListPacket : Prop :=
  ∀ (rest : List Byte) (s : State) (e : SampleEvent) (q : List SampleEvent),
    headerCase s = .voltageList → s.hdr.valueType = .hex →
    (s.trigMode = .batch → s.sampleIndex.toNat ≠ s.trigCount.toNat) → s.sq = e :: q →
    ∃ t, exec (.ackBOkHdr rest) s = .next t ∧
      t.sq = q ∧ t.lastMeas = e.measurements ∧ t.lastStatus = .ok ∧
      t.sampleIndex = s.sampleIndex + 1 ∧
      t.out = s.out ++ .tx (buildPacket (hexList
          ((Channel.all.filter (fun c => s.chOp.get c != 0)).map
            fun c => rescale12bit (e.measurements.get c)))) ::
        (if s.chOp = ⟨0, 0, 0⟩ then [.diag .codecLen] else []) ∧
      (s.trigMode = .batch → t.commState = s.commState ∧ t.timerArmed = s.timerArmed) ∧
      (s.trigMode = .realTime → t.commState = .waitingPacketAck ∧
        t.timerArmed = (s.timerArmed && decide (t.sampleIndex.toNat < s.trigCount.toNat))) ∧
      { t with sq := s.sq, lastMeas := s.lastMeas, lastStatus := s.lastStatus,
               sampleIndex := s.sampleIndex, commState := s.commState,
               timerArmed := s.timerArmed, out := s.out } = s

/-- `ACK_B_OK_HDR` with a Hex list and an empty queue (spec/43_psm.md R262): `TASK` holds, and nothing
but its micro-state changes.  That the held frame keeps its length is read from R230 and R262 by log entry
17. -/
def Obligations.EmptyQueueHolds : Prop :=
  ∀ (rest : List Byte) (s : State), headerCase s = .voltageList → s.hdr.valueType = .hex →
    (s.trigMode = .batch → s.sampleIndex.toNat ≠ s.trigCount.toNat) → s.sq = [] →
    exec (.ackBOkHdr rest) s = .next { s with
      taskPhase := .awaitSample
      awaitCtx := { kind := .hexList
                    cont := if s.trigMode = .batch then .batchTail else .realTimeTail } }

/-- A held frame is resumed and completed (spec/43_psm.md R262): by the oldest event, or by the timeout
with the last measurements; with both possible the draw decides.  Its packet (R259) and its tail (R250,
R251, R260) follow.  That the draw is taken from a scripted list is the model's choice, log entry 7, that
an empty queue forces the timeout log entry 8; that `RX_LEN` becomes 0 only here is read from R230 and R262
by log entry 17, and that `CODEC_LEN` follows the `3A 00` of an empty list from spec/40_codec.md R147 by
log entry 12. -/
def Obligations.HeldFrameResumes : Prop :=
  ∀ s : State, s.taskPhase = .awaitSample →
    ∃ (t : State) (timedOut : Bool), taskStep s = .next t ∧
      (s.sq = [] → timedOut = true) ∧
      (∀ w more, s.sq ≠ [] → s.timeoutIn = w :: more → timedOut = w ∧ t.timeoutIn = more) ∧
      (timedOut = true → t.sq = s.sq ∧ t.lastMeas = s.lastMeas ∧ t.lastStatus = .fail) ∧
      (timedOut = false → ∃ e, s.sq = e :: t.sq ∧ t.lastMeas = e.measurements ∧
        t.lastStatus = .ok) ∧
      t.taskPhase = .ready ∧ t.rxLen = 0 ∧ t.sampleIndex = s.sampleIndex + 1 ∧
      t.out = s.out ++ (if timedOut then [.diag .sampleUnavailable] else []) ++
        .tx (buildPacket (hexList
          ((Channel.all.filter (fun c => s.chOp.get c != 0)).map
            fun c => rescale12bit (t.lastMeas.get c)))) ::
        (if s.chOp = ⟨0, 0, 0⟩ then [.diag .codecLen] else []) ∧
      (s.awaitCtx.cont = .batchTail → t.commState = s.commState ∧ t.timerArmed = s.timerArmed) ∧
      (s.awaitCtx.cont = .realTimeTail → t.commState = .waitingPacketAck ∧
        t.timerArmed = (s.timerArmed && decide (t.sampleIndex.toNat < s.trigCount.toNat))) ∧
      { t with sq := s.sq, lastMeas := s.lastMeas, lastStatus := s.lastStatus,
               taskPhase := s.taskPhase, rxLen := s.rxLen, sampleIndex := s.sampleIndex,
               commState := s.commState, timerArmed := s.timerArmed, timeoutIn := s.timeoutIn,
               freeDraws := s.freeDraws, out := s.out } = s

/-- `ACK_B_RETRY`, `ACK_B_ERROR` (spec/43_psm.md R242) and `ACK_OTHER` (R252), in both ack states: byte 0
selects them, and each is a diagnostic and no state change. -/
def Obligations.AcksThatChangeNothing : Prop :=
  ∀ (b0 : Byte) (rest : List Byte) (s : State),
    (∀ st ∈ [CommState.waitingHeaderAck, .waitingPacketAck],
      decodeFrame st (0x05 :: rest) = .ok (.ackBRetry rest) ∧
      decodeFrame st (0x22 :: rest) = .ok (.ackBError rest) ∧
      (b0 ∉ ([0x06, 0x05, 0x22, 0x15] : List Byte) →
        decodeFrame st (b0 :: rest) = .ok (.ackOther b0 rest))) ∧
    exec (.ackBRetry rest) s = .next { s with out := s.out ++ [.diag .ackRetryRx] } ∧
    exec (.ackBError rest) s = .next { s with out := s.out ++ [.diag .ackErrorRx] } ∧
    exec (.ackOther b0 rest) s = .next { s with out := s.out ++ [.diag .unexpectedAck] }

/-- `START_RESTART`, `ACK_B_OK_PKT` and `ROLESWAP_STEP` (spec/43_psm.md R243, R253, R255): the frames that
select them, and what they do. -/
def Obligations.RestartPacketAckAndRoleswap : Prop :=
  ∀ (b : List Byte) (s : State),
    (∀ st ∈ [CommState.waitingHeaderAck, .waitingPacketAck],
      decodeFrame st (0x15 :: b) = .ok (.startRestart b)) ∧
    exec (.startRestart b) s = .next { s with
      commState := .waitingInstruction, out := s.out ++ [.diag .restart, .tx [0x13]] } ∧
    decodeFrame .waitingPacketAck (0x06 :: b) = .ok (.ackBOkPkt b) ∧
    exec (.ackBOkPkt b) s = .next { s with dir1 := false, dir2 := false, commState := .idle } ∧
    (b ≠ [] → decodeFrame .waitingRoleswap b = .ok (.roleswapStep b)) ∧
    exec (.roleswapStep b) s = .next { s with
      dir1 := false, dir2 := false, commState := .idle
      out := s.out ++ [.tx s.params.roleswapTrailer] }

/-- The transition relation of `COMM_STATE` (spec/43_psm.md R266): every frame in every state is taken
and leads where the table says, but for the hold of R262: a RealTime hex list that finds the queue empty
leaves `WaitingHeaderAck` as it is, and the table's row `WaitingPacketAck` is reached when the held frame
is resumed (`HeldFrameResumes`). -/
def Obligations.CommStateFollowsTable : Prop :=
  ∀ (s : State) (f : List Byte), 1 ≤ f.length → f.length ≤ 30 →
    ∃ t, psmStep (loadFrame f s) = .next t ∧ t.commState = commAfter s f

/-- The size a voltage-list header announces is the length of the payload that follows it
(spec/43_psm.md R248 against R258, R259), with at least one active channel. -/
def Obligations.ListHeaderSizeMatchesPayload : Prop :=
  (∀ vs : List F64, 1 ≤ vs.length → vs.length ≤ 3 → (∀ v ∈ vs, f64IsFinite v = true) →
    (listSize .ascii vs.length).toNat = (asciiList vs).length) ∧
  (∀ s : State, (listSize .hex (activeChannels s).length).toNat = (hexPayload s).length)

/-- A lone 0x15 is a restart only in the two ack states (spec/70_reset_and_hazards.md R334): in
`WaitingInstruction` it fails `FRAMING_LEN`, in `WaitingData` it is a data error; in `Idle` it starts a
transaction without the restart diagnostic (spec/43_psm.md R231), and in `WaitingRoleswap` it is consumed
by the roleswap step (R255). -/
def Obligations.LoneStartByteIsNoRestart : Prop :=
  ∀ (s : State) (more : List (List Byte)), s.taskPhase = .ready → s.fraAppending = false →
    s.rx = [0x15] :: more →
    ∃ t, taskStep s = .next t ∧
      (s.commState = .idle → t.commState = .waitingInstruction ∧
        t.out = s.out ++ [.tx [0x13]]) ∧
      (s.commState = .waitingInstruction → t.commState = .idle ∧
        t.out = s.out ++ [.diag .framingLen]) ∧
      (s.commState = .waitingData → t.commState = .idle ∧
        t.out = s.out ++ [.diag .dataNoStart, .diag .dataTokenCount, .tx [0x22]]) ∧
      (s.commState = .waitingHeaderAck ∨ s.commState = .waitingPacketAck →
        t.commState = .waitingInstruction ∧ t.out = s.out ++ [.diag .restart, .tx [0x13]]) ∧
      (s.commState = .waitingRoleswap → t.commState = .idle ∧
        t.out = s.out ++ [.tx s.params.roleswapTrailer])

/-! ### Timer and queue -/

/-- The tick (spec/60_exceptions.md R292): an active channel is read once, in channel order, an inactive
one is 0.0 and not read; one push; no other register changes and nothing is put out.  Channel c is bit
c - 1 of the mask (spec/10_state.md R52).  That the readings are taken from a scripted list is the model's
choice, log entry 7, and that they are finite, log entry 5. -/
def Obligations.TickPushesMaskedMeasurements : Prop :=
  Channel.all = [.ch1, .ch2, .ch3] ∧ Channel.all.map Channel.index = [0, 1, 2] ∧
  ∀ s : State, ∃ m : Triple F64,
    (tick s).sq = (if s.sq.length < s.params.queueCap
      then s.sq ++ [{ measurements := m, status := .ok }] else s.sq) ∧
    (∀ c : Channel, s.activeMask.getLsbD c.index = false → m.get c = 0) ∧
    (∀ c : Channel, f64IsFinite (m.get c) = true) ∧
    (∀ n, n = Channel.all.countP (fun c => s.activeMask.getLsbD c.index) → n ≤ s.adcIn.length →
      ((Channel.all.filter (fun c => s.activeMask.getLsbD c.index)).map fun c => m.get c) =
        (s.adcIn.take n).map FiniteF64.toF64 ∧
      (tick s).adcIn = s.adcIn.drop n ∧ (tick s).freeDraws = s.freeDraws) ∧
    { tick s with sq := s.sq, adcIn := s.adcIn, freeDraws := s.freeDraws } = s

/-- `qpush` (spec/20_memory.md R87): appended at the tail below the capacity, else dropped in silence. -/
def Obligations.FullQueueDropsNewest : Prop :=
  ∀ (e : SampleEvent) (s : State),
    (s.sq.length < s.params.queueCap → qpush e s = { s with sq := s.sq ++ [e] }) ∧
    (s.params.queueCap ≤ s.sq.length → qpush e s = s)

/-- The queue is a FIFO that only a tick of the armed timer fills (spec/20_memory.md R86, R90): in one
step it is unchanged, or gains one event at its tail, or loses the one at its head.  That a tick is a step
of its own between two steps of `TASK` is read from R90 by log entry 8. -/
def Obligations.QueueIsFifo : Prop :=
  ∀ s t : State, step s = .next t →
    t.sq = s.sq ∨ (s.timerArmed = true ∧ ∃ e, t.sq = s.sq ++ [e]) ∨ (∃ e, s.sq = e :: t.sq)

/-- The tick is taken only while the timer is armed (spec/60_exceptions.md R289, R293), and then where
the draw puts it between two `TASK` steps.  That one step is one agent's and that the draw is taken from a
scripted list is the model's choice, log entries 7 and 8. -/
def Obligations.TickOnlyWhileArmed : Prop :=
  ∀ s : State,
    (s.timerArmed = false → step s = taskStep s) ∧
    (∀ more, s.timerArmed = true → s.tickIn = true :: more →
      step s = .next (tick { s with tickIn := more })) ∧
    (∀ more, s.timerArmed = true → s.tickIn = false :: more →
      step s = taskStep { s with tickIn := more })

/-! ### The whole machine -/

/-- A step of a ready `TASK` takes the next chunk and runs the row it decodes to
(spec/41_reassembler.md R170).  An empty chunk is `CHUNK_EMPTY` (R171); with an append open every other
one continues it (R174); with none open a chunk of 3 to 14 bytes that begins `':' 'N'` or `':' 'R'` opens
one (R172), and every other chunk is a frame as it stands (R173).  The decoder reads a frame by
`COMM_STATE` and a command by its tokens.  With the timer armed the scripted draw says that no tick comes
first: the model's choice, log entries 7 and 8. -/
def Obligations.StepRunsDecodedChunk : Prop :=
  (∀ (a : Bool) (st : CommState) (b : List Byte),
    decode (.chunk a) b = .ok (decodeChunk a b) ∧ decode (.frame st) b = decodeFrame st b ∧
    decode .command b = decodeCommand b) ∧
  (∀ a : Bool, decodeChunk a [] = .chunkEmpty) ∧
  (∀ b : List Byte, b ≠ [] → decodeChunk true b = .chunkAppendCont b) ∧
  (∀ b : List Byte, b ≠ [] →
    (3 ≤ b.length ∧ b.length ≤ 14 ∧ b[0]? = some 0x3A ∧
      (b[1]? = some 0x4E ∨ b[1]? = some 0x52) → decodeChunk false b = .chunkAppendStart b) ∧
    (¬(3 ≤ b.length ∧ b.length ≤ 14 ∧ b[0]? = some 0x3A ∧
      (b[1]? = some 0x4E ∨ b[1]? = some 0x52)) → decodeChunk false b = .chunkVerbatim b)) ∧
  ∀ (s : State) (c : List Byte) (more : List (List Byte)),
    s.taskPhase = .ready → s.rx = c :: more →
    (s.timerArmed = false → ∀ i, decode (.chunk s.fraAppending) c = .ok i →
      step s = exec i { s with rx := more }) ∧
    (∀ ticks, s.timerArmed = true → s.tickIn = false :: ticks →
      ∀ i, decode (.chunk s.fraAppending) c = .ok i →
      step s = exec i { s with rx := more, tickIn := ticks })

/-- There is no crash path: every step of every state answers a next state (spec/00_scope.md R10,
spec/60_exceptions.md R286).  That a ready `TASK` without a chunk waits in a step that changes nothing is
the model's choice, log entry 6, and that a port answers no NaN and no infinity, by the type of its
answers, log entry 5. -/
def Obligations.StepAlwaysAnswersNext : Prop :=
  ∀ s : State, ∃ t, step s = .next t

/-- The invariant of `Safety.lean` holds right after reset. -/
def Obligations.InvariantAtReset : Prop := State.reset.Inv

/-- Every step keeps the invariant of `Safety.lean`.  That a frame is in `RXBUF` exactly while it is held
is read from spec/43_psm.md R230 and R262 by log entry 17, and that the measurements are finite is the
type of the port's answers, log entry 5. -/
def Obligations.InvariantKept : Prop :=
  ∀ s t : State, s.Inv → step s = .next t → t.Inv

/-- The values the spec states for reset (spec/70_reset_and_hazards.md R321). -/
def Obligations.ResetState : Prop :=
  State.reset.commState = .idle ∧ State.reset.fraAppending = false ∧ State.reset.appLen = 0 ∧
  State.reset.rxLen = 0 ∧ State.reset.hlState = .none ∧ State.reset.procedure = .none ∧
  State.reset.sampleIndex = 0 ∧ State.reset.pendingCmd = .none ∧ State.reset.dir1 = false ∧
  State.reset.dir2 = false ∧ State.reset.expectedLen = 0 ∧ State.reset.dataErr = false ∧
  State.reset.chOp = ⟨0, 0, 0⟩ ∧ State.reset.activeMask = 0 ∧ State.reset.trigPeriodUs = 0 ∧
  State.reset.trigCount = 0 ∧ State.reset.trigMode = .realTime ∧ State.reset.timerArmed = false ∧
  State.reset.timerPeriodUs = 0 ∧ State.reset.sq = [] ∧ State.reset.lastMeas = ⟨0, 0, 0⟩ ∧
  State.reset.lastStatus = .ok ∧ State.reset.taskPhase = .ready

/-- No rule changes a parameter (spec/70_reset_and_hazards.md R323), and `PROCEDURE` stays `None` for
ever (spec/10_state.md R43). -/
def Obligations.ParametersAndProcedureFixed : Prop :=
  State.reset.procedure = .none ∧
  ∀ s t : State, step s = .next t → t.params = s.params ∧ t.procedure = s.procedure

/-- The configuration registers change only in a step taken in `WaitingData`, where commands arrive
(spec/10_state.md R51, R52, R54), and no step returns `HL_STATE` to `HL_NONE` (R42). -/
def Obligations.ConfigurationChangesOnlyInWaitingData : Prop :=
  ∀ s t : State, step s = .next t →
    (s.commState ≠ .waitingData →
      t.chOp = s.chOp ∧ t.activeMask = s.activeMask ∧ t.trigPeriodUs = s.trigPeriodUs ∧
      t.trigCount = s.trigCount ∧ t.trigMode = s.trigMode ∧ t.hlState = s.hlState ∧
      t.timerPeriodUs = s.timerPeriodUs) ∧
    (s.hlState ≠ .none → t.hlState ≠ .none)

/-- A step only adds to the outputs, transmits at most one string (spec/70_reset_and_hazards.md R340),
and every string fits the transmit buffer (spec/43_psm.md R256). -/
def Obligations.TransmissionsFitAndAreSingle : Prop :=
  ∀ s t : State, paramsFitTransmit s.params → step s = .next t →
    ∃ new, t.out = s.out ++ new ∧ new.countP isTx ≤ 1 ∧
      ∀ e ∈ new, txFits s.params.txCap e = true
end

