-- ==== Sys2Proof/Laws/Codec.lean ====
section
/-! SUPPORT. The packet codec and the operand forms: sums, checksums, header fields, and the joining and
splitting of tokens. -/

namespace Sys2Proof.Machine

/-! ### Checksums -/

@[simp] theorem byteSum_nil : byteSum [] = 0 := rfl

@[simp] theorem byteSum_cons (x : Byte) (b : List Byte) : byteSum (x :: b) = x + byteSum b := rfl

@[simp] theorem byteSum_append (a b : List Byte) : byteSum (a ++ b) = byteSum a + byteSum b := by
  induction a with
  | nil => simp
  | cons x a ih => simp [ih, BitVec.add_assoc]

/-- The byte sum is the sum of the numbers, modulo 256. -/
theorem byteSum_toNat (b : List Byte) : (byteSum b).toNat = (b.map BitVec.toNat).sum % 256 := by
  induction b with
  | nil => rfl
  | cons x b ih => simp [ih, BitVec.toNat_add]

/-- What the checksum of a frame with a last byte is. -/
theorem checksum_append (body : List Byte) (x : Byte) (h : 2 ≤ body.length) :
    checksum (body ++ [x]) = some (0 - byteSum (body.drop 1)) := by
  have e : checksumRegion (body ++ [x]) = body.drop 1 := by
    unfold checksumRegion
    rw [List.drop_append_of_le_length (by omega), List.dropLast_concat]
  unfold checksum
  rw [if_neg (by simp; omega), e]

/-- A frame closed by `withChecksum` ends in the byte that brings its sum to zero. -/
theorem withChecksum_eq (body : List Byte) (h : 2 ≤ body.length) :
    withChecksum body = body ++ [0 - byteSum (body.drop 1)] := by
  rw [withChecksum, checksum_append body 0 h, Option.getD_some]

/-- A frame closed by `withChecksum` verifies. -/
theorem verifyChecksum_withChecksum (body : List Byte) (h : 2 ≤ body.length) :
    verifyChecksum (withChecksum body) = true := by
  unfold verifyChecksum
  rw [withChecksum_eq body h, checksum_append body _ h]
  simp

/-! ### Header fields -/

/-- The fields of a header frame are read back. -/
theorem readHdrFields_hdrFrame (d : Direction) (h : HdrFields) : readHdrFields (hdrFrame d h) = some h := by
  have e16 : ∀ v : U16, (v.extractLsb' 8 8 ++ v.extractLsb' 0 8 : BitVec 16) = v := by
    intro v
    ext i hi
    simp only [BitVec.getElem_append, BitVec.getElem_extractLsb']
    split_ifs <;> (rw [← BitVec.getLsbD_eq_getElem]; congr 1; omega)
  have e32 : ∀ v : U32, (v.extractLsb' 24 8 ++ v.extractLsb' 16 8 ++ v.extractLsb' 8 8 ++
      v.extractLsb' 0 8 : BitVec 32) = v := by
    intro v
    ext i hi
    simp only [BitVec.getElem_append, BitVec.getElem_extractLsb']
    split_ifs <;> (rw [← BitVec.getLsbD_eq_getElem]; congr 1; omega)
  simp only [hdrFrame, hdrBody, bigEndian16, bigEndian32, List.cons_append, List.nil_append,
    readHdrFields, e16, e32]

/-! ### Tokens -/

theorem splitCommas_ne_nil (p : List Byte) : splitCommas p ≠ [] := by
  induction p with
  | nil => simp [splitCommas]
  | cons x p ih =>
    unfold splitCommas
    split
    · simp
    · split <;> simp

/-- The payload text is what stands between the first byte and the last, whatever these are (R190). -/
theorem payloadText_cons_concat (a : Byte) (p : List Byte) (z : Byte) :
    payloadText (a :: p ++ [z]) = p := by
  simp [payloadText]

/-- A frame of at most two bytes has no payload text (R190). -/
theorem payloadText_short (b : List Byte) (h : b.length ≤ 2) : payloadText b = [] :=
  List.eq_nil_of_length_eq_zero (by simp only [payloadText, List.length_dropLast, List.length_drop]; omega)

/-- The payload text of a closed frame is what stands between its mark and its checksum. -/
theorem payloadText_withChecksum (x : Byte) (p : List Byte) : payloadText (withChecksum (x :: p)) = p := by
  simp [payloadText, withChecksum]

end Sys2Proof.Machine
end

