-- ==== Sys2Proof/Laws/Digits.lean ====
section
/-! SUPPORT. Digits and signs: the number a run of digits stands for, and what the token readers cut off a
text. -/

namespace Sys2Proof.Machine

@[simp] theorem positional_nil : positional [] = 0 := rfl

@[simp] theorem positional_cons (d : Byte) (ds : List Byte) :
    positional (d :: ds) = (d.toNat - 0x30) * 10 ^ ds.length + positional ds := rfl

theorem positional_append (a b : List Byte) :
    positional (a ++ b) = positional a * 10 ^ b.length + positional b := by
  induction a with
  | nil => simp
  | cons x a ih =>
    rw [List.cons_append, positional_cons, positional_cons, ih, List.length_append, pow_add]; ring

/-- The digit loop of the token readers gives the positional value. -/
theorem digitsValue_eq_positional (ds : List Byte) : digitsValue ds = positional ds := by
  have h : ∀ a : ℕ, ds.foldl (fun a d => 10 * a + (d.toNat - 0x30)) a =
      a * 10 ^ ds.length + positional ds := by
    induction ds with
    | nil => simp
    | cons d ds ih =>
      intro a
      rw [List.foldl_cons, ih, positional_cons, List.length_cons, pow_succ]; ring
  rw [digitsValue, h, zero_mul, zero_add]

theorem isDigit_iff (x : Byte) : isDigit x = true ↔ 0x30 ≤ x.toNat ∧ x.toNat ≤ 0x39 := by
  simp [isDigit]

theorem AllDigits.append {a b : List Byte} (ha : AllDigits a) (hb : AllDigits b) : AllDigits (a ++ b) :=
  fun x hx => (List.mem_append.1 hx).elim (ha x) (hb x)

theorem allDigits_takeWhile (t : List Byte) : AllDigits (t.takeWhile isDigit) :=
  fun d hd => (isDigit_iff d).1 (List.mem_takeWhile_imp hd)

/-- A run of digits before a text that begins with none is cut off whole. -/
theorem takeWhile_digits_append (ds junk : List Byte) (h : AllDigits ds)
    (hj : ∀ x, junk.head? = some x → isDigit x = false) :
    (ds ++ junk).takeWhile isDigit = ds ∧ (ds ++ junk).dropWhile isDigit = junk := by
  induction ds with
  | nil =>
    cases junk with
    | nil => simp
    | cons x j => simp [hj x rfl]
  | cons d ds ih =>
    have hd : isDigit d = true := (isDigit_iff d).2 (h d (by simp))
    have := ih fun x hx => h x (by simp [hx])
    simp [hd, this]

/-- A text that begins with no sign is left whole. -/
theorem splitSign_of_no_sign (t : List Byte) (h1 : t.head? ≠ some 0x2B) (h2 : t.head? ≠ some 0x2D) :
    splitSign t = (false, t) := by
  cases t with
  | nil => rfl
  | cons x t =>
    simp only [List.head?_cons, ne_eq, Option.some.injEq] at h1 h2
    unfold splitSign wireMinus wirePlus
    simp only
    rw [if_neg h2, if_neg h1]

/-- An optional sign before a text that begins with none is cut off. -/
theorem splitSign_append {sg : List Byte} {neg : Bool} (h : SignText sg neg) (t : List Byte)
    (h1 : t.head? ≠ some 0x2B) (h2 : t.head? ≠ some 0x2D) : splitSign (sg ++ t) = (neg, t) := by
  cases h
  · exact splitSign_of_no_sign t h1 h2
  · rfl
  · rfl

/-- What `splitSign` cuts off is a sign's text. -/
theorem splitSign_signText (t : List Byte) :
    ∃ sg, SignText sg (splitSign t).1 ∧ t = sg ++ (splitSign t).2 := by
  cases t with
  | nil => exact ⟨[], .absent, rfl⟩
  | cons x t =>
    by_cases h2 : x = 0x2D
    · subst h2; exact ⟨[0x2D], .minus, rfl⟩
    by_cases h1 : x = 0x2B
    · subst h1; exact ⟨[0x2B], .plus, rfl⟩
    rw [splitSign_of_no_sign (x :: t) (by simpa using h1) (by simpa using h2)]
    exact ⟨[], .absent, rfl⟩

end Sys2Proof.Machine
end

