-- ==== Sys2Proof/Laws/Float64.lean ====
section
/-! SUPPORT. Binary64: the rounding of the operations is rounding to nearest, ties to even, of the exact
result, in the numbers of `Safety.lean`. -/

namespace Sys2Proof.Machine

/-- The rounded quotient is the nearest integer, ties to even, without division. -/
theorem roundHalfEven_nearest_int (num den : ℕ) (hd : 0 < den) (k : ℤ) :
    |(num : ℤ) - den * roundHalfEven num den| ≤ |(num : ℤ) - den * k| ∧
    (|(num : ℤ) - den * roundHalfEven num den| = |(num : ℤ) - den * k| →
      k = roundHalfEven num den ∨ roundHalfEven num den % 2 = 0) := by
  have h1 : (num : ℤ) = den * (num / den : ℕ) + (num % den : ℕ) := by
    exact_mod_cast (Nat.div_add_mod num den).symm
  have h2 : num % den < den := Nat.mod_lt _ hd
  have hd' : (0 : ℤ) < den := by exact_mod_cast hd
  unfold roundHalfEven
  simp only
  generalize num / den = q at *
  generalize num % den = r at *
  have key : (k ≤ (q : ℤ) - 1 → (r : ℤ) + den ≤ num - den * k) ∧ ((q : ℤ) + 2 ≤ k → 2 * den - (r : ℤ) ≤ den * k - num) := by
    constructor <;> intro h <;> nlinarith
  have c : k ≤ (q : ℤ) - 1 ∨ k = q ∨ k = q + 1 ∨ (q : ℤ) + 2 ≤ k := by omega
  have e0 : (num : ℤ) - den * q = r := by rw [h1]; ring
  have e1 : (num : ℤ) - den * (q + 1) = r - den := by rw [h1]; ring
  split_ifs with hc
  · push_cast
    rw [e1]
    rcases c with c | c | c | c
    · have := key.1 c; (simp only [Int.abs_eq_natAbs]; exact ⟨by omega, fun h => by omega⟩)
    · subst c; rw [e0]; (simp only [Int.abs_eq_natAbs]; exact ⟨by omega, fun h => by omega⟩)
    · subst c; rw [e1]; (simp only [Int.abs_eq_natAbs]; exact ⟨by omega, fun _ => .inl trivial⟩)
    · have := key.2 c; (simp only [Int.abs_eq_natAbs]; exact ⟨by omega, fun h => by omega⟩)
  · rw [e0]
    rcases c with c | c | c | c
    · have := key.1 c; (simp only [Int.abs_eq_natAbs]; exact ⟨by omega, fun h => by omega⟩)
    · subst c; rw [e0]; (simp only [Int.abs_eq_natAbs]; exact ⟨by omega, fun _ => .inl trivial⟩)
    · subst c; rw [e1]; (simp only [Int.abs_eq_natAbs]; exact ⟨by omega, fun h => by omega⟩)
    · have := key.2 c; (simp only [Int.abs_eq_natAbs]; exact ⟨by omega, fun h => by omega⟩)

/-- The rounded quotient is the nearest integer, ties to even. -/
theorem roundHalfEven_nearest (num den : ℕ) (hd : 0 < den) (k : ℤ) :
    |(num / den : ℚ) - roundHalfEven num den| ≤ |(num / den : ℚ) - k| ∧
    (|(num / den : ℚ) - roundHalfEven num den| = |(num / den : ℚ) - k| →
      k = roundHalfEven num den ∨ roundHalfEven num den % 2 = 0) := by
  have hd' : (0 : ℚ) < den := by exact_mod_cast hd
  have e : ∀ j : ℤ, |(num / den : ℚ) - j| = (|(num : ℤ) - den * j| : ℤ) / den := by
    intro j
    rw [show (num / den : ℚ) - j = ((num : ℤ) - den * j : ℤ) / (den : ℚ) by push_cast; field_simp,
      abs_div, abs_of_pos hd']
    push_cast; rfl
  have h := roundHalfEven_nearest_int num den hd k
  have ej := e (roundHalfEven num den)
  rw [Int.cast_natCast] at ej
  rw [ej, e k, div_le_div_iff_of_pos_right hd', div_left_inj' hd'.ne']
  exact_mod_cast h

/-- The floor of the logarithm, as the powers of two around a fraction. -/
theorem floorLog2_spec (num den : ℕ) (hn : 0 < num) (hd : 0 < den) :
    (2 : ℚ) ^ floorLog2 num den ≤ num / den ∧ (num / den : ℚ) < 2 ^ (floorLog2 num den + 1) := by
  have hd' : (0 : ℚ) < den := by exact_mod_cast hd
  have n1 : (2 : ℚ) ^ (Nat.log2 num) ≤ num := by exact_mod_cast Nat.log2_self_le hn.ne'
  have n2 : (num : ℚ) < 2 ^ (Nat.log2 num + 1) := by exact_mod_cast Nat.lt_log2_self
  have d1 : (2 : ℚ) ^ (Nat.log2 den) ≤ den := by exact_mod_cast Nat.log2_self_le hd.ne'
  have d2 : (den : ℚ) < 2 ^ (Nat.log2 den + 1) := by exact_mod_cast Nat.lt_log2_self
  unfold floorLog2
  simp only
  set g : ℤ := (Nat.log2 num : ℤ) - Nat.log2 den with hg
  have eg : (2 : ℚ) ^ g * 2 ^ (Nat.log2 den) = 2 ^ (Nat.log2 num) := by
    rw [← zpow_natCast, ← zpow_natCast, ← zpow_add₀ (by norm_num)]; congr 1; omega
  have gp : (0 : ℚ) < 2 ^ g := by positivity
  have cond : (den * 2 ^ g.toNat ≤ num * 2 ^ (-g).toNat) ↔ (2 : ℚ) ^ g ≤ num / den := by
    have e2 : (2 : ℚ) ^ g * 2 ^ ((-g).toNat) = 2 ^ g.toNat := by
      rw [← zpow_natCast, ← zpow_natCast, ← zpow_add₀ (by norm_num)]; congr 1; omega
    have hp : (0 : ℚ) < 2 ^ ((-g).toNat) := by positivity
    rw [le_div_iff₀ hd', ← Nat.cast_le (α := ℚ)]
    push_cast
    rw [← e2, show (den : ℚ) * (2 ^ g * 2 ^ ((-g).toNat)) = 2 ^ g * den * 2 ^ ((-g).toNat) by ring,
      mul_le_mul_iff_left₀ hp]
  have up : (num / den : ℚ) < 2 ^ (g + 1) := by
    rw [div_lt_iff₀ hd', zpow_add₀ (by norm_num), zpow_one]
    rw [pow_succ] at n2
    nlinarith
  have lo : (2 : ℚ) ^ (g - 1) ≤ num / den := by
    rw [le_div_iff₀ hd', zpow_sub₀ (by norm_num), zpow_one]
    rw [pow_succ] at d2
    nlinarith
  split_ifs with h
  · exact ⟨cond.1 h, up⟩
  · rw [cond] at h
    exact ⟨lo, by rw [sub_add_cancel]; exact not_le.1 h⟩

/-- The value by sign, significand and exponent. -/
theorem f64Value_eq (v : F64) :
    f64Value v = (if f64Neg v then -1 else 1) *
      ((f64Mant v : ℚ) * 2 ^ ((max (f64Expo v) 1 : ℕ) - 1075 : ℤ)) := by
  unfold f64Value f64Mant f64Neg
  change (if v.msb then (-1 : ℚ) else 1) * (if f64Expo v = 0 then (f64Frac v : ℚ) * 2 ^ (-1074 : ℤ)
    else ((2 ^ 52 + f64Frac v : ℕ) : ℚ) * 2 ^ ((f64Expo v : ℤ) - 1075)) = _
  congr 1
  split_ifs with h
  · rw [h]; norm_num
  · rw [max_eq_left (by omega)]

theorem f64Mant_lt (v : F64) : f64Mant v < 2 ^ 53 := by
  have : f64Frac v < 2 ^ 52 := Nat.mod_lt _ (by norm_num)
  unfold f64Mant; split_ifs <;> omega

theorem f64Den_pos (v : F64) : 0 < f64Den v := by unfold f64Den; positivity

/-- The exact fraction the operations compute with is the value. -/
theorem f64SNum_div_den (v : F64) : (f64SNum v : ℚ) / f64Den v = f64Value v := by
  have e : (f64Num v : ℚ) / f64Den v = f64Mant v * 2 ^ ((max (f64Expo v) 1 : ℕ) - 1075 : ℤ) := by
    unfold f64Num f64Den
    generalize max (f64Expo v) 1 = n
    have p : (2 : ℚ) ^ (n - 1075) / 2 ^ (1075 - n) = 2 ^ ((n : ℤ) - 1075) := by
      rw [← zpow_natCast, ← zpow_natCast, ← zpow_sub₀ (by norm_num),
        show ((n - 1075 : ℕ) : ℤ) - ((1075 - n : ℕ) : ℤ) = (n : ℤ) - 1075 by omega]
    rw [Nat.cast_mul, Nat.cast_pow, Nat.cast_pow, Nat.cast_ofNat, mul_div_assoc, p]
  rw [f64Value_eq, ← e]
  unfold f64SNum
  split_ifs
  · rw [Int.cast_neg, Int.cast_natCast, neg_div, neg_one_mul]
  · rw [Int.cast_natCast, one_mul]

/-- The magnitude the operations compute with. -/
theorem abs_f64Value (v : F64) : |f64Value v| = (f64Num v : ℚ) / f64Den v := by
  have hd : (0 : ℚ) < f64Den v := by exact_mod_cast f64Den_pos v
  rw [← f64SNum_div_den, abs_div, abs_of_pos hd]
  unfold f64SNum
  split_ifs
  · rw [Int.cast_neg, Int.cast_natCast, abs_neg, Nat.abs_cast]
  · rw [Int.cast_natCast, Nat.abs_cast]

/-- On the grid of exponent field `E` every value is a multiple of the unit, or below the normal range. -/
theorem f64Value_grid (v : F64) (E : ℕ) (hE : 1 ≤ E) :
    (∃ k : ℤ, f64Value v = k * 2 ^ ((E : ℤ) - 1075)) ∨
      (2 ≤ E ∧ |f64Value v| < 2 ^ 52 * 2 ^ ((E : ℤ) - 1075)) := by
  rw [f64Value_eq]
  have hm := f64Mant_lt v
  have he : 1 ≤ max (f64Expo v) 1 := le_max_right _ _
  generalize f64Mant v = m at *
  generalize max (f64Expo v) 1 = n at *
  by_cases h : E ≤ n
  · left
    refine ⟨(if f64Neg v then -1 else 1) * (m * 2 ^ (n - E)), ?_⟩
    have : (2 : ℚ) ^ ((n : ℤ) - 1075) = 2 ^ (n - E) * 2 ^ ((E : ℤ) - 1075) := by
      rw [← zpow_natCast, ← zpow_add₀ (by norm_num)]; congr 1; omega
    rw [this]
    split_ifs <;> push_cast <;> ring
  · right
    refine ⟨by omega, ?_⟩
    have hs : |(if f64Neg v then (-1 : ℚ) else 1)| = 1 := by split_ifs <;> simp
    have hp : (0 : ℚ) < 2 ^ ((n : ℤ) - 1075) := by positivity
    rw [abs_mul, hs, one_mul, abs_of_nonneg (by positivity)]
    have h2 : (2 : ℚ) ^ ((n : ℤ) - 1075) * 2 ≤ 2 ^ ((E : ℤ) - 1075) := by
      rw [← zpow_add_one₀ (by norm_num)]
      exact zpow_le_zpow_right₀ (by norm_num) (by omega)
    have hm' : (m : ℚ) < 2 ^ 53 := by exact_mod_cast hm
    nlinarith

/-- The fields of a pattern put together from a sign and the bits below it. -/
theorem ofNat_fields (neg : Bool) (bits : ℕ) (h : bits < 2 ^ 63) :
    (BitVec.ofNat 64 (neg.toNat * 2 ^ 63 + bits)).toNat = neg.toNat * 2 ^ 63 + bits ∧
    f64Neg (BitVec.ofNat 64 (neg.toNat * 2 ^ 63 + bits)) = neg ∧
    f64Expo (BitVec.ofNat 64 (neg.toNat * 2 ^ 63 + bits)) = bits / 2 ^ 52 ∧
    f64Frac (BitVec.ofNat 64 (neg.toNat * 2 ^ 63 + bits)) = bits % 2 ^ 52 := by
  have e : (BitVec.ofNat 64 (neg.toNat * 2 ^ 63 + bits)).toNat = neg.toNat * 2 ^ 63 + bits := by
    rw [BitVec.toNat_ofNat]; apply Nat.mod_eq_of_lt
    cases neg <;> simp <;> omega
  refine ⟨e, ?_, ?_, ?_⟩
  · unfold f64Neg; rw [BitVec.msb_eq_decide, e]
    cases neg <;> simp only [Bool.toNat_true, Bool.toNat_false, decide_eq_true_eq,
      decide_eq_false_iff_not] <;> omega
  · unfold f64Expo; rw [e]; cases neg <;> simp only [Bool.toNat_true, Bool.toNat_false] <;> omega
  · unfold f64Frac; rw [e]; cases neg <;> simp only [Bool.toNat_true, Bool.toNat_false] <;> omega

/-- The value of a pattern written as a significand on the grid of an exponent field. -/
theorem f64Value_ofNat (neg : Bool) (E q : ℕ) (hE : 1 ≤ E) (hq : q ≤ 2 ^ 53)
    (hn : E = 1 ∨ 2 ^ 52 ≤ q) (hb : (E - 1) * 2 ^ 52 + q < 2 ^ 63) :
    f64Value (BitVec.ofNat 64 (neg.toNat * 2 ^ 63 + ((E - 1) * 2 ^ 52 + q))) =
      (if neg then -1 else 1) * (q * 2 ^ ((E : ℤ) - 1075)) := by
  obtain ⟨-, e1, e2, e3⟩ := ofNat_fields neg _ hb
  rw [f64Value_eq, e1]
  congr 1
  unfold f64Mant
  rw [e2, e3]
  rcases Nat.lt_or_ge q (2 ^ 52) with h | h
  · obtain rfl : E = 1 := by omega
    simp only [Nat.sub_self, zero_mul, zero_add]
    rw [Nat.div_eq_of_lt h, Nat.mod_eq_of_lt h]; simp
  rcases Nat.lt_or_ge q (2 ^ 53) with h' | h'
  · have d : ((E - 1) * 2 ^ 52 + q) / 2 ^ 52 = E := by omega
    have m : ((E - 1) * 2 ^ 52 + q) % 2 ^ 52 = q - 2 ^ 52 := by omega
    rw [d, m, if_neg (by omega), max_eq_left hE, Nat.add_sub_cancel' h]
  · have d : ((E - 1) * 2 ^ 52 + q) / 2 ^ 52 = E + 1 := by omega
    have m : ((E - 1) * 2 ^ 52 + q) % 2 ^ 52 = 0 := by omega
    obtain rfl : q = 2 ^ 53 := by omega
    rw [d, m, if_neg (by omega), max_eq_left (by omega)]
    push_cast
    rw [show ((E : ℤ) + 1 - 1075) = (E - 1075) + 1 by ring, zpow_add_one₀ (by norm_num)]
    ring

theorem f64Value_zero (neg : Bool) : f64Value (f64Zero neg) = 0 := by
  have h := f64Value_ofNat neg 1 0 le_rfl (by norm_num) (.inl rfl) (by norm_num)
  simpa [f64Zero] using h

theorem f64IsFinite_zero (neg : Bool) : f64IsFinite (f64Zero neg) = true := by
  obtain ⟨-, -, e, -⟩ := ofNat_fields neg 0 (by norm_num)
  simp only [Nat.add_zero, Nat.zero_div] at e
  unfold f64IsFinite f64Zero
  rw [e]; rfl

/-- An infinity is one, of its sign. -/
theorem f64Inf_fields (neg : Bool) : f64IsInf (f64Inf neg) = true ∧ f64Neg (f64Inf neg) = neg := by
  obtain ⟨-, n, e, f⟩ := ofNat_fields neg (2047 * 2 ^ 52) (by norm_num)
  refine ⟨?_, n⟩
  unfold f64IsInf f64Inf
  rw [e, f]; rfl

/-- The overflow threshold in units of half the last place of the largest values. -/
theorem f64_threshold : (2 : ℚ) ^ 1024 - 2 ^ 970 = (2 ^ 54 - 1) * 2 ^ 970 := by
  rw [sub_mul, one_mul, ← pow_add]

/-- A magnitude on the grid of an exponent field, rounded there, is the nearest value. -/
theorem nearestF64_grid (neg : Bool) (x : ℚ) (E q : ℕ) (hE : 1 ≤ E) (hx : 0 ≤ x)
    (hn : E = 1 ∨ 2 ^ 52 ≤ x) (hx' : x < 2 ^ 53)
    (hr : ∀ k : ℤ, |x - q| ≤ |x - k| ∧ (|x - q| = |x - k| → k = q ∨ q % 2 = 0)) :
    NearestF64 ((if neg then -1 else 1) * (x * 2 ^ ((E : ℤ) - 1075)))
      (if 2047 * 2 ^ 52 ≤ (E - 1) * 2 ^ 52 + q then f64Inf neg
       else BitVec.ofNat 64 (neg.toNat * 2 ^ 63 + ((E - 1) * 2 ^ 52 + q))) := by
  set s : ℚ := if neg then -1 else 1 with hs
  have s2 : s * s = 1 := by rw [hs]; split_ifs <;> norm_num
  have sabs : |s| = 1 := by rw [hs]; split_ifs <;> norm_num
  set u : ℚ := 2 ^ ((E : ℤ) - 1075) with hu
  have up : 0 < u := by positivity
  -- the rounded significand stays in its binade
  have qle : q ≤ 2 ^ 53 := by
    by_contra h
    have h1 := (hr (2 ^ 53)).1
    have hq : (2 ^ 53 + 1 : ℚ) ≤ q := by exact_mod_cast (by omega : 2 ^ 53 + 1 ≤ q)
    rw [abs_of_nonpos (by linarith), abs_of_nonpos (by push_cast; linarith)] at h1
    push_cast at h1; linarith
  have qge : E = 1 ∨ 2 ^ 52 ≤ q := by
    refine hn.imp_right fun h => ?_
    by_contra hq
    have h1 := (hr (2 ^ 52)).1
    have hq' : (q + 1 : ℚ) ≤ 2 ^ 52 := by exact_mod_cast (by omega : q + 1 ≤ 2 ^ 52)
    rw [abs_of_nonneg (by linarith), abs_of_nonneg (by push_cast; linarith)] at h1
    push_cast at h1; linarith
  have absq : |s * (x * u)| = x * u := by
    rw [abs_mul, sabs, one_mul, abs_of_nonneg (by positivity)]
  unfold NearestF64
  rw [absq]
  -- overflow happens exactly from the threshold on
  have ovf : x * u < 2 ^ 1024 - 2 ^ 970 ↔ ¬ 2047 * 2 ^ 52 ≤ (E - 1) * 2 ^ 52 + q := by
    have t0 : (0 : ℚ) < 2 ^ 970 := by positivity
    rw [f64_threshold]
    rcases Nat.lt_trichotomy E 2046 with h | h | h
    · have hu' : u ≤ 2 ^ 970 := by
        rw [hu, ← zpow_natCast]; exact zpow_le_zpow_right₀ (by norm_num) (by omega)
      refine iff_of_true ?_ (by omega)
      have : x * u ≤ 2 ^ 53 * 2 ^ 970 := mul_le_mul hx'.le hu' up.le (by positivity)
      refine this.trans_lt ?_
      rw [mul_lt_mul_iff_left₀ t0]; norm_num
    · subst h
      have hu' : u = 2 * 2 ^ 970 := by
        rw [hu, ← pow_succ', ← zpow_natCast]; norm_num
      rw [hu', ← mul_assoc, mul_lt_mul_iff_left₀ t0]
      have h53 := hr 9007199254740992
      have h52 := hr 9007199254740991
      push_cast at h53 h52
      constructor
      · intro h hb
        obtain rfl : q = 2 ^ 53 := by omega
        have h1 := h52.1
        push_cast at h1
        rw [abs_of_nonpos (by linarith)] at h1
        rcases abs_cases (x - 9007199254740991) with e | e <;> linarith
      · intro hb
        by_contra hx2
        have : (q : ℚ) ≤ 9007199254740991 := by
          exact_mod_cast (by omega : q ≤ 9007199254740991)
        rw [abs_of_nonneg (a := x - q) (by linarith),
          abs_of_nonpos (a := x - 9007199254740992) (by linarith)] at h53
        have hqe : (q : ℚ) = 9007199254740991 := by linarith
        have hqn : q = 9007199254740991 := by exact_mod_cast hqe
        rcases h53.2 (by linarith) with h | h <;> omega
    · refine iff_of_false ?_ (by omega)
      have hu' : (2 : ℚ) ^ 2 * 2 ^ 970 ≤ u := by
        rw [hu, ← pow_add, ← zpow_natCast]; exact zpow_le_zpow_right₀ (by norm_num) (by omega)
      have hx2 : (2 : ℚ) ^ 52 ≤ x := hn.resolve_left (by omega)
      have : (2 : ℚ) ^ 52 * (2 ^ 2 * 2 ^ 970) ≤ x * u := mul_le_mul hx2 hu' (by positivity) hx
      rw [not_lt]
      refine le_trans ?_ this
      rw [← mul_assoc, mul_le_mul_iff_left₀ t0]; norm_num
  by_cases hb : 2047 * 2 ^ 52 ≤ (E - 1) * 2 ^ 52 + q
  · rw [if_neg (by rw [ovf]; exact not_not.2 hb), if_pos hb]
    refine ⟨(f64Inf_fields neg).1, ?_⟩
    rw [(f64Inf_fields neg).2]
    have pos : 0 < x * u := by
      have := ovf.not.2 (not_not.2 hb)
      have t : (0 : ℚ) < 2 ^ 1024 - 2 ^ 970 := by
        rw [f64_threshold]; exact mul_pos (by norm_num) (by positivity)
      exact t.trans_le (not_lt.1 this)
    rw [hs]
    cases neg
    · simp [pos.le]
    · simp [pos]
  · rw [if_pos (ovf.2 hb), if_neg hb]
    have hb' : (E - 1) * 2 ^ 52 + q < 2 ^ 63 := by omega
    have hv := f64Value_ofNat neg E q hE qle qge hb'
    obtain ⟨hn', -, he, -⟩ := ofNat_fields neg _ hb'
    rw [← hs, ← hu] at hv
    refine ⟨?_, fun y _ => ?_⟩
    · unfold f64IsFinite; rw [he]; simp; omega
    · have dist : |s * (x * u) - s * (q * u)| = |x - q| * u := by
        rw [← mul_sub, ← sub_mul, abs_mul, abs_mul, sabs, one_mul, abs_of_pos up]
      rw [hv, dist]
      have par : (BitVec.ofNat 64 (neg.toNat * 2 ^ 63 + ((E - 1) * 2 ^ 52 + q))).toNat % 2 = q % 2 := by
        rw [hn']; cases neg <;> simp only [Bool.toNat_true, Bool.toNat_false] <;> omega
      rw [par]
      rcases f64Value_grid y E hE with ⟨k, hk⟩ | ⟨hE2, hlt⟩
      · -- a multiple of the unit
        have hk' : ∃ j : ℤ, f64Value y = s * (j * u) := by
          refine ⟨if neg then -k else k, ?_⟩
          rw [hk, hs]; split_ifs <;> push_cast <;> ring
        obtain ⟨j, hj⟩ := hk'
        have dj : |s * (x * u) - s * (j * u)| = |x - j| * u := by
          rw [← mul_sub, ← sub_mul, abs_mul, abs_mul, sabs, one_mul, abs_of_pos up]
        rw [hj, dj, mul_le_mul_iff_left₀ up, mul_left_inj' up.ne']
        refine ⟨(hr j).1, fun h => ((hr j).2 h).imp_left fun e => ?_⟩
        rw [e, Int.cast_natCast]
      · -- below the binade of `x`
        have hx2 : (2 : ℚ) ^ 52 ≤ x := hn.resolve_left (by omega)
        have h1 : |x - q| ≤ x - 2 ^ 52 := by
          have h := (hr 4503599627370496).1
          push_cast at h
          rw [abs_of_nonneg (a := x - 4503599627370496) (by linarith)] at h
          linarith
        have far : (x - 2 ^ 52) * u < |s * (x * u) - f64Value y| := by
          have : |s * (x * u)| - |f64Value y| ≤ |s * (x * u) - f64Value y| := abs_sub_abs_le_abs_sub _ _
          rw [absq] at this
          linarith
        have near : |x - q| * u ≤ (x - 2 ^ 52) * u := by gcongr
        exact ⟨by linarith, fun h => absurd h (by linarith)⟩

/-- A magnitude below half the smallest value rounds to zero. -/
theorem nearestF64_tiny (neg : Bool) (q : ℚ) (h : |q| < 2 ^ (-1075 : ℤ)) : NearestF64 q (f64Zero neg) := by
  have u2 : (2 : ℚ) ^ (-1074 : ℤ) = 2 * 2 ^ (-1075 : ℤ) := by
    rw [← zpow_one_add₀ (by norm_num)]; norm_num
  have up : (0 : ℚ) < 2 ^ (-1075 : ℤ) := by positivity
  have small : (2 : ℚ) ^ (-1075 : ℤ) ≤ 1 := zpow_le_one_of_nonpos₀ (by norm_num) (by norm_num)
  have big : (1 : ℚ) ≤ 2 ^ 1024 - 2 ^ 970 := by
    rw [f64_threshold]
    exact one_le_mul_of_one_le_of_one_le (by norm_num) (one_le_pow₀ (by norm_num))
  unfold NearestF64
  rw [if_pos (h.trans_le (small.trans big))]
  refine ⟨f64IsFinite_zero neg, fun y _ => ?_⟩
  rw [f64Value_zero, sub_zero]
  rcases f64Value_grid y 1 le_rfl with ⟨k, hk⟩ | ⟨h2, -⟩
  · by_cases k0 : k = 0
    · simp [hk, k0]
    have hk1 : (1 : ℚ) ≤ |(k : ℚ)| := by exact_mod_cast Int.one_le_abs k0
    have hy : 2 * 2 ^ (-1075 : ℤ) ≤ |f64Value y| := by
      rw [hk, show ((1 : ℕ) : ℤ) - 1075 = -1074 by norm_num, abs_mul, abs_of_pos (a := (2 : ℚ) ^ (-1074 : ℤ)) (by positivity), u2]
      nlinarith
    have tri := abs_sub_abs_le_abs_sub (f64Value y) q
    rw [abs_sub_comm] at tri
    exact ⟨by linarith, fun e => absurd e (by linarith)⟩
  · omega

/-- `f64Round` is rounding to nearest, ties to even. -/
theorem f64Round_nearest (neg : Bool) (num den : ℕ) (hd : 0 < den) :
    NearestF64 ((if neg then -1 else 1) * (num / den)) (f64Round neg num den) := by
  unfold f64Round
  rcases Nat.eq_zero_or_pos num with h0 | hn
  · rw [if_pos h0, h0, Nat.cast_zero, zero_div, mul_zero]
    exact nearestF64_tiny neg 0 (by rw [abs_zero]; positivity)
  rw [if_neg hn.ne']
  obtain ⟨lo, hi⟩ := floorLog2_spec num den hn hd
  dsimp only
  have he : (max (floorLog2 num den + 1023).toNat 1 = 1 ∨
      ((max (floorLog2 num den + 1023).toNat 1 : ℕ) : ℤ) = floorLog2 num den + 1023) ∧
      floorLog2 num den + 1023 ≤ (max (floorLog2 num den + 1023).toNat 1 : ℕ) ∧
      1 ≤ max (floorLog2 num den + 1023).toNat 1 := by omega
  generalize max (floorLog2 num den + 1023).toNat 1 = e at *
  generalize floorLog2 num den = g at *
  obtain ⟨e1, e2, e3⟩ := he
  have hd' : (den : ℚ) ≠ 0 := by exact_mod_cast hd.ne'
  have p : (2 : ℚ) ^ (1075 - e) / 2 ^ (e - 1075) * 2 ^ ((e : ℤ) - 1075) = 1 := by
    rw [← zpow_natCast, ← zpow_natCast, ← zpow_sub₀ (by norm_num), ← zpow_add₀ (by norm_num),
      show ((1075 - e : ℕ) : ℤ) - ((e - 1075 : ℕ) : ℤ) + ((e : ℤ) - 1075) = 0 by omega, zpow_zero]
  set x : ℚ := ((num * 2 ^ (1075 - e) : ℕ) : ℚ) / ((den * 2 ^ (e - 1075) : ℕ) : ℚ) with hx
  have up : (0 : ℚ) < 2 ^ ((e : ℤ) - 1075) := by positivity
  have xu : x * 2 ^ ((e : ℤ) - 1075) = num / den := by
    rw [hx, Nat.cast_mul, Nat.cast_mul, Nat.cast_pow, Nat.cast_pow, Nat.cast_ofNat, mul_div_mul_comm,
      mul_assoc, p, mul_one]
  rw [← xu]
  refine nearestF64_grid neg x e _ e3 (by positivity) ?_ ?_
    (roundHalfEven_nearest _ _ (by positivity))
  · refine e1.imp_right fun e1 => ?_
    rw [← mul_le_mul_iff_left₀ up, xu]
    refine le_trans (le_of_eq ?_) lo
    rw [← zpow_natCast, ← zpow_add₀ (by norm_num)]
    congr 1; omega
  · rw [← mul_lt_mul_iff_left₀ up, xu]
    refine hi.trans_le ?_
    rw [← zpow_natCast, ← zpow_add₀ (by norm_num)]
    exact zpow_le_zpow_right₀ (by norm_num) (by omega)

/-- From the overflow threshold on the nearest value is the infinity of the sign. -/
theorem nearestF64_huge (neg : Bool) (m : ℚ) (h : 2 ^ 1024 - 2 ^ 970 ≤ m) :
    NearestF64 ((if neg then -1 else 1) * m) (f64Inf neg) := by
  have t : (0 : ℚ) < 2 ^ 1024 - 2 ^ 970 := by
    rw [f64_threshold]; exact mul_pos (by norm_num) (by positivity)
  have mp : 0 < m := t.trans_le h
  have sabs : |(if neg then -1 else 1 : ℚ) * m| = m := by
    rw [abs_mul, abs_of_pos mp]; split_ifs <;> norm_num
  unfold NearestF64
  rw [sabs, if_neg (not_lt.2 h)]
  refine ⟨(f64Inf_fields neg).1, ?_⟩
  rw [(f64Inf_fields neg).2]
  cases neg
  · simp [mp.le]
  · simp [mp]

/-- `f64OfDecimal` is correctly rounded. -/
theorem f64OfDecimal_nearest (neg : Bool) (d : ℕ) (e : ℤ) :
    NearestF64 ((if neg then -1 else 1) * d * 10 ^ e) (f64OfDecimal neg d e) := by
  unfold f64OfDecimal
  rcases Nat.eq_zero_or_pos d with h0 | hd
  · rw [if_pos h0, h0, Nat.cast_zero, mul_zero, zero_mul]
    exact nearestF64_tiny neg 0 (by rw [abs_zero]; positivity)
  rw [if_neg hd.ne', mul_assoc]
  have d1 : (1 : ℚ) ≤ d := by exact_mod_cast hd
  have p10 : (0 : ℚ) < 10 ^ e := by positivity
  by_cases h1 : 310 < e
  · rw [if_pos h1]
    refine nearestF64_huge neg _ ?_
    have a : (10 : ℚ) ^ (310 : ℕ) ≤ 10 ^ e := by
      rw [← zpow_natCast]; exact zpow_le_zpow_right₀ (by norm_num) (by exact_mod_cast h1.le)
    have b : (2 : ℚ) ^ 1024 ≤ 10 ^ (310 : ℕ) := by
      exact_mod_cast (by decide +kernel : 2 ^ 1024 ≤ 10 ^ 310)
    have c : (0 : ℚ) ≤ 2 ^ 970 := by positivity
    exact (sub_le_self _ c).trans (b.trans (a.trans (le_mul_of_one_le_left p10.le d1)))
  rw [if_neg h1]
  by_cases h2 : e < -(402 + Nat.log2 d : ℤ)
  · rw [if_pos h2]
    refine nearestF64_tiny neg _ ?_
    have sabs : |(if neg then -1 else 1 : ℚ)| = 1 := by split_ifs <;> norm_num
    rw [abs_mul, sabs, one_mul, abs_of_pos (by positivity)]
    have a : (d : ℚ) < 2 ^ (Nat.log2 d + 1) := by exact_mod_cast Nat.lt_log2_self
    have b : (10 : ℚ) ^ e ≤ (10 ^ (403 + Nat.log2 d))⁻¹ := by
      rw [← zpow_natCast, ← zpow_neg]; exact zpow_le_zpow_right₀ (by norm_num) (by push_cast; omega)
    have c : (2 : ℚ) ^ 1076 ≤ 10 ^ 403 := by
      exact_mod_cast (by decide +kernel : 2 ^ 1076 ≤ 10 ^ 403)
    have f : (2 : ℚ) ^ Nat.log2 d ≤ 10 ^ Nat.log2 d := pow_le_pow_left₀ (by norm_num) (by norm_num) _
    calc (d : ℚ) * 10 ^ e < 2 ^ (Nat.log2 d + 1) * 10 ^ e := mul_lt_mul_of_pos_right a p10
      _ ≤ 2 ^ (Nat.log2 d + 1) * (10 ^ (403 + Nat.log2 d))⁻¹ := mul_le_mul_of_nonneg_left b (by positivity)
      _ ≤ 2 ^ (-1075 : ℤ) := by
        rw [zpow_neg, ← div_eq_mul_inv, div_le_iff₀ (by positivity), ← div_eq_inv_mul,
          le_div_iff₀ (by positivity), pow_succ, pow_add]
        have c' : (2 : ℚ) * 2 ^ (1075 : ℤ) ≤ 10 ^ 403 := by
          rw [show (2 : ℚ) ^ (1075 : ℤ) = 2 ^ (1075 : ℕ) from zpow_natCast 2 1075, ← pow_succ']
          exact c
        calc (2 : ℚ) ^ Nat.log2 d * 2 * 2 ^ (1075 : ℤ) = (2 * 2 ^ (1075 : ℤ)) * 2 ^ Nat.log2 d := by ring
          _ ≤ 10 ^ 403 * 10 ^ Nat.log2 d := mul_le_mul c' f (by positivity) (by positivity)
  rw [if_neg h2]
  have key := f64Round_nearest neg (d * 10 ^ e.toNat) (10 ^ (-e).toNat) (by positivity)
  have : (((d * 10 ^ e.toNat : ℕ) : ℚ) / ((10 ^ (-e).toNat : ℕ) : ℚ)) = d * 10 ^ e := by
    push_cast
    rw [mul_div_assoc, ← zpow_natCast, ← zpow_natCast, ← zpow_sub₀ (by norm_num)]
    congr 2; omega
  rwa [this] at key

/-- Truncation of a signed magnitude. -/
theorem truncToward0_signed (neg : Bool) (m : ℚ) (hm : 0 ≤ m) :
    truncToward0 ((if neg then -1 else 1) * m) = if neg then -⌊m⌋ else ⌊m⌋ := by
  unfold truncToward0
  cases neg
  · simp [hm]
  · rcases hm.eq_or_lt with rfl | h
    · simp
    · simp [h, Int.ceil_neg]

/-- The value as a sign and the exact fraction of its magnitude. -/
theorem f64Value_eq_div (v : F64) :
    f64Value v = (if f64Neg v then -1 else 1) * ((f64Num v : ℚ) / f64Den v) := by
  rw [← f64SNum_div_den]
  unfold f64SNum
  generalize f64Num v = n; generalize f64Den v = d
  cases f64Neg v <;> simp [neg_div]

/-- `f64Trunc` is truncation toward zero of the value. -/
theorem f64Trunc_eq (v : F64) : f64Trunc v = truncToward0 (f64Value v) := by
  have e : ((f64Num v / f64Den v : ℕ) : ℤ) = ⌊(f64Num v : ℚ) / f64Den v⌋ := by
    rw [← Nat.floor_div_eq_div (K := ℚ), Int.natCast_floor_eq_floor (by positivity)]
  rw [f64Value_eq_div, truncToward0_signed _ _ (by positivity), ← e]
  rfl

theorem f64IsInf_of_finite {v : F64} (h : f64IsFinite v = true) : f64IsInf v = false := by
  unfold f64IsFinite at h
  unfold f64IsInf
  simp only [bne_iff_ne] at h
  simp [h]

/-- Multiplication rounds the exact product. -/
theorem f64Mul_nearest (x y : F64) (hx : f64IsFinite x = true) (hy : f64IsFinite y = true) :
    NearestF64 (f64Value x * f64Value y) (f64Mul x y) := by
  unfold f64Mul
  rw [f64IsInf_of_finite hx, f64IsInf_of_finite hy, Bool.or_false, if_neg Bool.false_ne_true]
  have key := f64Round_nearest (f64Neg x != f64Neg y) (f64Num x * f64Num y) (f64Den x * f64Den y)
    (Nat.mul_pos (f64Den_pos x) (f64Den_pos y))
  convert key using 1
  rw [← f64SNum_div_den, ← f64SNum_div_den, Nat.cast_mul, Nat.cast_mul, mul_div_mul_comm]
  unfold f64SNum
  generalize f64Num x = a; generalize f64Num y = b
  cases f64Neg x <;> cases f64Neg y <;> simp [neg_div]

/-- Division rounds the exact quotient. -/
theorem f64Div_nearest (x y : F64) (hy : f64Value y ≠ 0) :
    NearestF64 (f64Value x / f64Value y) (f64Div x y) := by
  unfold f64Div
  have ny : 0 < f64Num y := by
    rw [Nat.pos_iff_ne_zero]
    intro h
    rw [← abs_pos, abs_f64Value, h] at hy
    simp at hy
  have key := f64Round_nearest (f64Neg x != f64Neg y) (f64Num x * f64Den y) (f64Den x * f64Num y)
    (Nat.mul_pos (f64Den_pos x) ny)
  convert key using 1
  have a : (f64Num y : ℚ) ≠ 0 := by exact_mod_cast ny.ne'
  have b : (f64Den y : ℚ) ≠ 0 := by exact_mod_cast (f64Den_pos y).ne'
  have c : (f64Den x : ℚ) ≠ 0 := by exact_mod_cast (f64Den_pos x).ne'
  rw [← f64SNum_div_den, ← f64SNum_div_den, Nat.cast_mul, Nat.cast_mul]
  unfold f64SNum
  generalize f64Num x = m; generalize f64Num y = n at *
  generalize f64Den x = k at *; generalize f64Den y = l at *
  cases f64Neg x <;> cases f64Neg y <;> simp <;> field_simp

/-- Addition rounds the exact sum. -/
theorem f64Add_nearest (x y : F64) : NearestF64 (f64Value x + f64Value y) (f64Add x y) := by
  have b : (f64Den y : ℚ) ≠ 0 := by exact_mod_cast (f64Den_pos y).ne'
  have c : (f64Den x : ℚ) ≠ 0 := by exact_mod_cast (f64Den_pos x).ne'
  have e : f64Value x + f64Value y =
      ((f64SNum x * f64Den y + f64SNum y * f64Den x : ℤ) : ℚ) / ((f64Den x * f64Den y : ℕ) : ℚ) := by
    rw [← f64SNum_div_den, ← f64SNum_div_den]; push_cast; field_simp
  unfold f64Add
  dsimp only
  rw [e]
  generalize f64SNum x * f64Den y + f64SNum y * f64Den x = n
  by_cases h : n = 0
  · rw [if_pos h, h, Int.cast_zero, zero_div]
    exact nearestF64_tiny _ 0 (by rw [abs_zero]; positivity)
  rw [if_neg h]
  have key := f64Round_nearest (decide (n < 0)) n.natAbs (f64Den x * f64Den y)
    (Nat.mul_pos (f64Den_pos x) (f64Den_pos y))
  convert key using 1
  have : (n : ℚ) = (if decide (n < 0) then -1 else 1) * (n.natAbs : ℚ) := by
    rw [Nat.cast_natAbs]
    by_cases hn : n < 0
    · simp [hn, abs_of_neg hn]
    · simp [hn, abs_of_nonneg (not_lt.1 hn)]
  rw [this, mul_div_assoc]

/-! ### The order of the values -/

/-- The magnitude by significand and exponent. -/
theorem abs_f64Value_eq (v : F64) : |f64Value v| = (f64Mant v : ℚ) * 2 ^ ((max (f64Expo v) 1 : ℕ) - 1075 : ℤ) := by
  rw [f64Value_eq, abs_mul, abs_of_nonneg (a := (f64Mant v : ℚ) * _) (by positivity)]
  split_ifs <;> simp

/-- The bits below the sign, by exponent and fraction field. -/
theorem f64_bits_eq (v : F64) : v.toNat % 2 ^ 63 = f64Expo v * 2 ^ 52 + f64Frac v := by
  unfold f64Expo f64Frac; omega

/-- The magnitude rises with the bits below the sign. -/
theorem abs_f64Value_lt (a b : F64) (h : a.toNat % 2 ^ 63 < b.toNat % 2 ^ 63) : |f64Value a| < |f64Value b| := by
  rw [abs_f64Value_eq, abs_f64Value_eq]
  rw [f64_bits_eq, f64_bits_eq] at h
  have ma := f64Mant_lt a
  have fa : f64Frac a < 2 ^ 52 := Nat.mod_lt _ (by norm_num)
  have fb : f64Frac b < 2 ^ 52 := Nat.mod_lt _ (by norm_num)
  rcases Nat.lt_or_ge (max (f64Expo a) 1) (max (f64Expo b) 1) with hl | hg
  · have mb : 2 ^ 52 ≤ f64Mant b := by unfold f64Mant; rw [if_neg (by omega)]; omega
    have h2 : (2 : ℚ) ^ ((max (f64Expo a) 1 : ℕ) - 1075 : ℤ) * 2 ≤ 2 ^ ((max (f64Expo b) 1 : ℕ) - 1075 : ℤ) := by
      rw [← zpow_add_one₀ (by norm_num)]
      exact zpow_le_zpow_right₀ (by norm_num) (by omega)
    have p : (0 : ℚ) < 2 ^ ((max (f64Expo a) 1 : ℕ) - 1075 : ℤ) := by positivity
    have ma' : (f64Mant a : ℚ) < 2 ^ 53 := by exact_mod_cast ma
    have mb' : (2 ^ 52 : ℚ) ≤ f64Mant b := by exact_mod_cast mb
    generalize (2 : ℚ) ^ ((max (f64Expo a) 1 : ℕ) - 1075 : ℤ) = u at *
    generalize (2 : ℚ) ^ ((max (f64Expo b) 1 : ℕ) - 1075 : ℤ) = w at *
    generalize (f64Mant a : ℚ) = x at *
    generalize (f64Mant b : ℚ) = y at *
    calc x * u < 2 ^ 53 * u := mul_lt_mul_of_pos_right ma' p
      _ = 2 ^ 52 * (u * 2) := by ring
      _ ≤ y * w := mul_le_mul mb' h2 (by positivity) (by linarith)
  · have e : max (f64Expo a) 1 = max (f64Expo b) 1 := by omega
    have m : f64Mant a < f64Mant b := by unfold f64Mant; split_ifs <;> omega
    rw [e]
    exact mul_lt_mul_of_pos_right (by exact_mod_cast m) (by positivity)

/-- The value by sign and magnitude. -/
theorem f64Value_sign (v : F64) : f64Value v = (if f64Neg v then -1 else 1) * |f64Value v| := by
  rw [abs_f64Value_eq, f64Value_eq]

/-- The magnitude rises with the bits below the sign. -/
theorem abs_f64Value_le (a b : F64) (h : a.toNat % 2 ^ 63 ≤ b.toNat % 2 ^ 63) : |f64Value a| ≤ |f64Value b| := by
  rcases h.eq_or_lt with h | h
  · rw [f64_bits_eq, f64_bits_eq] at h
    have fa : f64Frac a < 2 ^ 52 := Nat.mod_lt _ (by norm_num)
    have fb : f64Frac b < 2 ^ 52 := Nat.mod_lt _ (by norm_num)
    have e : f64Expo a = f64Expo b := by omega
    have f : f64Frac a = f64Frac b := by omega
    have m : f64Mant a = f64Mant b := by unfold f64Mant; rw [e, f]
    rw [abs_f64Value_eq, abs_f64Value_eq, e, m]
  · exact (abs_f64Value_lt a b h).le

/-- The order of the keys is the order of the values. -/
theorem f64Value_le_of_key (a b : F64) (h : f64Key a ≤ f64Key b) : f64Value a ≤ f64Value b := by
  rw [f64Value_sign a, f64Value_sign b]
  unfold f64Key at h
  have pa := abs_nonneg (f64Value a)
  have pb := abs_nonneg (f64Value b)
  cases ha : f64Neg a <;> cases hb : f64Neg b <;> simp only [ha, hb, if_true, if_false, Bool.false_eq_true] at h ⊢
  · have := abs_f64Value_le a b (by omega); linarith
  · have h1 := abs_f64Value_le a b (by omega)
    have hz : a.toNat % 2 ^ 63 = 0 := by omega
    have hz' : b.toNat % 2 ^ 63 = 0 := by omega
    have z : ∀ c : F64, c.toNat % 2 ^ 63 = 0 → |f64Value c| = 0 := by
      intro c hc
      rw [f64_bits_eq] at hc
      rw [abs_f64Value_eq]
      have : f64Mant c = 0 := by unfold f64Mant; rw [if_pos (by omega)]; omega
      rw [this]; simp
    rw [z a hz, z b hz']; simp
  · linarith
  · have := abs_f64Value_le b a (by omega); linarith

/-- The strict order of the keys is the strict order of the values. -/
theorem f64Value_lt_of_key (a b : F64) (h : f64Key a < f64Key b) : f64Value a < f64Value b := by
  rw [f64Value_sign a, f64Value_sign b]
  unfold f64Key at h
  have pa := abs_nonneg (f64Value a)
  have pb := abs_nonneg (f64Value b)
  cases ha : f64Neg a <;> cases hb : f64Neg b <;> simp only [ha, hb, if_true, if_false, Bool.false_eq_true] at h ⊢
  · have := abs_f64Value_lt a b (by omega); linarith
  · omega
  · rcases Nat.lt_trichotomy (a.toNat % 2 ^ 63) (b.toNat % 2 ^ 63) with g | g | g
    · have := abs_f64Value_lt a b g; linarith
    · have h1 := abs_f64Value_le a b g.le
      have h2 : 0 < |f64Value a| := by
        have := abs_f64Value_lt (0 : F64) a (by simp; omega)
        exact (abs_nonneg _).trans_lt this
      linarith
    · have := abs_f64Value_lt b a g; linarith
  · have := abs_f64Value_lt b a (by omega); linarith

/-! ### Infinities and saturation -/

/-- A rounded value that is no infinity is finite: rounding gives no NaN. -/
theorem NearestF64.finite {q : ℚ} {r : F64} (h : NearestF64 q r) (hi : f64IsInf r = false) :
    f64IsFinite r = true := by
  unfold NearestF64 at h
  split_ifs at h
  · exact h.1
  · rw [h.1] at hi; exact absurd hi (by decide)

/-- Truncation and saturation of an infinity: the bound of its sign. -/
theorem f64TruncSat_inf (lo hi : ℤ) {v : F64} (h : f64IsInf v = true) :
    f64TruncSat lo hi v = if f64Neg v then lo else hi := by
  unfold f64TruncSat; rw [if_pos h]

/-- Truncation and saturation of any other value. -/
theorem f64TruncSat_not_inf (lo hi : ℤ) {v : F64} (h : f64IsInf v = false) :
    f64TruncSat lo hi v = min (max (truncToward0 (f64Value v)) lo) hi := by
  unfold f64TruncSat; rw [h, if_neg Bool.false_ne_true, f64Trunc_eq]

/-- An infinity times anything is the infinity of the combined sign. -/
theorem f64Mul_inf {x : F64} (y : F64) (h : f64IsInf x = true) :
    f64Mul x y = f64Inf (f64Neg x != f64Neg y) := by
  unfold f64Mul; rw [h, Bool.true_or, if_pos rfl]

end Sys2Proof.Machine
end

