-- ==== Sys2Proof/Laws/Memory.lean ====
section
/-! SUPPORT. The buffers: what a read gives after a write. -/

namespace Sys2Proof.Machine

theorem memWrite_toList {cap : Nat} (buf : Vector Byte cap) (i : Nat) (v : List Byte) :
    (memWrite buf i v).toList = (buf.toList.take i ++ v ++ buf.toList.drop (i + v.length)).take cap :=
  rfl

/-- A write that fits, in full. -/
theorem memWrite_toList_of_fits {cap : Nat} (buf : Vector Byte cap) (i : Nat) (v : List Byte)
    (h : i + v.length ≤ cap) :
    (memWrite buf i v).toList = buf.toList.take i ++ v ++ buf.toList.drop (i + v.length) := by
  rw [memWrite_toList, List.take_of_length_le]
  simp
  omega

/-- Reading back what was just written gives it. -/
theorem memRead_memWrite_same {cap : Nat} (buf : Vector Byte cap) (i : Nat) (v : List Byte)
    (h : i + v.length ≤ cap) : memRead (memWrite buf i v) i v.length = v := by
  have hi : (buf.toList.take i).length = i := by simp; omega
  rw [memRead, memWrite_toList_of_fits _ _ _ h, List.append_assoc, List.drop_append_of_le_length (by omega),
    List.drop_eq_nil_of_le (by omega), List.nil_append, List.take_append_of_le_length (by omega)]
  simp

/-- A write after the valid bytes extends them. -/
theorem memRead_memWrite_extend {cap : Nat} (buf : Vector Byte cap) (i : Nat) (v : List Byte)
    (h : i + v.length ≤ cap) :
    memRead (memWrite buf i v) 0 (i + v.length) = memRead buf 0 i ++ v := by
  have hi : (buf.toList.take i).length = i := by simp; omega
  rw [memRead, memWrite_toList_of_fits _ _ _ h, List.drop_zero, List.take_append_of_le_length (by simp; omega),
    List.take_of_length_le (by rw [List.length_append]; omega)]
  simp [memRead]

/-- A write leaves the bytes below it alone. -/
theorem memRead_memWrite_below {cap : Nat} (buf : Vector Byte cap) (i n : Nat) (v : List Byte)
    (hn : n ≤ i) (h : i + v.length ≤ cap) : memRead (memWrite buf i v) 0 n = memRead buf 0 n := by
  have hi : (buf.toList.take i).length = i := by simp; omega
  rw [memRead, memWrite_toList_of_fits _ _ _ h, List.drop_zero, List.append_assoc,
    List.take_append_of_le_length (by omega), List.take_take, Nat.min_eq_left hn]
  simp [memRead]

@[simp] theorem memRead_length {cap : Nat} (buf : Vector Byte cap) (i n : Nat) :
    (memRead buf i n).length = min n (cap - i) := by
  simp [memRead]

/-- The frame in the receive buffer is the frame that was loaded. -/
@[simp] theorem frame_loadFrame (f : List Byte) (s : State) (h : f.length ≤ 30) :
    (loadFrame f s).frame = f := by
  have := memRead_memWrite_same s.rxBuf 0 f (by omega)
  simpa [State.frame, loadFrame] using this

end Sys2Proof.Machine
end

