-- ==== Sys2Proof/Laws/State.lean ====
section
/-! SUPPORT. What each record update does to each field of the state, one lemma per field per update. -/

namespace Sys2Proof.Machine

@[simp] theorem send_eq (b : List Byte) (s : State) : send b s = emitOut (.tx b) s := rfl
@[simp] theorem diag_eq (c : DiagCode) (s : State) : diag c s = emitOut (.diag c) s := rfl
@[simp] theorem raiseError_eq (c : DiagCode) (s : State) : raiseError c s = emitOut (.diag c) s := rfl
@[simp] theorem raiseDataError_eq (c : DiagCode) (s : State) :
    raiseDataError c s = emitOut (.diag c) { s with dataErr := true } := rfl
@[simp] theorem sampleTimeout_eq (s : State) :
    sampleTimeout s = emitOut (.diag .sampleUnavailable) { s with lastStatus := .fail } := rfl

/-! ### `emitOut` -/

@[simp] theorem emitOut_fraAppending (e : OutEvent) (s : State) : (emitOut e s).fraAppending = s.fraAppending := rfl
@[simp] theorem emitOut_appBuf (e : OutEvent) (s : State) : (emitOut e s).appBuf = s.appBuf := rfl
@[simp] theorem emitOut_appLen (e : OutEvent) (s : State) : (emitOut e s).appLen = s.appLen := rfl
@[simp] theorem emitOut_rxBuf (e : OutEvent) (s : State) : (emitOut e s).rxBuf = s.rxBuf := rfl
@[simp] theorem emitOut_rxLen (e : OutEvent) (s : State) : (emitOut e s).rxLen = s.rxLen := rfl
@[simp] theorem emitOut_commState (e : OutEvent) (s : State) : (emitOut e s).commState = s.commState := rfl
@[simp] theorem emitOut_hlState (e : OutEvent) (s : State) : (emitOut e s).hlState = s.hlState := rfl
@[simp] theorem emitOut_procedure (e : OutEvent) (s : State) : (emitOut e s).procedure = s.procedure := rfl
@[simp] theorem emitOut_sampleIndex (e : OutEvent) (s : State) : (emitOut e s).sampleIndex = s.sampleIndex := rfl
@[simp] theorem emitOut_pendingCmd (e : OutEvent) (s : State) : (emitOut e s).pendingCmd = s.pendingCmd := rfl
@[simp] theorem emitOut_dir1 (e : OutEvent) (s : State) : (emitOut e s).dir1 = s.dir1 := rfl
@[simp] theorem emitOut_dir2 (e : OutEvent) (s : State) : (emitOut e s).dir2 = s.dir2 := rfl
@[simp] theorem emitOut_hdr (e : OutEvent) (s : State) : (emitOut e s).hdr = s.hdr := rfl
@[simp] theorem emitOut_form2 (e : OutEvent) (s : State) : (emitOut e s).form2 = s.form2 := rfl
@[simp] theorem emitOut_expectedLen (e : OutEvent) (s : State) : (emitOut e s).expectedLen = s.expectedLen := rfl
@[simp] theorem emitOut_dataErr (e : OutEvent) (s : State) : (emitOut e s).dataErr = s.dataErr := rfl
@[simp] theorem emitOut_chOp (e : OutEvent) (s : State) : (emitOut e s).chOp = s.chOp := rfl
@[simp] theorem emitOut_activeMask (e : OutEvent) (s : State) : (emitOut e s).activeMask = s.activeMask := rfl
@[simp] theorem emitOut_trigPeriodUs (e : OutEvent) (s : State) : (emitOut e s).trigPeriodUs = s.trigPeriodUs := rfl
@[simp] theorem emitOut_trigCount (e : OutEvent) (s : State) : (emitOut e s).trigCount = s.trigCount := rfl
@[simp] theorem emitOut_trigMode (e : OutEvent) (s : State) : (emitOut e s).trigMode = s.trigMode := rfl
@[simp] theorem emitOut_timerArmed (e : OutEvent) (s : State) : (emitOut e s).timerArmed = s.timerArmed := rfl
@[simp] theorem emitOut_timerPeriodUs (e : OutEvent) (s : State) : (emitOut e s).timerPeriodUs = s.timerPeriodUs := rfl
@[simp] theorem emitOut_sq (e : OutEvent) (s : State) : (emitOut e s).sq = s.sq := rfl
@[simp] theorem emitOut_lastMeas (e : OutEvent) (s : State) : (emitOut e s).lastMeas = s.lastMeas := rfl
@[simp] theorem emitOut_lastStatus (e : OutEvent) (s : State) : (emitOut e s).lastStatus = s.lastStatus := rfl
@[simp] theorem emitOut_taskPhase (e : OutEvent) (s : State) : (emitOut e s).taskPhase = s.taskPhase := rfl
@[simp] theorem emitOut_awaitCtx (e : OutEvent) (s : State) : (emitOut e s).awaitCtx = s.awaitCtx := rfl
@[simp] theorem emitOut_params (e : OutEvent) (s : State) : (emitOut e s).params = s.params := rfl
@[simp] theorem emitOut_rx (e : OutEvent) (s : State) : (emitOut e s).rx = s.rx := rfl
@[simp] theorem emitOut_adcIn (e : OutEvent) (s : State) : (emitOut e s).adcIn = s.adcIn := rfl
@[simp] theorem emitOut_connIn (e : OutEvent) (s : State) : (emitOut e s).connIn = s.connIn := rfl
@[simp] theorem emitOut_pubIn (e : OutEvent) (s : State) : (emitOut e s).pubIn = s.pubIn := rfl
@[simp] theorem emitOut_tickIn (e : OutEvent) (s : State) : (emitOut e s).tickIn = s.tickIn := rfl
@[simp] theorem emitOut_timeoutIn (e : OutEvent) (s : State) : (emitOut e s).timeoutIn = s.timeoutIn := rfl
@[simp] theorem emitOut_freeDraws (e : OutEvent) (s : State) : (emitOut e s).freeDraws = s.freeDraws := rfl
@[simp] theorem emitOut_out (e : OutEvent) (s : State) : (emitOut e s).out = s.out ++ [e] := rfl

/-! ### `loadFrame` -/

@[simp] theorem loadFrame_fraAppending (f : List Byte) (s : State) : (loadFrame f s).fraAppending = s.fraAppending := rfl
@[simp] theorem loadFrame_appBuf (f : List Byte) (s : State) : (loadFrame f s).appBuf = s.appBuf := rfl
@[simp] theorem loadFrame_appLen (f : List Byte) (s : State) : (loadFrame f s).appLen = s.appLen := rfl
@[simp] theorem loadFrame_rxBuf (f : List Byte) (s : State) : (loadFrame f s).rxBuf = memWrite s.rxBuf 0 f := rfl
@[simp] theorem loadFrame_rxLen (f : List Byte) (s : State) : (loadFrame f s).rxLen = f.length := rfl
@[simp] theorem loadFrame_commState (f : List Byte) (s : State) : (loadFrame f s).commState = s.commState := rfl
@[simp] theorem loadFrame_hlState (f : List Byte) (s : State) : (loadFrame f s).hlState = s.hlState := rfl
@[simp] theorem loadFrame_procedure (f : List Byte) (s : State) : (loadFrame f s).procedure = s.procedure := rfl
@[simp] theorem loadFrame_sampleIndex (f : List Byte) (s : State) : (loadFrame f s).sampleIndex = s.sampleIndex := rfl
@[simp] theorem loadFrame_pendingCmd (f : List Byte) (s : State) : (loadFrame f s).pendingCmd = s.pendingCmd := rfl
@[simp] theorem loadFrame_dir1 (f : List Byte) (s : State) : (loadFrame f s).dir1 = s.dir1 := rfl
@[simp] theorem loadFrame_dir2 (f : List Byte) (s : State) : (loadFrame f s).dir2 = s.dir2 := rfl
@[simp] theorem loadFrame_hdr (f : List Byte) (s : State) : (loadFrame f s).hdr = s.hdr := rfl
@[simp] theorem loadFrame_form2 (f : List Byte) (s : State) : (loadFrame f s).form2 = s.form2 := rfl
@[simp] theorem loadFrame_expectedLen (f : List Byte) (s : State) : (loadFrame f s).expectedLen = s.expectedLen := rfl
@[simp] theorem loadFrame_dataErr (f : List Byte) (s : State) : (loadFrame f s).dataErr = s.dataErr := rfl
@[simp] theorem loadFrame_chOp (f : List Byte) (s : State) : (loadFrame f s).chOp = s.chOp := rfl
@[simp] theorem loadFrame_activeMask (f : List Byte) (s : State) : (loadFrame f s).activeMask = s.activeMask := rfl
@[simp] theorem loadFrame_trigPeriodUs (f : List Byte) (s : State) : (loadFrame f s).trigPeriodUs = s.trigPeriodUs := rfl
@[simp] theorem loadFrame_trigCount (f : List Byte) (s : State) : (loadFrame f s).trigCount = s.trigCount := rfl
@[simp] theorem loadFrame_trigMode (f : List Byte) (s : State) : (loadFrame f s).trigMode = s.trigMode := rfl
@[simp] theorem loadFrame_timerArmed (f : List Byte) (s : State) : (loadFrame f s).timerArmed = s.timerArmed := rfl
@[simp] theorem loadFrame_timerPeriodUs (f : List Byte) (s : State) : (loadFrame f s).timerPeriodUs = s.timerPeriodUs := rfl
@[simp] theorem loadFrame_sq (f : List Byte) (s : State) : (loadFrame f s).sq = s.sq := rfl
@[simp] theorem loadFrame_lastMeas (f : List Byte) (s : State) : (loadFrame f s).lastMeas = s.lastMeas := rfl
@[simp] theorem loadFrame_lastStatus (f : List Byte) (s : State) : (loadFrame f s).lastStatus = s.lastStatus := rfl
@[simp] theorem loadFrame_taskPhase (f : List Byte) (s : State) : (loadFrame f s).taskPhase = s.taskPhase := rfl
@[simp] theorem loadFrame_awaitCtx (f : List Byte) (s : State) : (loadFrame f s).awaitCtx = s.awaitCtx := rfl
@[simp] theorem loadFrame_params (f : List Byte) (s : State) : (loadFrame f s).params = s.params := rfl
@[simp] theorem loadFrame_rx (f : List Byte) (s : State) : (loadFrame f s).rx = s.rx := rfl
@[simp] theorem loadFrame_adcIn (f : List Byte) (s : State) : (loadFrame f s).adcIn = s.adcIn := rfl
@[simp] theorem loadFrame_connIn (f : List Byte) (s : State) : (loadFrame f s).connIn = s.connIn := rfl
@[simp] theorem loadFrame_pubIn (f : List Byte) (s : State) : (loadFrame f s).pubIn = s.pubIn := rfl
@[simp] theorem loadFrame_tickIn (f : List Byte) (s : State) : (loadFrame f s).tickIn = s.tickIn := rfl
@[simp] theorem loadFrame_timeoutIn (f : List Byte) (s : State) : (loadFrame f s).timeoutIn = s.timeoutIn := rfl
@[simp] theorem loadFrame_freeDraws (f : List Byte) (s : State) : (loadFrame f s).freeDraws = s.freeDraws := rfl
@[simp] theorem loadFrame_out (f : List Byte) (s : State) : (loadFrame f s).out = s.out := rfl

/-! ### `clearFrame` -/

@[simp] theorem clearFrame_fraAppending (s : State) : (clearFrame s).fraAppending = s.fraAppending := rfl
@[simp] theorem clearFrame_appBuf (s : State) : (clearFrame s).appBuf = s.appBuf := rfl
@[simp] theorem clearFrame_appLen (s : State) : (clearFrame s).appLen = s.appLen := rfl
@[simp] theorem clearFrame_rxBuf (s : State) : (clearFrame s).rxBuf = s.rxBuf := rfl
@[simp] theorem clearFrame_rxLen (s : State) : (clearFrame s).rxLen = 0 := rfl
@[simp] theorem clearFrame_commState (s : State) : (clearFrame s).commState = s.commState := rfl
@[simp] theorem clearFrame_hlState (s : State) : (clearFrame s).hlState = s.hlState := rfl
@[simp] theorem clearFrame_procedure (s : State) : (clearFrame s).procedure = s.procedure := rfl
@[simp] theorem clearFrame_sampleIndex (s : State) : (clearFrame s).sampleIndex = s.sampleIndex := rfl
@[simp] theorem clearFrame_pendingCmd (s : State) : (clearFrame s).pendingCmd = s.pendingCmd := rfl
@[simp] theorem clearFrame_dir1 (s : State) : (clearFrame s).dir1 = s.dir1 := rfl
@[simp] theorem clearFrame_dir2 (s : State) : (clearFrame s).dir2 = s.dir2 := rfl
@[simp] theorem clearFrame_hdr (s : State) : (clearFrame s).hdr = s.hdr := rfl
@[simp] theorem clearFrame_form2 (s : State) : (clearFrame s).form2 = s.form2 := rfl
@[simp] theorem clearFrame_expectedLen (s : State) : (clearFrame s).expectedLen = s.expectedLen := rfl
@[simp] theorem clearFrame_dataErr (s : State) : (clearFrame s).dataErr = s.dataErr := rfl
@[simp] theorem clearFrame_chOp (s : State) : (clearFrame s).chOp = s.chOp := rfl
@[simp] theorem clearFrame_activeMask (s : State) : (clearFrame s).activeMask = s.activeMask := rfl
@[simp] theorem clearFrame_trigPeriodUs (s : State) : (clearFrame s).trigPeriodUs = s.trigPeriodUs := rfl
@[simp] theorem clearFrame_trigCount (s : State) : (clearFrame s).trigCount = s.trigCount := rfl
@[simp] theorem clearFrame_trigMode (s : State) : (clearFrame s).trigMode = s.trigMode := rfl
@[simp] theorem clearFrame_timerArmed (s : State) : (clearFrame s).timerArmed = s.timerArmed := rfl
@[simp] theorem clearFrame_timerPeriodUs (s : State) : (clearFrame s).timerPeriodUs = s.timerPeriodUs := rfl
@[simp] theorem clearFrame_sq (s : State) : (clearFrame s).sq = s.sq := rfl
@[simp] theorem clearFrame_lastMeas (s : State) : (clearFrame s).lastMeas = s.lastMeas := rfl
@[simp] theorem clearFrame_lastStatus (s : State) : (clearFrame s).lastStatus = s.lastStatus := rfl
@[simp] theorem clearFrame_taskPhase (s : State) : (clearFrame s).taskPhase = s.taskPhase := rfl
@[simp] theorem clearFrame_awaitCtx (s : State) : (clearFrame s).awaitCtx = s.awaitCtx := rfl
@[simp] theorem clearFrame_params (s : State) : (clearFrame s).params = s.params := rfl
@[simp] theorem clearFrame_rx (s : State) : (clearFrame s).rx = s.rx := rfl
@[simp] theorem clearFrame_adcIn (s : State) : (clearFrame s).adcIn = s.adcIn := rfl
@[simp] theorem clearFrame_connIn (s : State) : (clearFrame s).connIn = s.connIn := rfl
@[simp] theorem clearFrame_pubIn (s : State) : (clearFrame s).pubIn = s.pubIn := rfl
@[simp] theorem clearFrame_tickIn (s : State) : (clearFrame s).tickIn = s.tickIn := rfl
@[simp] theorem clearFrame_timeoutIn (s : State) : (clearFrame s).timeoutIn = s.timeoutIn := rfl
@[simp] theorem clearFrame_freeDraws (s : State) : (clearFrame s).freeDraws = s.freeDraws := rfl
@[simp] theorem clearFrame_out (s : State) : (clearFrame s).out = s.out := rfl

/-! ### `clearDataError` -/

@[simp] theorem clearDataError_fraAppending (s : State) : (clearDataError s).fraAppending = s.fraAppending := rfl
@[simp] theorem clearDataError_appBuf (s : State) : (clearDataError s).appBuf = s.appBuf := rfl
@[simp] theorem clearDataError_appLen (s : State) : (clearDataError s).appLen = s.appLen := rfl
@[simp] theorem clearDataError_rxBuf (s : State) : (clearDataError s).rxBuf = s.rxBuf := rfl
@[simp] theorem clearDataError_rxLen (s : State) : (clearDataError s).rxLen = s.rxLen := rfl
@[simp] theorem clearDataError_commState (s : State) : (clearDataError s).commState = s.commState := rfl
@[simp] theorem clearDataError_hlState (s : State) : (clearDataError s).hlState = s.hlState := rfl
@[simp] theorem clearDataError_procedure (s : State) : (clearDataError s).procedure = s.procedure := rfl
@[simp] theorem clearDataError_sampleIndex (s : State) : (clearDataError s).sampleIndex = s.sampleIndex := rfl
@[simp] theorem clearDataError_pendingCmd (s : State) : (clearDataError s).pendingCmd = s.pendingCmd := rfl
@[simp] theorem clearDataError_dir1 (s : State) : (clearDataError s).dir1 = s.dir1 := rfl
@[simp] theorem clearDataError_dir2 (s : State) : (clearDataError s).dir2 = s.dir2 := rfl
@[simp] theorem clearDataError_hdr (s : State) : (clearDataError s).hdr = s.hdr := rfl
@[simp] theorem clearDataError_form2 (s : State) : (clearDataError s).form2 = s.form2 := rfl
@[simp] theorem clearDataError_expectedLen (s : State) : (clearDataError s).expectedLen = s.expectedLen := rfl
@[simp] theorem clearDataError_dataErr (s : State) : (clearDataError s).dataErr = false := rfl
@[simp] theorem clearDataError_chOp (s : State) : (clearDataError s).chOp = s.chOp := rfl
@[simp] theorem clearDataError_activeMask (s : State) : (clearDataError s).activeMask = s.activeMask := rfl
@[simp] theorem clearDataError_trigPeriodUs (s : State) : (clearDataError s).trigPeriodUs = s.trigPeriodUs := rfl
@[simp] theorem clearDataError_trigCount (s : State) : (clearDataError s).trigCount = s.trigCount := rfl
@[simp] theorem clearDataError_trigMode (s : State) : (clearDataError s).trigMode = s.trigMode := rfl
@[simp] theorem clearDataError_timerArmed (s : State) : (clearDataError s).timerArmed = s.timerArmed := rfl
@[simp] theorem clearDataError_timerPeriodUs (s : State) : (clearDataError s).timerPeriodUs = s.timerPeriodUs := rfl
@[simp] theorem clearDataError_sq (s : State) : (clearDataError s).sq = s.sq := rfl
@[simp] theorem clearDataError_lastMeas (s : State) : (clearDataError s).lastMeas = s.lastMeas := rfl
@[simp] theorem clearDataError_lastStatus (s : State) : (clearDataError s).lastStatus = s.lastStatus := rfl
@[simp] theorem clearDataError_taskPhase (s : State) : (clearDataError s).taskPhase = s.taskPhase := rfl
@[simp] theorem clearDataError_awaitCtx (s : State) : (clearDataError s).awaitCtx = s.awaitCtx := rfl
@[simp] theorem clearDataError_params (s : State) : (clearDataError s).params = s.params := rfl
@[simp] theorem clearDataError_rx (s : State) : (clearDataError s).rx = s.rx := rfl
@[simp] theorem clearDataError_adcIn (s : State) : (clearDataError s).adcIn = s.adcIn := rfl
@[simp] theorem clearDataError_connIn (s : State) : (clearDataError s).connIn = s.connIn := rfl
@[simp] theorem clearDataError_pubIn (s : State) : (clearDataError s).pubIn = s.pubIn := rfl
@[simp] theorem clearDataError_tickIn (s : State) : (clearDataError s).tickIn = s.tickIn := rfl
@[simp] theorem clearDataError_timeoutIn (s : State) : (clearDataError s).timeoutIn = s.timeoutIn := rfl
@[simp] theorem clearDataError_freeDraws (s : State) : (clearDataError s).freeDraws = s.freeDraws := rfl
@[simp] theorem clearDataError_out (s : State) : (clearDataError s).out = s.out := rfl

/-! ### `clearSessionFlags` -/

@[simp] theorem clearSessionFlags_fraAppending (s : State) : (clearSessionFlags s).fraAppending = s.fraAppending := rfl
@[simp] theorem clearSessionFlags_appBuf (s : State) : (clearSessionFlags s).appBuf = s.appBuf := rfl
@[simp] theorem clearSessionFlags_appLen (s : State) : (clearSessionFlags s).appLen = s.appLen := rfl
@[simp] theorem clearSessionFlags_rxBuf (s : State) : (clearSessionFlags s).rxBuf = s.rxBuf := rfl
@[simp] theorem clearSessionFlags_rxLen (s : State) : (clearSessionFlags s).rxLen = s.rxLen := rfl
@[simp] theorem clearSessionFlags_commState (s : State) : (clearSessionFlags s).commState = s.commState := rfl
@[simp] theorem clearSessionFlags_hlState (s : State) : (clearSessionFlags s).hlState = s.hlState := rfl
@[simp] theorem clearSessionFlags_procedure (s : State) : (clearSessionFlags s).procedure = s.procedure := rfl
@[simp] theorem clearSessionFlags_sampleIndex (s : State) : (clearSessionFlags s).sampleIndex = s.sampleIndex := rfl
@[simp] theorem clearSessionFlags_pendingCmd (s : State) : (clearSessionFlags s).pendingCmd = s.pendingCmd := rfl
@[simp] theorem clearSessionFlags_dir1 (s : State) : (clearSessionFlags s).dir1 = false := rfl
@[simp] theorem clearSessionFlags_dir2 (s : State) : (clearSessionFlags s).dir2 = false := rfl
@[simp] theorem clearSessionFlags_hdr (s : State) : (clearSessionFlags s).hdr = s.hdr := rfl
@[simp] theorem clearSessionFlags_form2 (s : State) : (clearSessionFlags s).form2 = s.form2 := rfl
@[simp] theorem clearSessionFlags_expectedLen (s : State) : (clearSessionFlags s).expectedLen = s.expectedLen := rfl
@[simp] theorem clearSessionFlags_dataErr (s : State) : (clearSessionFlags s).dataErr = s.dataErr := rfl
@[simp] theorem clearSessionFlags_chOp (s : State) : (clearSessionFlags s).chOp = s.chOp := rfl
@[simp] theorem clearSessionFlags_activeMask (s : State) : (clearSessionFlags s).activeMask = s.activeMask := rfl
@[simp] theorem clearSessionFlags_trigPeriodUs (s : State) : (clearSessionFlags s).trigPeriodUs = s.trigPeriodUs := rfl
@[simp] theorem clearSessionFlags_trigCount (s : State) : (clearSessionFlags s).trigCount = s.trigCount := rfl
@[simp] theorem clearSessionFlags_trigMode (s : State) : (clearSessionFlags s).trigMode = s.trigMode := rfl
@[simp] theorem clearSessionFlags_timerArmed (s : State) : (clearSessionFlags s).timerArmed = s.timerArmed := rfl
@[simp] theorem clearSessionFlags_timerPeriodUs (s : State) : (clearSessionFlags s).timerPeriodUs = s.timerPeriodUs := rfl
@[simp] theorem clearSessionFlags_sq (s : State) : (clearSessionFlags s).sq = s.sq := rfl
@[simp] theorem clearSessionFlags_lastMeas (s : State) : (clearSessionFlags s).lastMeas = s.lastMeas := rfl
@[simp] theorem clearSessionFlags_lastStatus (s : State) : (clearSessionFlags s).lastStatus = s.lastStatus := rfl
@[simp] theorem clearSessionFlags_taskPhase (s : State) : (clearSessionFlags s).taskPhase = s.taskPhase := rfl
@[simp] theorem clearSessionFlags_awaitCtx (s : State) : (clearSessionFlags s).awaitCtx = s.awaitCtx := rfl
@[simp] theorem clearSessionFlags_params (s : State) : (clearSessionFlags s).params = s.params := rfl
@[simp] theorem clearSessionFlags_rx (s : State) : (clearSessionFlags s).rx = s.rx := rfl
@[simp] theorem clearSessionFlags_adcIn (s : State) : (clearSessionFlags s).adcIn = s.adcIn := rfl
@[simp] theorem clearSessionFlags_connIn (s : State) : (clearSessionFlags s).connIn = s.connIn := rfl
@[simp] theorem clearSessionFlags_pubIn (s : State) : (clearSessionFlags s).pubIn = s.pubIn := rfl
@[simp] theorem clearSessionFlags_tickIn (s : State) : (clearSessionFlags s).tickIn = s.tickIn := rfl
@[simp] theorem clearSessionFlags_timeoutIn (s : State) : (clearSessionFlags s).timeoutIn = s.timeoutIn := rfl
@[simp] theorem clearSessionFlags_freeDraws (s : State) : (clearSessionFlags s).freeDraws = s.freeDraws := rfl
@[simp] theorem clearSessionFlags_out (s : State) : (clearSessionFlags s).out = s.out := rfl

/-! ### `arm` -/

@[simp] theorem arm_fraAppending (p : U32) (s : State) : (arm p s).fraAppending = s.fraAppending := rfl
@[simp] theorem arm_appBuf (p : U32) (s : State) : (arm p s).appBuf = s.appBuf := rfl
@[simp] theorem arm_appLen (p : U32) (s : State) : (arm p s).appLen = s.appLen := rfl
@[simp] theorem arm_rxBuf (p : U32) (s : State) : (arm p s).rxBuf = s.rxBuf := rfl
@[simp] theorem arm_rxLen (p : U32) (s : State) : (arm p s).rxLen = s.rxLen := rfl
@[simp] theorem arm_commState (p : U32) (s : State) : (arm p s).commState = s.commState := rfl
@[simp] theorem arm_hlState (p : U32) (s : State) : (arm p s).hlState = s.hlState := rfl
@[simp] theorem arm_procedure (p : U32) (s : State) : (arm p s).procedure = s.procedure := rfl
@[simp] theorem arm_sampleIndex (p : U32) (s : State) : (arm p s).sampleIndex = s.sampleIndex := rfl
@[simp] theorem arm_pendingCmd (p : U32) (s : State) : (arm p s).pendingCmd = s.pendingCmd := rfl
@[simp] theorem arm_dir1 (p : U32) (s : State) : (arm p s).dir1 = s.dir1 := rfl
@[simp] theorem arm_dir2 (p : U32) (s : State) : (arm p s).dir2 = s.dir2 := rfl
@[simp] theorem arm_hdr (p : U32) (s : State) : (arm p s).hdr = s.hdr := rfl
@[simp] theorem arm_form2 (p : U32) (s : State) : (arm p s).form2 = s.form2 := rfl
@[simp] theorem arm_expectedLen (p : U32) (s : State) : (arm p s).expectedLen = s.expectedLen := rfl
@[simp] theorem arm_dataErr (p : U32) (s : State) : (arm p s).dataErr = s.dataErr := rfl
@[simp] theorem arm_chOp (p : U32) (s : State) : (arm p s).chOp = s.chOp := rfl
@[simp] theorem arm_activeMask (p : U32) (s : State) : (arm p s).activeMask = s.activeMask := rfl
@[simp] theorem arm_trigPeriodUs (p : U32) (s : State) : (arm p s).trigPeriodUs = s.trigPeriodUs := rfl
@[simp] theorem arm_trigCount (p : U32) (s : State) : (arm p s).trigCount = s.trigCount := rfl
@[simp] theorem arm_trigMode (p : U32) (s : State) : (arm p s).trigMode = s.trigMode := rfl
@[simp] theorem arm_timerArmed (p : U32) (s : State) : (arm p s).timerArmed = true := rfl
@[simp] theorem arm_timerPeriodUs (p : U32) (s : State) : (arm p s).timerPeriodUs = p := rfl
@[simp] theorem arm_sq (p : U32) (s : State) : (arm p s).sq = s.sq := rfl
@[simp] theorem arm_lastMeas (p : U32) (s : State) : (arm p s).lastMeas = s.lastMeas := rfl
@[simp] theorem arm_lastStatus (p : U32) (s : State) : (arm p s).lastStatus = s.lastStatus := rfl
@[simp] theorem arm_taskPhase (p : U32) (s : State) : (arm p s).taskPhase = s.taskPhase := rfl
@[simp] theorem arm_awaitCtx (p : U32) (s : State) : (arm p s).awaitCtx = s.awaitCtx := rfl
@[simp] theorem arm_params (p : U32) (s : State) : (arm p s).params = s.params := rfl
@[simp] theorem arm_rx (p : U32) (s : State) : (arm p s).rx = s.rx := rfl
@[simp] theorem arm_adcIn (p : U32) (s : State) : (arm p s).adcIn = s.adcIn := rfl
@[simp] theorem arm_connIn (p : U32) (s : State) : (arm p s).connIn = s.connIn := rfl
@[simp] theorem arm_pubIn (p : U32) (s : State) : (arm p s).pubIn = s.pubIn := rfl
@[simp] theorem arm_tickIn (p : U32) (s : State) : (arm p s).tickIn = s.tickIn := rfl
@[simp] theorem arm_timeoutIn (p : U32) (s : State) : (arm p s).timeoutIn = s.timeoutIn := rfl
@[simp] theorem arm_freeDraws (p : U32) (s : State) : (arm p s).freeDraws = s.freeDraws := rfl
@[simp] theorem arm_out (p : U32) (s : State) : (arm p s).out = s.out := rfl

/-! ### `disarm` -/

@[simp] theorem disarm_fraAppending (s : State) : (disarm s).fraAppending = s.fraAppending := rfl
@[simp] theorem disarm_appBuf (s : State) : (disarm s).appBuf = s.appBuf := rfl
@[simp] theorem disarm_appLen (s : State) : (disarm s).appLen = s.appLen := rfl
@[simp] theorem disarm_rxBuf (s : State) : (disarm s).rxBuf = s.rxBuf := rfl
@[simp] theorem disarm_rxLen (s : State) : (disarm s).rxLen = s.rxLen := rfl
@[simp] theorem disarm_commState (s : State) : (disarm s).commState = s.commState := rfl
@[simp] theorem disarm_hlState (s : State) : (disarm s).hlState = s.hlState := rfl
@[simp] theorem disarm_procedure (s : State) : (disarm s).procedure = s.procedure := rfl
@[simp] theorem disarm_sampleIndex (s : State) : (disarm s).sampleIndex = s.sampleIndex := rfl
@[simp] theorem disarm_pendingCmd (s : State) : (disarm s).pendingCmd = s.pendingCmd := rfl
@[simp] theorem disarm_dir1 (s : State) : (disarm s).dir1 = s.dir1 := rfl
@[simp] theorem disarm_dir2 (s : State) : (disarm s).dir2 = s.dir2 := rfl
@[simp] theorem disarm_hdr (s : State) : (disarm s).hdr = s.hdr := rfl
@[simp] theorem disarm_form2 (s : State) : (disarm s).form2 = s.form2 := rfl
@[simp] theorem disarm_expectedLen (s : State) : (disarm s).expectedLen = s.expectedLen := rfl
@[simp] theorem disarm_dataErr (s : State) : (disarm s).dataErr = s.dataErr := rfl
@[simp] theorem disarm_chOp (s : State) : (disarm s).chOp = s.chOp := rfl
@[simp] theorem disarm_activeMask (s : State) : (disarm s).activeMask = s.activeMask := rfl
@[simp] theorem disarm_trigPeriodUs (s : State) : (disarm s).trigPeriodUs = s.trigPeriodUs := rfl
@[simp] theorem disarm_trigCount (s : State) : (disarm s).trigCount = s.trigCount := rfl
@[simp] theorem disarm_trigMode (s : State) : (disarm s).trigMode = s.trigMode := rfl
@[simp] theorem disarm_timerArmed (s : State) : (disarm s).timerArmed = false := rfl
@[simp] theorem disarm_timerPeriodUs (s : State) : (disarm s).timerPeriodUs = s.timerPeriodUs := rfl
@[simp] theorem disarm_sq (s : State) : (disarm s).sq = s.sq := rfl
@[simp] theorem disarm_lastMeas (s : State) : (disarm s).lastMeas = s.lastMeas := rfl
@[simp] theorem disarm_lastStatus (s : State) : (disarm s).lastStatus = s.lastStatus := rfl
@[simp] theorem disarm_taskPhase (s : State) : (disarm s).taskPhase = s.taskPhase := rfl
@[simp] theorem disarm_awaitCtx (s : State) : (disarm s).awaitCtx = s.awaitCtx := rfl
@[simp] theorem disarm_params (s : State) : (disarm s).params = s.params := rfl
@[simp] theorem disarm_rx (s : State) : (disarm s).rx = s.rx := rfl
@[simp] theorem disarm_adcIn (s : State) : (disarm s).adcIn = s.adcIn := rfl
@[simp] theorem disarm_connIn (s : State) : (disarm s).connIn = s.connIn := rfl
@[simp] theorem disarm_pubIn (s : State) : (disarm s).pubIn = s.pubIn := rfl
@[simp] theorem disarm_tickIn (s : State) : (disarm s).tickIn = s.tickIn := rfl
@[simp] theorem disarm_timeoutIn (s : State) : (disarm s).timeoutIn = s.timeoutIn := rfl
@[simp] theorem disarm_freeDraws (s : State) : (disarm s).freeDraws = s.freeDraws := rfl
@[simp] theorem disarm_out (s : State) : (disarm s).out = s.out := rfl

/-! ### `takeSample` -/

@[simp] theorem takeSample_fraAppending (e : SampleEvent) (q : List SampleEvent) (s : State) : (takeSample e q s).fraAppending = s.fraAppending := rfl
@[simp] theorem takeSample_appBuf (e : SampleEvent) (q : List SampleEvent) (s : State) : (takeSample e q s).appBuf = s.appBuf := rfl
@[simp] theorem takeSample_appLen (e : SampleEvent) (q : List SampleEvent) (s : State) : (takeSample e q s).appLen = s.appLen := rfl
@[simp] theorem takeSample_rxBuf (e : SampleEvent) (q : List SampleEvent) (s : State) : (takeSample e q s).rxBuf = s.rxBuf := rfl
@[simp] theorem takeSample_rxLen (e : SampleEvent) (q : List SampleEvent) (s : State) : (takeSample e q s).rxLen = s.rxLen := rfl
@[simp] theorem takeSample_commState (e : SampleEvent) (q : List SampleEvent) (s : State) : (takeSample e q s).commState = s.commState := rfl
@[simp] theorem takeSample_hlState (e : SampleEvent) (q : List SampleEvent) (s : State) : (takeSample e q s).hlState = s.hlState := rfl
@[simp] theorem takeSample_procedure (e : SampleEvent) (q : List SampleEvent) (s : State) : (takeSample e q s).procedure = s.procedure := rfl
@[simp] theorem takeSample_sampleIndex (e : SampleEvent) (q : List SampleEvent) (s : State) : (takeSample e q s).sampleIndex = s.sampleIndex := rfl
@[simp] theorem takeSample_pendingCmd (e : SampleEvent) (q : List SampleEvent) (s : State) : (takeSample e q s).pendingCmd = s.pendingCmd := rfl
@[simp] theorem takeSample_dir1 (e : SampleEvent) (q : List SampleEvent) (s : State) : (takeSample e q s).dir1 = s.dir1 := rfl
@[simp] theorem takeSample_dir2 (e : SampleEvent) (q : List SampleEvent) (s : State) : (takeSample e q s).dir2 = s.dir2 := rfl
@[simp] theorem takeSample_hdr (e : SampleEvent) (q : List SampleEvent) (s : State) : (takeSample e q s).hdr = s.hdr := rfl
@[simp] theorem takeSample_form2 (e : SampleEvent) (q : List SampleEvent) (s : State) : (takeSample e q s).form2 = s.form2 := rfl
@[simp] theorem takeSample_expectedLen (e : SampleEvent) (q : List SampleEvent) (s : State) : (takeSample e q s).expectedLen = s.expectedLen := rfl
@[simp] theorem takeSample_dataErr (e : SampleEvent) (q : List SampleEvent) (s : State) : (takeSample e q s).dataErr = s.dataErr := rfl
@[simp] theorem takeSample_chOp (e : SampleEvent) (q : List SampleEvent) (s : State) : (takeSample e q s).chOp = s.chOp := rfl
@[simp] theorem takeSample_activeMask (e : SampleEvent) (q : List SampleEvent) (s : State) : (takeSample e q s).activeMask = s.activeMask := rfl
@[simp] theorem takeSample_trigPeriodUs (e : SampleEvent) (q : List SampleEvent) (s : State) : (takeSample e q s).trigPeriodUs = s.trigPeriodUs := rfl
@[simp] theorem takeSample_trigCount (e : SampleEvent) (q : List SampleEvent) (s : State) : (takeSample e q s).trigCount = s.trigCount := rfl
@[simp] theorem takeSample_trigMode (e : SampleEvent) (q : List SampleEvent) (s : State) : (takeSample e q s).trigMode = s.trigMode := rfl
@[simp] theorem takeSample_timerArmed (e : SampleEvent) (q : List SampleEvent) (s : State) : (takeSample e q s).timerArmed = s.timerArmed := rfl
@[simp] theorem takeSample_timerPeriodUs (e : SampleEvent) (q : List SampleEvent) (s : State) : (takeSample e q s).timerPeriodUs = s.timerPeriodUs := rfl
@[simp] theorem takeSample_sq (e : SampleEvent) (q : List SampleEvent) (s : State) : (takeSample e q s).sq = q := rfl
@[simp] theorem takeSample_lastMeas (e : SampleEvent) (q : List SampleEvent) (s : State) : (takeSample e q s).lastMeas = e.measurements := rfl
@[simp] theorem takeSample_lastStatus (e : SampleEvent) (q : List SampleEvent) (s : State) : (takeSample e q s).lastStatus = .ok := rfl
@[simp] theorem takeSample_taskPhase (e : SampleEvent) (q : List SampleEvent) (s : State) : (takeSample e q s).taskPhase = s.taskPhase := rfl
@[simp] theorem takeSample_awaitCtx (e : SampleEvent) (q : List SampleEvent) (s : State) : (takeSample e q s).awaitCtx = s.awaitCtx := rfl
@[simp] theorem takeSample_params (e : SampleEvent) (q : List SampleEvent) (s : State) : (takeSample e q s).params = s.params := rfl
@[simp] theorem takeSample_rx (e : SampleEvent) (q : List SampleEvent) (s : State) : (takeSample e q s).rx = s.rx := rfl
@[simp] theorem takeSample_adcIn (e : SampleEvent) (q : List SampleEvent) (s : State) : (takeSample e q s).adcIn = s.adcIn := rfl
@[simp] theorem takeSample_connIn (e : SampleEvent) (q : List SampleEvent) (s : State) : (takeSample e q s).connIn = s.connIn := rfl
@[simp] theorem takeSample_pubIn (e : SampleEvent) (q : List SampleEvent) (s : State) : (takeSample e q s).pubIn = s.pubIn := rfl
@[simp] theorem takeSample_tickIn (e : SampleEvent) (q : List SampleEvent) (s : State) : (takeSample e q s).tickIn = s.tickIn := rfl
@[simp] theorem takeSample_timeoutIn (e : SampleEvent) (q : List SampleEvent) (s : State) : (takeSample e q s).timeoutIn = s.timeoutIn := rfl
@[simp] theorem takeSample_freeDraws (e : SampleEvent) (q : List SampleEvent) (s : State) : (takeSample e q s).freeDraws = s.freeDraws := rfl
@[simp] theorem takeSample_out (e : SampleEvent) (q : List SampleEvent) (s : State) : (takeSample e q s).out = s.out := rfl

/-! ### `holdForSample` -/

@[simp] theorem holdForSample_fraAppending (k : Continuation) (s : State) : (holdForSample k s).fraAppending = s.fraAppending := rfl
@[simp] theorem holdForSample_appBuf (k : Continuation) (s : State) : (holdForSample k s).appBuf = s.appBuf := rfl
@[simp] theorem holdForSample_appLen (k : Continuation) (s : State) : (holdForSample k s).appLen = s.appLen := rfl
@[simp] theorem holdForSample_rxBuf (k : Continuation) (s : State) : (holdForSample k s).rxBuf = s.rxBuf := rfl
@[simp] theorem holdForSample_rxLen (k : Continuation) (s : State) : (holdForSample k s).rxLen = s.rxLen := rfl
@[simp] theorem holdForSample_commState (k : Continuation) (s : State) : (holdForSample k s).commState = s.commState := rfl
@[simp] theorem holdForSample_hlState (k : Continuation) (s : State) : (holdForSample k s).hlState = s.hlState := rfl
@[simp] theorem holdForSample_procedure (k : Continuation) (s : State) : (holdForSample k s).procedure = s.procedure := rfl
@[simp] theorem holdForSample_sampleIndex (k : Continuation) (s : State) : (holdForSample k s).sampleIndex = s.sampleIndex := rfl
@[simp] theorem holdForSample_pendingCmd (k : Continuation) (s : State) : (holdForSample k s).pendingCmd = s.pendingCmd := rfl
@[simp] theorem holdForSample_dir1 (k : Continuation) (s : State) : (holdForSample k s).dir1 = s.dir1 := rfl
@[simp] theorem holdForSample_dir2 (k : Continuation) (s : State) : (holdForSample k s).dir2 = s.dir2 := rfl
@[simp] theorem holdForSample_hdr (k : Continuation) (s : State) : (holdForSample k s).hdr = s.hdr := rfl
@[simp] theorem holdForSample_form2 (k : Continuation) (s : State) : (holdForSample k s).form2 = s.form2 := rfl
@[simp] theorem holdForSample_expectedLen (k : Continuation) (s : State) : (holdForSample k s).expectedLen = s.expectedLen := rfl
@[simp] theorem holdForSample_dataErr (k : Continuation) (s : State) : (holdForSample k s).dataErr = s.dataErr := rfl
@[simp] theorem holdForSample_chOp (k : Continuation) (s : State) : (holdForSample k s).chOp = s.chOp := rfl
@[simp] theorem holdForSample_activeMask (k : Continuation) (s : State) : (holdForSample k s).activeMask = s.activeMask := rfl
@[simp] theorem holdForSample_trigPeriodUs (k : Continuation) (s : State) : (holdForSample k s).trigPeriodUs = s.trigPeriodUs := rfl
@[simp] theorem holdForSample_trigCount (k : Continuation) (s : State) : (holdForSample k s).trigCount = s.trigCount := rfl
@[simp] theorem holdForSample_trigMode (k : Continuation) (s : State) : (holdForSample k s).trigMode = s.trigMode := rfl
@[simp] theorem holdForSample_timerArmed (k : Continuation) (s : State) : (holdForSample k s).timerArmed = s.timerArmed := rfl
@[simp] theorem holdForSample_timerPeriodUs (k : Continuation) (s : State) : (holdForSample k s).timerPeriodUs = s.timerPeriodUs := rfl
@[simp] theorem holdForSample_sq (k : Continuation) (s : State) : (holdForSample k s).sq = s.sq := rfl
@[simp] theorem holdForSample_lastMeas (k : Continuation) (s : State) : (holdForSample k s).lastMeas = s.lastMeas := rfl
@[simp] theorem holdForSample_lastStatus (k : Continuation) (s : State) : (holdForSample k s).lastStatus = s.lastStatus := rfl
@[simp] theorem holdForSample_taskPhase (k : Continuation) (s : State) : (holdForSample k s).taskPhase = .awaitSample := rfl
@[simp] theorem holdForSample_awaitCtx (k : Continuation) (s : State) : (holdForSample k s).awaitCtx = { kind := .hexList, cont := k } := rfl
@[simp] theorem holdForSample_params (k : Continuation) (s : State) : (holdForSample k s).params = s.params := rfl
@[simp] theorem holdForSample_rx (k : Continuation) (s : State) : (holdForSample k s).rx = s.rx := rfl
@[simp] theorem holdForSample_adcIn (k : Continuation) (s : State) : (holdForSample k s).adcIn = s.adcIn := rfl
@[simp] theorem holdForSample_connIn (k : Continuation) (s : State) : (holdForSample k s).connIn = s.connIn := rfl
@[simp] theorem holdForSample_pubIn (k : Continuation) (s : State) : (holdForSample k s).pubIn = s.pubIn := rfl
@[simp] theorem holdForSample_tickIn (k : Continuation) (s : State) : (holdForSample k s).tickIn = s.tickIn := rfl
@[simp] theorem holdForSample_timeoutIn (k : Continuation) (s : State) : (holdForSample k s).timeoutIn = s.timeoutIn := rfl
@[simp] theorem holdForSample_freeDraws (k : Continuation) (s : State) : (holdForSample k s).freeDraws = s.freeDraws := rfl
@[simp] theorem holdForSample_out (k : Continuation) (s : State) : (holdForSample k s).out = s.out := rfl

end Sys2Proof.Machine
end

