-- ==== Sys2Proof/Laws/Ops.lean ====
section
/-! SUPPORT. What the shared operations do, said once: the draws, the queue, the packets, and the frame
step. -/

namespace Sys2Proof.Machine

/-! ### Draws -/

@[simp] theorem drawAdc_snd (c : Channel) (s : State) :
    (drawAdc c s).2 = { s with
      adcIn := s.adcIn.tail, freeDraws := s.freeDraws + if s.adcIn = [] then 1 else 0 } := by
  unfold drawAdc; split <;> simp_all

@[simp] theorem drawConn_snd (s : State) :
    (drawConn s).2 = { s with
      connIn := s.connIn.tail, freeDraws := s.freeDraws + if s.connIn = [] then 1 else 0 } := by
  unfold drawConn; split <;> simp_all

@[simp] theorem drawPub_snd (s : State) :
    (drawPub s).2 = { s with
      pubIn := s.pubIn.tail, freeDraws := s.freeDraws + if s.pubIn = [] then 1 else 0 } := by
  unfold drawPub; split <;> simp_all

@[simp] theorem drawTimeout_snd (s : State) :
    (drawTimeout s).2 = { s with
      timeoutIn := s.timeoutIn.tail,
      freeDraws := s.freeDraws + if s.timeoutIn = [] then 1 else 0 } := by
  unfold drawTimeout; split <;> simp_all

@[simp] theorem drawTick_snd (s : State) :
    (drawTick s).2 = { s with
      tickIn := if s.timerArmed then s.tickIn.tail else s.tickIn,
      freeDraws := s.freeDraws + if s.timerArmed ∧ s.tickIn = [] then 1 else 0 } := by
  cases s; simp only [drawTick]; split <;> [split; skip] <;> simp_all

theorem drawAdc_fst_cons (c : Channel) (s : State) (v : FiniteF64) (vs : List FiniteF64)
    (h : s.adcIn = v :: vs) : (drawAdc c s).1 = v := by
  unfold drawAdc; rw [h]

/-- A tick is drawn only while the timer is armed. -/
theorem drawTick_fst_disarmed (s : State) (h : s.timerArmed = false) : (drawTick s).1 = false := by
  simp [drawTick, h]

theorem drawTick_fst_cons (s : State) (v : Bool) (vs : List Bool) (ha : s.timerArmed = true)
    (h : s.tickIn = v :: vs) : (drawTick s).1 = v := by
  simp [drawTick, ha, h]

@[simp] theorem readChannels_length (cs : List Channel) (s : State) :
    (readChannels cs s).1.length = cs.length := by
  induction cs generalizing s with
  | nil => rfl
  | cons c cs ih => simp [readChannels, ih]

/-- Reading channels takes one answer each from the `ADC` port and changes nothing else. -/
theorem readChannels_snd (cs : List Channel) (s : State) :
    (readChannels cs s).2 = { s with
      adcIn := s.adcIn.drop cs.length,
      freeDraws := s.freeDraws + (cs.length - s.adcIn.length) } := by
  induction cs generalizing s with
  | nil => simp [readChannels]
  | cons c cs ih =>
    cases h : s.adcIn with
    | nil =>
      simp [readChannels, ih, h]
      omega
    | cons v vs => simp [readChannels, ih, h]

/-- With enough scripted answers, the readings are those answers in order. -/
theorem readChannels_fst (cs : List Channel) (s : State) (h : cs.length ≤ s.adcIn.length) :
    (readChannels cs s).1 = (s.adcIn.take cs.length).map FiniteF64.toF64 := by
  induction cs generalizing s with
  | nil => simp [readChannels]
  | cons c cs ih =>
    cases ha : s.adcIn with
    | nil => simp [ha] at h
    | cons v vs =>
      have hlen : cs.length ≤ vs.length := by simpa [ha] using h
      have := ih (drawAdc c s).2 (by simpa [ha] using hlen)
      simp [readChannels, drawAdc_fst_cons c s v vs ha, ha] at this ⊢
      exact this

/-! ### Sample queue -/

/-- A push writes nothing but the queue. -/
theorem qpush_eq (e : SampleEvent) (s : State) :
    qpush e s = { s with sq := if s.sq.length < s.params.queueCap then s.sq ++ [e] else s.sq } := by
  unfold qpush; split <;> rfl

/-! ### Packets -/

theorem checksum_isNone (b : List Byte) : (checksum b).isNone = decide (b.length < 3) := by
  unfold checksum; split <;> simp_all

@[simp] theorem packetLenError_eq (p : List Byte) : packetLenError p = decide (p = []) := by
  cases p <;> simp [packetLenError, checksum_isNone]

/-- A packet is sent, and an empty one is reported after it (R147). -/
theorem sendPacket_eq (p : List Byte) (s : State) :
    sendPacket p s = { s with
      out := s.out ++ .tx (buildPacket p) :: if p = [] then [.diag .codecLen] else [] } := by
  unfold sendPacket
  by_cases h : p = [] <;> simp [h, emitOut]

@[simp] theorem withChecksum_length (b : List Byte) : (withChecksum b).length = b.length + 1 := by
  simp [withChecksum]

@[simp] theorem buildPacket_length (p : List Byte) : (buildPacket p).length = p.length + 2 := by
  simp [buildPacket]

/-! ### Running rows -/

@[simp] theorem andThen_next (s : State) (f : State → Result) : andThen (.next s) f = f s := rfl

/-- `andThen` answers a next state exactly when both parts do. -/
theorem andThen_eq_next (r : Result) (f : State → Result) (t : State) :
    andThen r f = .next t ↔ ∃ s, r = .next s ∧ f s = .next t := by
  cases r <;> simp [andThen]

/-- The command interpreter runs a command row as `exec` does. -/
theorem runCommand_eq_exec (i : Instr) (s : State) (h : (commandTokens i).isSome) :
    runCommand i s = exec i s := by
  cases i <;> first | rfl | simp [commandTokens] at h

end Sys2Proof.Machine
end

