-- ==== Sys2Proof/Laws/PerInstr.lean ====
section
/-! SUPPORT. The statement families that hold of every instruction, with one lemma per constructor. -/

namespace Sys2Proof.Laws.FitsFormat

open Sys2Proof Sys2Proof.Machine

/-- The lengths the format of a row allows (spec/30_encoding.md R101 to R106, spec/41_reassembler.md R170,
R175): a chunk row its own bound, a header 15 bytes, a command frame 3 to 30 bytes, and every other frame
1 to 30 bytes. -/
def lengthAllowed : Instr → Nat → Prop
  | .chunkEmpty, n => n = 0
  | .chunkAppendCont _, n => 1 ≤ n
  | .chunkAppendStart _, n => 3 ≤ n ∧ n ≤ 14
  | .chunkVerbatim _, n => 1 ≤ n
  | .hdrSend _, n | .hdrRecv _, n => n = 15
  | .startIdle _, n | .noise _, n | .hdrInvalid _ _, n | .data _, n | .ackBOkHdr _, n
  | .ackBOkPkt _, n | .ackBRetry _, n | .ackBError _, n | .startRestart _, n | .ackOther _ _, n
  | .roleswapStep _, n => 1 ≤ n ∧ n ≤ 30
  | .cmdClear, n | .cmdChsetup _ _, n | .cmdRate _ _, n | .cmdStatus, n | .cmdTrigger, n
  | .cmdMode _, n | .metaStatus, n | .metaSample1, n | .metaSample2, n | .metaSample3, n
  | .metaPublish1 _, n | .metaPublish2 _, n | .metaPublish3 _, n | .metaUnknown _, n
  | .cmdUnrecognized _, n => 3 ≤ n ∧ n ≤ 30

/-- The encoding of a well-formed instruction has a length its format allows. -/
def Statement (i : Instr) : Prop := i.wf = true → lengthAllowed i (encode i).length

theorem frameLength_iff (b : List Byte) : frameLength b = true ↔ 1 ≤ b.length ∧ b.length ≤ 30 := by
  simp only [frameLength, Bool.and_eq_true, decide_eq_true_eq]
  rfl

theorem encodeCommand_length (ts : List Token) :
    (encodeCommand ts).length = (joinCommas ts).length + 2 := by
  simp [encodeCommand]

/-- A command row whose tokens fit is 3 to 30 bytes long. -/
theorem of_commandFits (i : Instr) (t : Token) (ts : List Token) (hi : commandTokens i = some (t :: ts))
    (ht : t ≠ []) (h : commandFits i = true) :
    3 ≤ (encodeRow i).length ∧ (encodeRow i).length ≤ 30 := by
  have hpos : 0 < t.length := List.length_pos_of_ne_nil ht
  have hjoin : t.length ≤ (joinCommas (t :: ts)).length := by cases ts <;> simp [joinCommas]
  simp only [commandFits, hi, tokensFit, Bool.and_eq_true, decide_eq_true_eq] at h
  have e : rxCap = 30 := rfl
  simp only [encodeRow, hi, Option.getD_some, encodeCommand_length]
  omega

theorem chunkEmpty : Statement .chunkEmpty := fun _ => rfl

theorem chunkAppendCont (c : List Byte) : Statement (.chunkAppendCont c) := fun h => by
  simp only [Instr.wf, decide_eq_true_eq] at h
  exact h

theorem chunkAppendStart (c : List Byte) : Statement (.chunkAppendStart c) := fun h => by
  simp only [Instr.wf, startsAppend, Bool.and_eq_true, decide_eq_true_eq] at h
  have e : hdrLen = 15 := rfl
  exact ⟨by simp only [encode]; omega, by simp only [encode]; omega⟩

theorem chunkVerbatim (c : List Byte) : Statement (.chunkVerbatim c) := fun h => by
  simp only [Instr.wf, Bool.and_eq_true, decide_eq_true_eq] at h
  exact h.1

theorem startIdle (b : List Byte) : Statement (.startIdle b) := fun h => by
  simp only [Instr.wf, Bool.and_eq_true, frameLength_iff] at h
  exact h.1

theorem noise (b : List Byte) : Statement (.noise b) := fun h => by
  simp only [Instr.wf, Bool.and_eq_true, frameLength_iff] at h
  exact h.1

theorem hdrSend (h : HdrFields) : Statement (.hdrSend h) := fun _ => rfl

theorem hdrRecv (h : HdrFields) : Statement (.hdrRecv h) := fun _ => rfl

theorem hdrInvalid (e : FramingError) (b : List Byte) : Statement (.hdrInvalid e b) := fun h => by
  simp only [Instr.wf, Bool.and_eq_true, frameLength_iff] at h
  exact h.1

theorem data (b : List Byte) : Statement (.data b) := fun h => (frameLength_iff b).1 h

theorem cmdClear : Statement .cmdClear := fun _ => ⟨by decide, by decide⟩

theorem cmdChsetup (chan op : Token) : Statement (.cmdChsetup chan op) := fun h =>
  of_commandFits _ _ _ rfl (by decide) h

theorem cmdRate (period count : Token) : Statement (.cmdRate period count) := fun h =>
  of_commandFits _ _ _ rfl (by decide) h

theorem cmdStatus : Statement .cmdStatus := fun _ => ⟨by decide, by decide⟩

theorem cmdTrigger : Statement .cmdTrigger := fun _ => ⟨by decide, by decide⟩

theorem cmdMode (m : Token) : Statement (.cmdMode m) := fun h =>
  of_commandFits _ _ _ rfl (by decide) h

theorem metaStatus : Statement .metaStatus := fun _ => ⟨by decide, by decide⟩

theorem metaSample1 : Statement .metaSample1 := fun _ => ⟨by decide, by decide⟩

theorem metaSample2 : Statement .metaSample2 := fun _ => ⟨by decide, by decide⟩

theorem metaSample3 : Statement .metaSample3 := fun _ => ⟨by decide, by decide⟩

theorem metaPublish1 (v : Token) : Statement (.metaPublish1 v) := fun h =>
  of_commandFits _ _ _ rfl (by decide) h

theorem metaPublish2 (v : Token) : Statement (.metaPublish2 v) := fun h =>
  of_commandFits _ _ _ rfl (by decide) h

theorem metaPublish3 (v : Token) : Statement (.metaPublish3 v) := fun h =>
  of_commandFits _ _ _ rfl (by decide) h

theorem metaUnknown (t : Token) : Statement (.metaUnknown t) := fun h => by
  simp only [Instr.wf, Bool.and_eq_true] at h
  exact of_commandFits _ _ _ rfl (by decide) h.1

theorem cmdUnrecognized (t : Token) : Statement (.cmdUnrecognized t) := fun h => by
  simp only [Instr.wf, Bool.and_eq_true] at h
  refine of_commandFits _ _ _ rfl ?_ h.1
  rintro rfl
  exact absurd h.2 (by decide)

theorem ackBOkHdr (r : List Byte) : Statement (.ackBOkHdr r) := fun h => by
  simp only [Instr.wf, decide_eq_true_eq] at h
  have e : rxCap = 30 := rfl
  exact ⟨by simp [encode], by simp [encode]; omega⟩

theorem ackBOkPkt (r : List Byte) : Statement (.ackBOkPkt r) := fun h => by
  simp only [Instr.wf, decide_eq_true_eq] at h
  have e : rxCap = 30 := rfl
  exact ⟨by simp [encode], by simp [encode]; omega⟩

theorem ackBRetry (r : List Byte) : Statement (.ackBRetry r) := fun h => by
  simp only [Instr.wf, decide_eq_true_eq] at h
  have e : rxCap = 30 := rfl
  exact ⟨by simp [encode], by simp [encode]; omega⟩

theorem ackBError (r : List Byte) : Statement (.ackBError r) := fun h => by
  simp only [Instr.wf, decide_eq_true_eq] at h
  have e : rxCap = 30 := rfl
  exact ⟨by simp [encode], by simp [encode]; omega⟩

theorem startRestart (r : List Byte) : Statement (.startRestart r) := fun h => by
  simp only [Instr.wf, decide_eq_true_eq] at h
  have e : rxCap = 30 := rfl
  exact ⟨by simp [encode], by simp [encode]; omega⟩

theorem ackOther (b0 : Byte) (r : List Byte) : Statement (.ackOther b0 r) := fun h => by
  simp only [Instr.wf, Bool.and_eq_true, decide_eq_true_eq] at h
  have e : rxCap = 30 := rfl
  exact ⟨by simp [encode], by simp [encode]; omega⟩

theorem roleswapStep (b : List Byte) : Statement (.roleswapStep b) := fun h => (frameLength_iff b).1 h

end Sys2Proof.Laws.FitsFormat
end

