-- ==== Sys2Proof/Laws/Rules.lean ====
section
/-! SUPPORT. What the operations the rules share do, said once: the rows the decoders give, the updates
of the command and header rules as one record update each, and the frame step. -/

namespace Sys2Proof.Machine

/-! ### Chunks -/

/-- The chunks that open an append (spec/41_reassembler.md R170): 3 to 14 bytes that begin `":N"` or
`":R"`. -/
theorem startsAppend_iff (b : List Byte) :
    startsAppend b = true ↔ 3 ≤ b.length ∧ b.length ≤ 14 ∧ b[0]? = some 0x3A ∧
      (b[1]? = some 0x4E ∨ b[1]? = some 0x52) := by
  have hlen : b.length ≤ 14 ↔ b.length < 15 := by omega
  simp only [startsAppend, Bool.and_eq_true, decide_eq_true_eq, and_assoc, hlen]
  refine and_congr_right fun _ => and_congr_right fun _ => ?_
  rcases b with _ | ⟨x, _ | ⟨y, r⟩⟩ <;> simp [wireMark, wireDirSend, wireDirRecv]

/-! ### Rows -/

/-- The command decoder gives command rows only. -/
theorem commandTokens_of_decodeMeta (ts : List Token) (i : Instr) (h : decodeMeta ts = .ok i) :
    (commandTokens i).isSome = true := by
  cases ts with
  | nil => simp [decodeMeta] at h
  | cons t more =>
    unfold decodeMeta at h
    dsimp only at h
    split_ifs at h <;> cases more <;> simp only [Except.ok.injEq, reduceCtorEq] at h <;> subst h <;> rfl

/-- The command decoder gives command rows only. -/
theorem commandTokens_of_decodeTokens (ts : List Token) (i : Instr) (h : decodeTokens ts = .ok i) :
    (commandTokens i).isSome = true := by
  rcases ts with _ | ⟨t0, _ | ⟨t1, _ | ⟨t2, ts⟩⟩⟩
  · simp [decodeTokens] at h
  all_goals
    unfold decodeTokens at h
    dsimp only at h
    split_ifs at h
  all_goals
    first
      | exact commandTokens_of_decodeMeta _ _ h
      | (injection h with h; subst h; rfl)

/-- The protocol state machine runs a frame row as `exec` does. -/
theorem runFrame_of_decodeFrame (st : CommState) (b : List Byte) (i : Instr)
    (h : decodeFrame st b = .ok i) (s : State) : runFrame i s = exec i s := by
  cases b with
  | nil => simp [decodeFrame] at h
  | cons b0 rest =>
    cases st <;> simp only [decodeFrame, Except.ok.injEq] at h <;> subst h <;>
      first
        | rfl
        | (split <;> rfl)
        | (unfold decodeAck; split_ifs <;> rfl)
        | (unfold decodeHeaderFrame; repeat' (first | rfl | split))

/-- Every frame of at least one byte selects a row. -/
theorem decodeFrame_ok (st : CommState) (b : List Byte) (h : b ≠ []) :
    ∃ i, decodeFrame st b = .ok i := by
  cases b with
  | nil => exact absurd rfl h
  | cons b0 rest => cases st <;> exact ⟨_, rfl⟩

/-- One frame step: the row the frame selects in the present state, and the end of the frame. -/
theorem psmStep_loadFrame (f : List Byte) (s : State) (i : Instr) (hf : f.length ≤ 30)
    (h : decodeFrame s.commState f = .ok i) :
    psmStep (loadFrame f s) = andThen (exec i (loadFrame f s)) fun t => .next (endFrame t) := by
  have hr := runFrame_of_decodeFrame _ _ _ h (loadFrame f s)
  unfold psmStep
  rw [frame_loadFrame f s hf, loadFrame_commState, h]
  simp only [hr]

/-! ### Updates -/

theorem endFrame_eq (s : State) :
    endFrame s = { s with rxLen := if s.taskPhase = .ready then 0 else s.rxLen } := by
  cases s; unfold endFrame; split <;> simp_all [clearFrame]

/-- Storing a channel's code writes the code and at most one diagnostic (R198). -/
theorem setChannelOp_eq (c : Channel) (op : I32) (s : State) :
    setChannelOp c op s = { s with
      chOp := s.chOp.set c op
      out := s.out ++ if op = 2 then [] else [.diag .unsupportedOp] } := by
  unfold setChannelOp; dsimp only; split <;> simp [emitOut]

/-- A publish calls the sink, takes its answer, and reports a refusal (R206). -/
theorem publish_eq (k : Channel) (v : Token) (s : State) :
    publish k v s = { s with
      pubIn := s.pubIn.tail
      freeDraws := s.freeDraws + if s.pubIn = [] then 1 else 0
      out := s.out ++ .pub k v ::
        if s.pubIn.headD (Config.pubDraw s.freeDraws) then [] else [.diag .publishDropped] } := by
  cases h : s.pubIn with
  | nil => unfold publish; dsimp only; split <;> simp_all [drawPub, emitOut]
  | cons p ps => unfold publish; dsimp only; split <;> simp_all [drawPub, emitOut]

/-- The announced length, clamped, and the overflow diagnostic (R237). -/
theorem announceLength_eq (size : U16) (s : State) :
    announceLength size s = { s with
      expectedLen := min (size.toNat + 2) 30
      out := s.out ++ if 28 < size.toNat then [.diag .payloadOverflow] else [] } := by
  unfold announceLength rxCap
  by_cases h : 28 < size.toNat
  · have h2 : 30 < size.toNat + 2 := by omega
    simp [h, h2, emitOut]; omega
  · have h2 : ¬ 30 < size.toNat + 2 := by omega
    simp [h, h2]; omega

/-- The real-time tail (R251). -/
theorem realTimeTail_eq (s : State) :
    realTimeTail s = { s with
      commState := .waitingPacketAck
      timerArmed := s.timerArmed && decide (s.sampleIndex.toNat < s.trigCount.toNat) } := by
  unfold realTimeTail
  by_cases h : s.trigCount.toNat ≤ s.sampleIndex.toNat
  · have h2 : ¬ s.sampleIndex.toNat < s.trigCount.toNat := by omega
    simp [h, disarm]
  · have h2 : s.sampleIndex.toNat < s.trigCount.toNat := by omega
    simp [h, h2]

/-- A voltage-list packet with its count and its tail (R250, R251, R260). -/
theorem finishList_eq (k : Continuation) (p : List Byte) (s : State) :
    finishList k p s = { s with
      sampleIndex := s.sampleIndex + 1
      commState := if k = .batchTail then s.commState else .waitingPacketAck
      timerArmed := if k = .batchTail then s.timerArmed
        else s.timerArmed && decide ((s.sampleIndex + 1).toNat < s.trigCount.toNat)
      out := s.out ++ .tx (buildPacket p) :: if p = [] then [.diag .codecLen] else [] } := by
  cases k <;> simp [finishList, sendPacket_eq, realTimeTail_eq]

/-- The status byte takes three answers and changes nothing else (R257). -/
theorem statusByte_snd (s : State) :
    (statusByte s).2 = { s with
      connIn := s.connIn.drop 3
      freeDraws := s.freeDraws + (3 - s.connIn.length) } := by
  unfold statusByte
  rcases s with ⟨⟩
  rename_i conn pub tick time free out
  rcases conn with _ | ⟨a, _ | ⟨b, _ | ⟨c, l⟩⟩⟩ <;> simp [drawConn]

/-- One channel of the tick changes at most the port of the readings. -/
theorem tickChannel_snd (c : Channel) (s : State) :
    (tickChannel c s).2 = { s with
      adcIn := if s.activeMask.getLsbD c.index then s.adcIn.tail else s.adcIn
      freeDraws := s.freeDraws +
        if s.activeMask.getLsbD c.index ∧ s.adcIn = [] then 1 else 0 } := by
  unfold tickChannel; dsimp only; split <;> simp_all

/-- What an open append takes of a chunk (R174). -/
theorem appendChunk_eq (c : List Byte) (s : State) (h : s.appLen ≤ 15) :
    appendChunk c s = { s with
      appBuf := memWrite s.appBuf s.appLen (c.take (15 - s.appLen))
      appLen := s.appLen + min c.length (15 - s.appLen)
      out := s.out ++ if 15 < s.appLen + c.length then [.diag .appendCapacity] else [] } := by
  have e : c.take (min c.length (15 - s.appLen)) = c.take (15 - s.appLen) := by
    rcases Nat.le_total c.length (15 - s.appLen) with h | h
    · rw [Nat.min_eq_left h, List.take_of_length_le h, List.take_of_length_le (Nat.le_refl _)]
    · rw [Nat.min_eq_right h]
  unfold appendChunk hdrLen
  dsimp only
  rw [e]
  by_cases hk : 15 < s.appLen + c.length
  · rw [if_pos (by omega), if_pos hk]; simp [emitOut]
  · rw [if_neg (by omega), if_neg hk]; simp

/-- A held frame goes on with its packet, its count, its tail and its end (R262). -/
theorem finishHeld_eq (s : State) :
    finishHeld s = { s with
      taskPhase := .ready
      rxLen := 0
      sampleIndex := s.sampleIndex + 1
      commState := if s.awaitCtx.cont = .batchTail then s.commState else .waitingPacketAck
      timerArmed := if s.awaitCtx.cont = .batchTail then s.timerArmed
        else s.timerArmed && decide ((s.sampleIndex + 1).toNat < s.trigCount.toNat)
      out := s.out ++ .tx (buildPacket (hexPayload s)) ::
        if hexPayload s = [] then [.diag .codecLen] else [] } := by
  unfold finishHeld
  dsimp only
  rw [endFrame_eq, finishList_eq]
  simp
  exact ⟨rfl, rfl⟩

/-! ### Channels and readings -/

theorem activeChannels_length (s : State) :
    (activeChannels s).length = Channel.all.countP (fun c => s.chOp.get c != 0) := by
  rw [List.countP_eq_length_filter]; rfl

theorem activeChannels_eq_nil (s : State) : activeChannels s = [] ↔ s.chOp = ⟨0, 0, 0⟩ := by
  rcases hs : s.chOp with ⟨a, b, c⟩
  simp [activeChannels, Channel.all, channelActive, Triple.get, hs]

@[simp] theorem hexList_eq_nil (ks : List U16) : hexList ks = [] ↔ ks = [] := by
  cases ks <;> simp [hexList, littleEndian16]

/-- An answer of the `ADC` port is finite (R5). -/
@[simp] theorem toF64_finite (v : FiniteF64) : f64IsFinite v.toF64 = true := by
  have h1 := v.expo.2
  have h2 := v.frac.isLt
  have h3 : v.neg.toNat ≤ 1 := by cases v.neg <;> decide
  simp [f64IsFinite, f64Expo, FiniteF64.toF64]
  omega

/-- The comparison that ends a batch is one of numbers (R250). -/
theorem batch_count_iff (s : State) :
    s.sampleIndex.zeroExtend 32 = s.trigCount ↔ s.sampleIndex.toNat = s.trigCount.toNat := by
  constructor
  · intro h; rw [← h]; simp; omega
  · intro h; apply BitVec.eq_of_toNat_eq; simp; omega

/-! ### Steps -/

/-- Every frame row answers a next state. -/
theorem exec_next_of_decodeFrame (i : Instr) (s : State) (st : CommState) (b : List Byte)
    (h : decodeFrame st b = .ok i) : ∃ t, exec i s = .next t := by
  rw [← runFrame_of_decodeFrame st b i h s]
  cases i
  case data b =>
    simp only [runFrame, execData, interpret]
    cases hd : decodeCommand b with
    | error e => exact ⟨_, rfl⟩
    | ok j =>
      have hj := commandTokens_of_decodeTokens _ _ hd
      simp only [runCommand_eq_exec _ _ hj]
      cases j <;> first | exact absurd hj Bool.false_ne_true | exact ⟨_, rfl⟩ | skip
      simp only [exec, execCmdChsetup]
      split <;> exact ⟨_, rfl⟩
  case ackBOkHdr r =>
    simp only [runFrame, execAckBOkHdr]
    split <;> [skip; skip; skip; split] <;> exact ⟨_, rfl⟩
  all_goals
    first
      | exact ⟨_, rfl⟩
      | (exfalso
         cases b with
         | nil => exact absurd h (by simp [decodeFrame])
         | cons b0 rest =>
           cases st <;> simp [decodeFrame, decodeAck, decodeHeaderFrame] at h <;>
             (try split_ifs at h) <;> (try (split at h <;> try split at h)) <;> simp at h)

/-- The frame step of a loaded frame answers a next state: its row runs and the frame ends. -/
theorem psmStep_next (f : List Byte) (s : State) (h0 : f ≠ []) (h : f.length ≤ 30) :
    ∃ i t, decodeFrame s.commState f = .ok i ∧ exec i (loadFrame f s) = .next t ∧
      psmStep (loadFrame f s) = .next (endFrame t) := by
  obtain ⟨i, hi⟩ := decodeFrame_ok s.commState f h0
  obtain ⟨t, ht⟩ := exec_next_of_decodeFrame i (loadFrame f s) _ _ hi
  exact ⟨i, t, hi, ht, by rw [psmStep_loadFrame f s i h hi, ht]; rfl⟩


/-- The two things a step can be. -/
theorem step_cases (s t : State) (h : step s = .next t) :
    (s.timerArmed = true ∧ t = tick (drawTick s).2) ∨ taskStep (drawTick s).2 = .next t := by
  unfold step at h
  dsimp only at h
  split at h
  · rename_i hd
    refine .inl ⟨?_, by injection h with h; exact h.symm⟩
    by_contra hc
    rw [drawTick_fst_disarmed s (by simpa using hc)] at hd
    exact absurd hd (by decide)
  · exact .inr h

/-- The three things a `TASK` step can be. -/
theorem taskStep_cases (s t : State) (h : taskStep s = .next t) :
    (s.taskPhase = .awaitSample ∧ t = resumeSample s) ∨
    (s.taskPhase = .ready ∧ s.rx = [] ∧ t = s) ∨
    (s.taskPhase = .ready ∧ ∃ c more, s.rx = c :: more ∧
      exec (decodeChunk s.fraAppending c) { s with rx := more } = .next t) := by
  unfold taskStep at h
  split at h
  · injection h with h; exact .inl ⟨by assumption, h.symm⟩
  · rename_i hp
    split at h
    · injection h with h; exact .inr (.inl ⟨hp, by assumption, h.symm⟩)
    · exact .inr (.inr ⟨hp, _, _, by assumption, h⟩)

end Sys2Proof.Machine
end

