-- ==== Sys2Proof/Tests/Slice0.lean ====
section
/-! SUPPORT. Tests: the checks of `WellFormed`, one decoded word of every row, one step of every row, and
for every obligation with hypotheses a state and operands that meet them. -/

namespace Sys2Proof.Tests

open Sys2Proof Sys2Proof.Machine

set_option Elab.async false

/-- The result is a next state that passes a check. -/
def answers (r : Result) (check : State → Bool) : Bool :=
  match r with
  | .next t => check t
  | .fault _ | .refused _ => false

/-- One step that takes a chunk, with no tick before it. -/
def feed (c : List Byte) (s : State) : Result := step { s with rx := [c], tickIn := [false] }

/-- The finite value of a bit pattern. -/
def finite (v : F64) : FiniteF64 := ⟨f64Neg v, Fin.ofNat 2047 (f64Expo v), BitVec.ofNat 52 (f64Frac v)⟩

/-- The header `HDR(N, A, V, 5)` of program P1 (spec/95_test_vectors.md). -/
def header5 : List Byte := [0x3A, 0x4E, 0x41, 0x56, 0, 0, 0, 0, 0, 0, 0, 5, 0xFF, 0x41, 0xD6]

/-! ### WellFormed: one ill-formed term for each check -/

theorem test_wf_refuses_empty_cont :
    Instr.wf (.chunkAppendCont []) = false := by decide

theorem test_wf_refuses_short_start :
    Instr.wf (.chunkAppendStart [0x3A, 0x4E]) = false := by decide

theorem test_wf_refuses_long_start :
    Instr.wf (.chunkAppendStart ([0x3A, 0x4E] ++ List.replicate 13 0)) = false := by decide

theorem test_wf_refuses_start_mark :
    Instr.wf (.chunkAppendStart [0x3B, 0x4E, 0x00]) = false := by decide

theorem test_wf_refuses_start_direction :
    Instr.wf (.chunkAppendStart [0x3A, 0x51, 0x00]) = false := by decide

theorem test_wf_refuses_empty_verbatim :
    Instr.wf (.chunkVerbatim []) = false := by decide

theorem test_wf_refuses_verbatim_start :
    Instr.wf (.chunkVerbatim [0x3A, 0x52, 0x00]) = false := by decide

theorem test_wf_refuses_empty_frame :
    Instr.wf (.data []) = false := by decide

theorem test_wf_refuses_long_frame :
    Instr.wf (.roleswapStep (List.replicate 31 0)) = false := by decide

theorem test_wf_refuses_start_without_indicator :
    Instr.wf (.startIdle [0x3A, 0x30, 0xD0]) = false := by decide

theorem test_wf_refuses_noise_with_indicator :
    Instr.wf (.noise [0x06, 0x15]) = false := by decide

theorem test_wf_refuses_send_checksum :
    Instr.wf (.hdrSend {
        typeByte := 0x41, formByte := 0x56, line := 0x1234, offset := 0x56789ABC,
        packetSize := 3, pad := 0xFF, area := 0x41, checksum := 0x6F }) = false := by decide

theorem test_wf_refuses_recv_checksum :
    Instr.wf (.hdrRecv {
        typeByte := 0x48, formByte := 0x4C, line := 0, offset := 0, packetSize := 0, pad := 0xFF, area := 0x41, checksum := 0xDB }) = false := by decide

theorem test_wf_refuses_valid_header_as_invalid :
    Instr.wf (.hdrInvalid .checksum [0x3A, 0x4E, 0x41, 0x56, 0x12, 0x34, 0x56, 0x78, 0x9A, 0xBC, 0x00, 0x03, 0xFF, 0x41, 0x6E]) = false := by decide

theorem test_wf_refuses_later_check_first :
    Instr.wf (.hdrInvalid .start [0x3B, 0x4E]) = false := by decide

theorem test_wf_refuses_comma_in_token :
    Instr.wf (.cmdMode [0x31, 0x2C]) = false := by decide

theorem test_wf_refuses_seven_tokens :
    tokensFit (List.replicate 7 [0x31]) = false := by decide

theorem test_wf_refuses_long_command :
    Instr.wf (.metaPublish1 (List.replicate 21 0x31)) = false := by decide

theorem test_wf_refuses_known_selector :
    Instr.wf (.metaUnknown [0x32, 0x31]) = false := by decide

theorem test_wf_refuses_known_command :
    Instr.wf (.cmdUnrecognized [0x31, 0x32]) = false := by decide

theorem test_wf_refuses_long_ack :
    Instr.wf (.ackBOkHdr (List.replicate 30 0)) = false := by decide

theorem test_wf_refuses_known_ack :
    Instr.wf (.ackOther 0x22 []) = false := by decide

/-! ### Decoding: a word of every row, written out from the formats of spec/30_encoding.md

The words are those of spec/95_test_vectors.md sections 2.2 to 2.4, or a chunk or text of the row's own
condition. -/

theorem test_decode_chunkEmpty :
    decode (.chunk true)
      [] =
      .ok (.chunkEmpty) := by decide

theorem test_decode_chunkAppendCont :
    decode (.chunk true)
      [0x00, 0x00, 0x01] =
      .ok (.chunkAppendCont [0x00, 0x00, 0x01]) := by decide

theorem test_decode_chunkAppendStart :
    decode (.chunk false)
      [0x3A, 0x4E, 0x41, 0x56, 0x00, 0x00, 0x00] =
      .ok (.chunkAppendStart [0x3A, 0x4E, 0x41, 0x56, 0x00, 0x00, 0x00]) := by decide

theorem test_decode_chunkVerbatim :
    decode (.chunk false)
      [0x3A, 0x4E] =
      .ok (.chunkVerbatim [0x3A, 0x4E]) := by decide

theorem test_decode_startIdle :
    decode (.frame .idle)
      [0x06, 0x15] =
      .ok (.startIdle [0x06, 0x15]) := by decide

theorem test_decode_noise :
    decode (.frame .idle)
      [0x3A, 0x30, 0xD0] =
      .ok (.noise [0x3A, 0x30, 0xD0]) := by decide

theorem test_decode_hdrSend :
    decode (.frame .waitingInstruction)
      [0x3A, 0x4E, 0x41, 0x56, 0x12, 0x34, 0x56, 0x78, 0x9A, 0xBC, 0x00, 0x03, 0xFF, 0x41, 0x6E] =
      .ok (.hdrSend {
        typeByte := 0x41, formByte := 0x56, line := 0x1234, offset := 0x56789ABC,
        packetSize := 3, pad := 0xFF, area := 0x41, checksum := 0x6E }) := by decide

theorem test_decode_hdrRecv :
    decode (.frame .waitingInstruction)
      [0x3A, 0x52, 0x48, 0x4C, 0x00, 0x00, 0x00, 0x00, 0x00, 0x00, 0x00, 0x00, 0xFF, 0x41, 0xDA] =
      .ok (.hdrRecv {
        typeByte := 0x48, formByte := 0x4C, line := 0, offset := 0, packetSize := 0, pad := 0xFF, area := 0x41, checksum := 0xDA }) := by decide

theorem test_decode_hdrInvalid :
    decode (.frame .waitingInstruction)
      [0x3A, 0x51, 0x41, 0x56, 0x00, 0x00, 0x00, 0x00, 0x00, 0x00, 0x00, 0x00, 0xFF, 0x41, 0xD8] =
      .ok (.hdrInvalid .direction [0x3A, 0x51, 0x41, 0x56, 0x00, 0x00, 0x00, 0x00, 0x00, 0x00, 0x00, 0x00, 0xFF, 0x41, 0xD8]) := by decide

theorem test_decode_data :
    decode (.frame .waitingData)
      [0x3A, 0x37, 0xC9] =
      .ok (.data [0x3A, 0x37, 0xC9]) := by decide

theorem test_decode_cmdClear :
    decode .command
      [0x3A, 0x30, 0x2C, 0x39, 0x2C, 0x39, 0x06] =
      .ok (.cmdClear) := by decide

theorem test_decode_cmdChsetup :
    decode .command
      [0x3A, 0x31, 0x2C, 0x31, 0x2C, 0x32, 0x14] =
      .ok (.cmdChsetup [0x31] [0x32]) := by decide

theorem test_decode_cmdRate :
    decode .command
      [0x3A, 0x33, 0x2C, 0x30, 0x2E, 0x32, 0x35, 0x2C, 0x31, 0x30, 0x4F] =
      .ok (.cmdRate [0x30, 0x2E, 0x32, 0x35] [0x31, 0x30]) := by decide

theorem test_decode_cmdStatus :
    decode .command
      [0x3A, 0x37, 0xC9] =
      .ok (.cmdStatus) := by decide

theorem test_decode_cmdTrigger :
    decode .command
      [0x3A, 0x38, 0xC8] =
      .ok (.cmdTrigger) := by decide

theorem test_decode_cmdMode :
    decode .command
      [0x3A, 0x31, 0x32, 0x2C, 0x31, 0x40] =
      .ok (.cmdMode [0x31]) := by decide

theorem test_decode_metaStatus :
    decode .command
      [0x3A, 0x32, 0x30, 0x30, 0x31, 0x2C, 0x30, 0xE1] =
      .ok (.metaStatus) := by decide

theorem test_decode_metaSample1 :
    decode .command
      [0x3A, 0x32, 0x30, 0x30, 0x31, 0x2C, 0x31, 0xE0] =
      .ok (.metaSample1) := by decide

theorem test_decode_metaSample2 :
    decode .command
      [0x3A, 0x32, 0x30, 0x30, 0x31, 0x2C, 0x32, 0xDF] =
      .ok (.metaSample2) := by decide

theorem test_decode_metaSample3 :
    decode .command
      [0x3A, 0x32, 0x30, 0x30, 0x31, 0x2C, 0x33, 0xDE] =
      .ok (.metaSample3) := by decide

theorem test_decode_metaPublish1 :
    decode .command
      [0x3A, 0x32, 0x30, 0x30, 0x31, 0x2C, 0x32, 0x31, 0x2C, 0x33, 0x2E, 0x33, 0xEE] =
      .ok (.metaPublish1 [0x33, 0x2E, 0x33]) := by decide

theorem test_decode_metaPublish2 :
    decode .command
      [0x3A, 0x32, 0x30, 0x30, 0x31, 0x2C, 0x32, 0x32, 0x2C, 0x33, 0x2E, 0x33, 0xED] =
      .ok (.metaPublish2 [0x33, 0x2E, 0x33]) := by decide

theorem test_decode_metaPublish3 :
    decode .command
      [0x3A, 0x32, 0x30, 0x30, 0x31, 0x2C, 0x32, 0x33, 0x2C, 0x33, 0x2E, 0x33, 0xEC] =
      .ok (.metaPublish3 [0x33, 0x2E, 0x33]) := by decide

theorem test_decode_metaUnknown :
    decode .command
      [0x3A, 0x32, 0x30, 0x30, 0x31, 0x2C, 0x34, 0xDD] =
      .ok (.metaUnknown [0x34]) := by decide

theorem test_decode_cmdUnrecognized :
    decode .command
      [0x3A, 0x35, 0x2C, 0x31, 0x6E] =
      .ok (.cmdUnrecognized [0x35]) := by decide

theorem test_decode_ackBOkHdr :
    decode (.frame .waitingHeaderAck)
      [0x06, 0x41] =
      .ok (.ackBOkHdr [0x41]) := by decide

theorem test_decode_ackBOkPkt :
    decode (.frame .waitingPacketAck)
      [0x06] =
      .ok (.ackBOkPkt []) := by decide

theorem test_decode_ackBRetry :
    decode (.frame .waitingPacketAck)
      [0x05] =
      .ok (.ackBRetry []) := by decide

theorem test_decode_ackBError :
    decode (.frame .waitingHeaderAck)
      [0x22] =
      .ok (.ackBError []) := by decide

theorem test_decode_startRestart :
    decode (.frame .waitingHeaderAck)
      [0x15, 0x06] =
      .ok (.startRestart [0x06]) := by decide

theorem test_decode_ackOther :
    decode (.frame .waitingHeaderAck)
      [0x13] =
      .ok (.ackOther 0x13 []) := by decide

theorem test_decode_roleswapStep :
    decode (.frame .waitingRoleswap)
      [0x15] =
      .ok (.roleswapStep [0x15]) := by decide

/-- `2001,21` (section 2.3): a rejection by name. -/
theorem test_decode_missing_value :
    decode .command [0x3A, 0x32, 0x30, 0x30, 0x31, 0x2C, 0x32, 0x31, 0xAE] = .error .tokenCount := by decide

/-- Section 2.3, `3,0.25,10`. -/
theorem test_encode_command :
    encode (.cmdRate [0x30, 0x2E, 0x32, 0x35] [0x31, 0x30]) = [0x3A, 0x33, 0x2C, 0x30, 0x2E, 0x32, 0x35, 0x2C, 0x31, 0x30, 0x4F] := by decide

/-! ### Packet codec (spec/95_test_vectors.md V-S1 to V-S3, section 2.1) -/

theorem test_checksum :
    checksum [0x3A, 0x31, 0x2C, 0x31, 0x2C, 0x32, 0x00] = some 0x14 ∧ verifyChecksum [0x3A, 0x31, 0x2C, 0x31, 0x2C, 0x32, 0x14] = true ∧
      verifyChecksum [0x3A, 0x31, 0x2D, 0x31, 0x2C, 0x32, 0x14] = false ∧ verifyChecksum [0x3A, 0x00] = false := by decide

/-- 1.2345, -0.5, 1.23456, 0.9999999, -1234.5, 1234567.0, -0.0 and 1e-310. -/
theorem test_fixed_ascii :
    ([0x3FF3C083126E978D,
      0xBFE0000000000000,
      0x3FF3C0C1FC8F3238,
      0x3FEFFFFFCA501ACB,
      0xC0934A0000000000,
      0x4132D68700000000,
      0x8000000000000000,
      0x000012688B70E62B] : List F64).map encodeFixedAscii =
      [[0x31, 0x2E, 0x32, 0x33, 0x34, 0x35],
       [0x2D, 0x30, 0x2E, 0x35, 0x30, 0x30],
       [0x31, 0x2E, 0x32, 0x33, 0x34, 0x35],
       [0x31, 0x2E, 0x30, 0x30, 0x30, 0x30],
       [0x2D, 0x31, 0x32, 0x33, 0x34, 0x2E],
       [0x31, 0x32, 0x33, 0x34, 0x35, 0x36],
       [0x2D, 0x30, 0x2E, 0x30, 0x30, 0x30],
       [0x30, 0x2E, 0x30, 0x30, 0x30, 0x30]] := by decide +kernel

/-- 0.0, 1.2345, -0.5, -5.0, 10.0, 11.0, -10.0, +inf and -inf. -/
theorem test_rescale :
    ([0x0000000000000000,
      0x3FF3C083126E978D,
      0xBFE0000000000000,
      0xC014000000000000,
      0x4024000000000000,
      0x4026000000000000,
      0xC024000000000000,
      0x7FF0000000000000,
      0xFFF0000000000000] : List F64).map rescale12bit =
      [2075, 2309, 1980, 1124, 3975, 3975, 174, 3975, 174] := by decide +kernel

theorem test_lists :
    buildPacket (asciiList [0x400A666666666666, 0xBFE0000000000000, 0x4024000000000000]) =
      [0x3A, 0x33, 0x2E, 0x33, 0x30, 0x30, 0x30, 0x2C, 0x2D, 0x30, 0x2E, 0x35, 0x30, 0x30, 0x2C, 0x31, 0x30, 0x2E, 0x30, 0x30, 0x30, 0x45] ∧
    buildPacket (hexList [2550, 2075, 174]) = [0x3A, 0xF6, 0x09, 0x1B, 0x08, 0xAE, 0x00, 0x30] ∧
    buildPacket [] = [0x3A, 0x00] := by decide +kernel

theorem test_header :
    buildHeader Params.reference 0x48 0x4C 6 0x4D = [0x3A, 0x4E, 0x48, 0x4C, 0x00, 0x00, 0x00, 0x00, 0x00, 0x00, 0x00, 0x06, 0xFF, 0x4D, 0xCC] := by decide

/-- The table of token values of section 2.3. -/
theorem test_int_arg :
    ([[0x31, 0x32],
      [0x2B, 0x37],
      [0x2D, 0x31],
      [],
      [0x61, 0x62, 0x63],
      [0x20, 0x31],
      [0x33, 0x78],
      [0x31, 0x65, 0x2D, 0x33],
      [0x34, 0x32, 0x39, 0x34, 0x39, 0x36, 0x37, 0x32, 0x39, 0x37],
      [0x32, 0x31, 0x34, 0x37, 0x34, 0x38, 0x33, 0x36, 0x34, 0x38],
      [0x30, 0x2E, 0x32, 0x35],
      [0x2D, 0x2E, 0x35],
      [0x31, 0x2E],
      [0x31, 0x2E, 0x30, 0x65, 0x39, 0x39, 0x39]] : List Token).map (fun t => (intArg t).toInt) =
      [12, 7, -1, 0, 0, 0, 3, 1, 1, -2147483648, 0, 0, 1, 2147483647] := by decide +kernel

theorem test_float_value :
    tokFloat [0x30, 0x2E, 0x32, 0x35] = 0x3FD0000000000000 ∧ tokFloat [0x2D, 0x2E, 0x35] = 0xBFE0000000000000 ∧ tokFloat [0x33, 0x2E, 0x33] = 0x400A666666666666 := by decide +kernel

/-! ### One step on a small state (spec/95_test_vectors.md; the vector is named) -/

/-- Section 2.2, the empty chunk. -/
theorem test_step_chunkEmpty :
    answers (feed []
      ({ State.reset with fraAppending := true, appLen := 7 })) (fun t =>
      decide (t = { State.reset with fraAppending := true, appLen := 7, tickIn := [false] })) = true := by decide

/-- V-S8. -/
theorem test_step_chunkAppendStart :
    answers (feed [0x3A, 0x4E, 0x41, 0x56, 0x00, 0x00, 0x00]
      ({ State.reset with commState := .waitingInstruction })) (fun t =>
      decide (t.fraAppending = true ∧ t.appLen = 7 ∧ t.out = [])) = true := by decide

/-- Section 2.2, a fragment-like data packet is held. -/
theorem test_step_chunkAppendStart_waitingData :
    answers (feed [0x3A, 0x4E, 0x31, 0x81]
      ({ State.reset with commState := .waitingData })) (fun t =>
      decide (t.appLen = 4 ∧ t.commState = .waitingData ∧ t.out = [])) = true := by decide

/-- Section 2.2, the surplus byte 44 is lost. -/
theorem test_step_chunkAppendCont :
    answers (feed [0x00, 0x00, 0x01, 0x00, 0x09, 0xFF, 0x41, 0xD1, 0x44]
      ({ State.reset with
        commState := .waitingInstruction, fraAppending := true, appLen := 7,
        appBuf := memWrite (Vector.replicate 15 0) 0 [0x3A, 0x4E, 0x41, 0x56, 0x00, 0x00, 0x00] })) (fun t =>
      decide (t.out = [.diag .appendCapacity, .tx [0x06]] ∧ t.commState = .waitingData ∧ t.expectedLen = 11 ∧ t.appLen = 0)) = true := by decide

/-- Section 2.2, 31 bytes are cut to 30. -/
theorem test_step_chunkVerbatim :
    answers (feed ([0x3A, 0x31, 0x2C, 0x31, 0x2C, 0x32] ++ (List.replicate 12 [0x2C, 0x30]).flatten ++ [0xC4])
      ({ State.reset with commState := .waitingData })) (fun t =>
      decide (t.chOp = ⟨2, 0, 0⟩ ∧ t.out = [.tx [0x06]])) = true := by decide

/-- Section 2.4. -/
theorem test_step_startIdle :
    answers (feed [0x06, 0x15]
      (State.reset)) (fun t =>
      decide (t.out = [.tx [0x13]] ∧ t.commState = .waitingInstruction)) = true := by decide

/-- Section 2.4. -/
theorem test_step_noise :
    answers (feed [0x3A, 0x30, 0xD0]
      (State.reset)) (fun t =>
      decide (t.out = [.diag .idleNoise] ∧ t.commState = .idle)) = true := by decide

/-- Section 2.4. -/
theorem test_step_hdrSend :
    answers (feed [0x3A, 0x4E, 0x41, 0x56, 0x12, 0x34, 0x56, 0x78, 0x9A, 0xBC, 0x00, 0x03, 0xFF, 0x41, 0x6E]
      ({ State.reset with commState := .waitingInstruction })) (fun t =>
      decide (t.out = [.tx [0x06]] ∧ t.commState = .waitingData ∧ t.expectedLen = 5 ∧ t.hdr.line = 0x1234 ∧ t.hdr.offset = 0x56789ABC)) = true := by decide

/-- Section 2.4, size 29. -/
theorem test_step_hdrSend_overflow :
    answers (feed [0x3A, 0x4E, 0x41, 0x56, 0x00, 0x00, 0x00, 0x00, 0x00, 0x00, 0x00, 0x1D, 0xFF, 0x41, 0xBE]
      ({ State.reset with commState := .waitingInstruction })) (fun t =>
      decide (t.out = [.diag .payloadOverflow, .tx [0x06]] ∧ t.expectedLen = 30)) = true := by decide

/-- Section 2.4, odd type and form bytes. -/
theorem test_step_hdrRecv :
    answers (feed [0x3A, 0x52, 0x58, 0x59, 0x00, 0x00, 0x00, 0x00, 0x00, 0x00, 0x00, 0x00, 0xFF, 0x00, 0xFE]
      ({ State.reset with commState := .waitingInstruction, chOp := ⟨2, 0, 0⟩ })) (fun t =>
      decide (t.out = [.tx [0x3A, 0x4E, 0x41, 0x56, 0x00, 0x00, 0x00, 0x00, 0x00, 0x00, 0x00, 0x06, 0xFF, 0x41, 0xD5]] ∧ t.commState = .waitingHeaderAck)) = true := by decide

/-- Section 2.4, Hex List of two channels. -/
theorem test_step_hdrRecv_hex :
    answers (feed [0x3A, 0x52, 0x48, 0x4C, 0x00, 0x00, 0x00, 0x00, 0x00, 0x00, 0x00, 0x00, 0xFF, 0x41, 0xDA]
      ({ State.reset with commState := .waitingInstruction, chOp := ⟨2, 0, 2⟩ })) (fun t =>
      decide (t.out = [.tx [0x3A, 0x4E, 0x48, 0x4C, 0x00, 0x00, 0x00, 0x00, 0x00, 0x00, 0x00, 0x04, 0xFF, 0x41, 0xDA]] ∧ t.form2 = .listForm ∧ t.dir2 = true)) = true := by decide

/-- Section 2.4. -/
theorem test_step_hdrInvalid :
    answers (feed [0x3A, 0x4E, 0x41, 0x56, 0x00, 0x00, 0x00, 0x00, 0x00, 0x01, 0x00, 0x09, 0xFF, 0x41, 0xD0]
      ({ State.reset with commState := .waitingInstruction })) (fun t =>
      decide (t.out = [.diag .framingChecksum] ∧ t.commState = .idle)) = true := by decide

/-- Section 2.3, no mark. -/
theorem test_step_data :
    answers (feed [0x21, 0x31, 0x2C, 0x34, 0x2C, 0x32, 0x00]
      ({ State.reset with commState := .waitingData })) (fun t =>
      decide (t.out = [.diag .dataNoStart, .diag .channelRange, .tx [0x22]] ∧ t.commState = .idle ∧ t.dataErr = false)) = true := by decide

/-- Section 2.3, `1,2`. -/
theorem test_step_data_short :
    answers (feed [0x3A, 0x31, 0x2C, 0x32, 0x71]
      ({ State.reset with commState := .waitingData })) (fun t =>
      decide (t.out = [.diag .dataTokenCount, .tx [0x22]] ∧ t.chOp = ⟨0, 0, 0⟩)) = true := by decide

/-- V-S6. -/
theorem test_step_cmdClear :
    answers (feed [0x3A, 0x30, 0xD0]
      ({ State.reset with commState := .waitingData, chOp := ⟨2, 2, 2⟩, sampleIndex := 7 })) (fun t =>
      decide (t.out = [.tx [0x06]] ∧ t.chOp = ⟨0, 0, 0⟩ ∧ t.sampleIndex = 0)) = true := by decide

/-- Section 2.3, `1,1,5`. -/
theorem test_step_cmdChsetup :
    answers (feed [0x3A, 0x31, 0x2C, 0x31, 0x2C, 0x35, 0x11]
      ({ State.reset with commState := .waitingData })) (fun t =>
      decide (t.out = [.diag .unsupportedOp, .tx [0x06]] ∧ t.chOp = ⟨5, 0, 0⟩)) = true := by decide

/-- Section 2.3, `1,0,2`. -/
theorem test_step_cmdChsetup_range :
    answers (feed [0x3A, 0x31, 0x2C, 0x30, 0x2C, 0x32, 0x15]
      ({ State.reset with commState := .waitingData })) (fun t =>
      decide (t.out = [.diag .channelRange, .tx [0x06]] ∧ t.chOp = ⟨0, 0, 0⟩)) = true := by decide

/-- Section 2.3, `3,0.25,10`. -/
theorem test_step_cmdRate :
    answers (feed [0x3A, 0x33, 0x2C, 0x30, 0x2E, 0x32, 0x35, 0x2C, 0x31, 0x30, 0x4F]
      ({ State.reset with commState := .waitingData })) (fun t =>
      decide (t.out = [.tx [0x06]] ∧ t.trigPeriodUs = 250000 ∧ t.trigCount = 10 ∧ t.trigMode = .batch)) = true := by decide +kernel

/-- R199: the corner cases of the period, an infinite token and an overflowing product among them. -/
theorem test_cmdRate_period :
    [[0x35, 0x30, 0x30, 0x30],
      [0x2D, 0x31],
      [0x31, 0x65, 0x2D, 0x33],
      [0x30, 0x2E, 0x30, 0x30, 0x30, 0x30, 0x30, 0x30, 0x35],
      [0x35, 0x30, 0x30, 0x30, 0x2E, 0x30],
      [0x2D, 0x30, 0x2E, 0x35],
      [0x31, 0x2E, 0x30, 0x65, 0x39, 0x39, 0x39],
      [0x2D, 0x31, 0x2E, 0x30, 0x65, 0x39, 0x39, 0x39],
      [0x31, 0x2E, 0x30, 0x65, 0x33, 0x30, 0x35]].map periodMicros =
      [4294967295, 0, 1000000, 0, 4294967295, 0, 4294967295, 0, 4294967295] := by decide +kernel

/-- Section 2.4. -/
theorem test_step_cmdStatus :
    answers (feed [0x3A, 0x37, 0xC9]
      ({ State.reset with commState := .waitingData })) (fun t =>
      decide (t.out = [.tx [0x06]] ∧ t.pendingCmd = .statusCheck)) = true := by decide

/-- Section 2.3, `8` at the shortest period. -/
theorem test_step_cmdTrigger :
    answers (feed [0x3A, 0x38, 0xC8]
      ({ State.reset with commState := .waitingData, chOp := ⟨2, 2, 0⟩, trigPeriodUs := 200000, sampleIndex := 3 })) (fun t =>
      decide (t.activeMask = 3 ∧ t.timerArmed = true ∧ t.timerPeriodUs = 200000 ∧ t.sampleIndex = 0 ∧ t.hlState = .sending)) = true := by decide

/-- Section 2.5. -/
theorem test_step_cmdTrigger_short :
    answers (feed [0x3A, 0x38, 0xC8]
      ({ State.reset with
        commState := .waitingData, trigPeriodUs := 100000, timerArmed := true,
        timerPeriodUs := 250000 })) (fun t =>
      decide (t.timerArmed = true ∧ t.timerPeriodUs = 250000)) = true := by decide

/-- Section 2.3, `12,1`. -/
theorem test_step_cmdMode :
    answers (feed [0x3A, 0x31, 0x32, 0x2C, 0x31, 0x40]
      ({ State.reset with commState := .waitingData, trigMode := .batch })) (fun t =>
      decide (t.trigMode = .realTime)) = true := by decide

/-- Section 2.3, selector 0. -/
theorem test_step_metaStatus :
    answers (feed [0x3A, 0x32, 0x30, 0x30, 0x31, 0x2C, 0x30, 0xE1]
      ({ State.reset with commState := .waitingData })) (fun t =>
      decide (t.out = [.tx [0x06]] ∧ t.hlState = .meStatus)) = true := by decide

/-- Section 2.3, selector 1. -/
theorem test_step_metaSample1 :
    answers (feed [0x3A, 0x32, 0x30, 0x30, 0x31, 0x2C, 0x31, 0xE0]
      ({ State.reset with commState := .waitingData })) (fun t =>
      decide (t.out = [.tx [0x06]] ∧ t.hlState = .meGetSample1)) = true := by decide

/-- Section 2.3, selector 2. -/
theorem test_step_metaSample2 :
    answers (feed [0x3A, 0x32, 0x30, 0x30, 0x31, 0x2C, 0x32, 0xDF]
      ({ State.reset with commState := .waitingData })) (fun t =>
      decide (t.out = [.tx [0x06]] ∧ t.hlState = .meGetSample2)) = true := by decide

/-- Section 2.3, selector 3. -/
theorem test_step_metaSample3 :
    answers (feed [0x3A, 0x32, 0x30, 0x30, 0x31, 0x2C, 0x33, 0xDE]
      ({ State.reset with commState := .waitingData })) (fun t =>
      decide (t.out = [.tx [0x06]] ∧ t.hlState = .meGetSample3)) = true := by decide

/-- Section 2.3, `2001,21,3.3` refused by the sink. -/
theorem test_step_metaPublish1 :
    answers (feed [0x3A, 0x32, 0x30, 0x30, 0x31, 0x2C, 0x32, 0x31, 0x2C, 0x33, 0x2E, 0x33, 0xEE]
      ({ State.reset with commState := .waitingData, pubIn := [false] })) (fun t =>
      decide (t.out = [.pub .ch1 [0x33, 0x2E, 0x33], .diag .publishDropped, .tx [0x06]])) = true := by decide

/-- R206, selector 22. -/
theorem test_step_metaPublish2 :
    answers (feed [0x3A, 0x32, 0x30, 0x30, 0x31, 0x2C, 0x32, 0x32, 0x2C, 0x33, 0x2E, 0x33, 0xED]
      ({ State.reset with commState := .waitingData, pubIn := [true] })) (fun t =>
      decide (t.out = [.pub .ch2 [0x33, 0x2E, 0x33], .tx [0x06]])) = true := by decide

/-- R206, selector 23. -/
theorem test_step_metaPublish3 :
    answers (feed [0x3A, 0x32, 0x30, 0x30, 0x31, 0x2C, 0x32, 0x33, 0x2C, 0x33, 0x2E, 0x33, 0xEC]
      ({ State.reset with commState := .waitingData, pubIn := [true] })) (fun t =>
      decide (t.out = [.pub .ch3 [0x33, 0x2E, 0x33], .tx [0x06]])) = true := by decide

/-- Section 2.3, `2001,4`. -/
theorem test_step_metaUnknown :
    answers (feed [0x3A, 0x32, 0x30, 0x30, 0x31, 0x2C, 0x34, 0xDD]
      ({ State.reset with commState := .waitingData })) (fun t =>
      decide (t.out = [.diag .unrecognizedCmd, .tx [0x06]])) = true := by decide

/-- Section 2.3, `1.0`. -/
theorem test_step_cmdUnrecognized :
    answers (feed [0x3A, 0x31, 0x2E, 0x30, 0x71]
      ({ State.reset with commState := .waitingData })) (fun t =>
      decide (t.out = [.diag .unrecognizedCmd, .tx [0x06]] ∧ t.chOp = ⟨0, 0, 0⟩)) = true := by decide

/-- Section 2.4, SAMPLE2. -/
theorem test_step_ackBOkHdr_sample :
    answers (feed [0x06]
      ({ State.reset with commState := .waitingHeaderAck, hlState := .meGetSample2, adcIn := [finite 0x3FE8000000000000] })) (fun t =>
      decide (t.out = [.tx [0x3A, 0x30, 0x2E, 0x37, 0x35, 0x30, 0x30, 0xD6]] ∧ t.commState = .waitingPacketAck)) = true := by decide +kernel

/-- Section 2.4, RealTime, Hex. -/
theorem test_step_ackBOkHdr_hex :
    answers (feed [0x06]
      ({ State.reset with
        commState := .waitingHeaderAck, chOp := ⟨2, 0, 2⟩, timerArmed := true,
        hdr := { State.reset.hdr with valueType := .hex },
        sq := [{ measurements := ⟨0x400A666666666666, 0, 0xC014000000000000⟩, status := .ok }] })) (fun t =>
      decide (t.out = [.tx [0x3A, 0x8E, 0x0A, 0x64, 0x04, 0x00]] ∧ t.sampleIndex = 1 ∧ t.timerArmed = false ∧ t.commState = .waitingPacketAck)) = true := by decide +kernel

/-- Section 2.4. -/
theorem test_step_ackBOkPkt :
    answers (feed [0x06]
      ({ State.reset with commState := .waitingPacketAck, dir1 := true, dir2 := true })) (fun t =>
      decide (t.out = [] ∧ t.dir1 = false ∧ t.dir2 = false ∧ t.commState = .idle)) = true := by decide

/-- Section 2.4. -/
theorem test_step_ackBRetry :
    answers (feed [0x05]
      ({ State.reset with commState := .waitingPacketAck })) (fun t =>
      decide (t.out = [.diag .ackRetryRx] ∧ t.commState = .waitingPacketAck)) = true := by decide

/-- Section 2.4. -/
theorem test_step_ackBError :
    answers (feed [0x22]
      ({ State.reset with commState := .waitingHeaderAck })) (fun t =>
      decide (t.out = [.diag .ackErrorRx] ∧ t.commState = .waitingHeaderAck)) = true := by decide

/-- Section 2.4 and program P3. -/
theorem test_step_startRestart :
    answers (feed [0x15]
      ({ State.reset with commState := .waitingPacketAck, dir2 := true })) (fun t =>
      decide (t.out = [.diag .restart, .tx [0x13]] ∧ t.commState = .waitingInstruction ∧ t.dir2 = true)) = true := by decide

/-- Section 2.4. -/
theorem test_step_ackOther :
    answers (feed [0x3A, 0x52, 0x41, 0x56, 0x00, 0x00, 0x00, 0x00, 0x00, 0x00, 0x00, 0x00, 0xFF, 0x41, 0xD7]
      ({ State.reset with commState := .waitingHeaderAck })) (fun t =>
      decide (t.out = [.diag .unexpectedAck] ∧ t.commState = .waitingHeaderAck)) = true := by decide

/-- Section 2.4. -/
theorem test_step_roleswapStep :
    answers (feed [0x15]
      ({ State.reset with commState := .waitingRoleswap })) (fun t =>
      decide (t.out = [.tx [0x4C, 0xFF, 0xFF, 0xFF, 0xFF, 0xFF, 0xFF, 0xFF, 0xFF, 0xFF, 0xFF, 0xFF, 0xFF, 0xFF, 0x0D]] ∧ t.commState = .idle)) = true := by decide

/-! ### Tick, hold and table words -/

/-- Section 2.5: mask 0b101, readings 1.0 and -1.0. -/
theorem test_tick :
    answers (step { State.reset with
        timerArmed := true, activeMask := 5, tickIn := [true],
        adcIn := [finite 0x3FF0000000000000, finite 0xBFF0000000000000] }) (fun t =>
      decide (t.sq = [{ measurements := ⟨0x3FF0000000000000, 0, 0xBFF0000000000000⟩, status := .ok }] ∧ t.adcIn = [])) = true := by decide

/-- Section 2.5, hold and resume (b). -/
theorem test_timeout :
    answers (step { State.reset with
        commState := .waitingHeaderAck, taskPhase := .awaitSample,
        chOp := ⟨2, 0, 0⟩ }) (fun t =>
      decide (t.out = [.diag .sampleUnavailable, .tx [0x3A, 0x1B, 0x08, 0xDD]] ∧ t.lastStatus = .fail ∧
        t.taskPhase = .ready ∧ t.sampleIndex = 1)) = true := by decide +kernel

/-- Keys of spec/opcode_table.json (log entry 13). -/
theorem test_table_words :
    decodeTableWord 16 0x3A52 = some (.hdrRecv {
        typeByte := 0, formByte := 0, line := 0, offset := 0, packetSize := 0, pad := 0, area := 0, checksum := 0xAE }) ∧
    decodeTableWord 24 0x010000 = some (.chunkAppendCont [0, 0, 0]) ∧
    decodeTableWord 24 0x003A4E = some (.chunkAppendStart [0x3A, 0x4E, 0]) ∧
    decodeTableWord 64 0x000007D100000015 = some (.metaPublish1 [0x30]) ∧
    decodeTableWord 8 0x06 = some (.ackBOkHdr []) := by decide

/-- The key of `CMD_CHSETUP` with channel 2: the third token is `0`, no supported code (R198). -/
theorem test_fetch_word :
    answers (step (State.reset.withFetchWord 64 0x0000000100000002)) (fun t =>
      decide (t.out = [.diag .unsupportedOp, .tx [0x06]])) = true := by decide

/-! ### Witnesses: the hypotheses of each obligation are met, at the boundary of each clause -/

/-- A header, a chunk, a command, the longest publish and the longest acknowledgement frame. -/
theorem wit_EncodedInstructionDecodesBack :
    Instr.wf (.hdrSend ⟨0x41, 0x56, 0, 0, 5, 0xFF, 0x41, 0xD6⟩) = true ∧ Instr.admits (.hdrSend ⟨0x41, 0x56, 0, 0, 5, 0xFF, 0x41, 0xD6⟩) (.frame .waitingInstruction) = true ∧
    Instr.wf (.chunkAppendStart [0x3A, 0x52, 0]) = true ∧
      Instr.admits (.chunkAppendStart [0x3A, 0x52, 0]) (.chunk false) = true ∧
    Instr.wf (.cmdRate [0x30, 0x2E, 0x32, 0x35] [0x2D, 0x31]) = true ∧
      Instr.admits (.cmdRate [0x30, 0x2E, 0x32, 0x35] [0x2D, 0x31]) .command = true ∧
    Instr.wf (.metaPublish3 (List.replicate 20 0x31)) = true ∧
    Instr.wf (.ackBError (List.replicate 29 0)) = true ∧
      Instr.admits (.ackBError []) (.frame .waitingPacketAck) = true := by decide

theorem wit_DecodedBytesReencode :
    Source.frame .waitingInstruction ≠ .command ∧
    decode (.frame .waitingInstruction) header5 =
      .ok (.hdrSend ⟨0x41, 0x56, 0, 0, 5, 0xFF, 0x41, 0xD6⟩) := by decide

theorem wit_DecodedRowIsWellFormed :
    Source.frame .waitingData ≠ .command ∧
    (List.replicate 30 (0 : Byte)).length ≤ 30 ∧
    decode (.frame .waitingData) (List.replicate 30 0) = .ok (.data (List.replicate 30 0)) ∧
    decode (.chunk true) [] = .ok .chunkEmpty := by decide

/-- One token 0 for each clause; the empty one is command 0. -/
theorem wit_TokenDispatch :
    tokIsFloat [0x31, 0x2E] = true ∧
    (tokIsFloat [0x32] = false ∧ (tokInt [0x32]).toInt ∉ ([0, 1, 3, 7, 8, 12, 2001] : List Int)) ∧
    (tokIsFloat [0x32, 0x30, 0x30, 0x32] = false ∧
      (tokInt [0x32, 0x30, 0x30, 0x32]).toInt ∉ ([0, 1, 3, 7, 8, 12, 2001] : List Int)) ∧
    (tokIsFloat [0x31] = false ∧ (tokInt [0x31]).toInt = 1 ∧ [[0x31], ([0x31] : Token)].length < 3) ∧
    (tokIsFloat [0x33] = false ∧ (tokInt [0x33]).toInt = 3 ∧ [([0x33] : Token)].length < 3) ∧
    (tokIsFloat [0x31, 0x32] = false ∧ (tokInt [0x31, 0x32]).toInt = 12 ∧ [([0x31, 0x32] : Token)].length < 2) ∧
    (tokIsFloat [0x32, 0x30, 0x30, 0x31] = false ∧ (tokInt [0x32, 0x30, 0x30, 0x31]).toInt = 2001 ∧
      [([0x32, 0x30, 0x30, 0x31] : Token)].length < 2) ∧
    (tokIsFloat [] = false ∧ (tokInt []).toInt = 0) ∧
    (tokIsFloat [0x37] = false ∧ (tokInt [0x37]).toInt = 7) ∧
    (tokIsFloat [0x38] = false ∧ (tokInt [0x38]).toInt = 8) := by decide

/-- Each selector, and the values next to them that fall under the last clause. -/
theorem wit_MetaSelectorDispatch :
    [[], [0x31], [0x32], [0x33], [0x32, 0x31], [0x32, 0x32], [0x32, 0x33]].map
      (fun t => (intArg t).toInt) = [0, 1, 2, 3, 21, 22, 23] ∧
    [[0x34], [0x32, 0x30], [0x32, 0x34], [0x2D, 0x31]].map (fun t => (intArg t).toInt) =
      [4, 20, 24, -1] ∧
    [4, 20, 24, -1].all (fun v => v ∉ ([0, 1, 2, 3, 21, 22, 23] : List Int)) := by decide

theorem wit_TypeAndFormReading :
    readHdrFields header5 =
      some ⟨0x41, 0x56, 0, 0, 5, 0xFF, 0x41, 0xD6⟩ ∧
    headerFault header5 = none ∧
    [2, 3, 12, 13].all (fun k => k ∈ ([2, 3, 12, 13] : List Nat)) := by decide

theorem wit_ChecksumContract :
    [0x3A, (0 : Byte)].length < 3 ∧
    3 ≤ [0x3A, 0, (0 : Byte)].length := by decide

theorem wit_VerifyDetectsSingleChange :
    [0x3A, (0 : Byte)].length < 3 ∧
    (3 ≤ [0x3A, 0, (0 : Byte)].length ∧ verifyChecksum [0x3A, 0, 0] = true ∧ 1 ≤ 1 ∧
      1 < [0x3A, 0, (0 : Byte)].length ∧ [0x3A, 0, (0 : Byte)][1]? ≠ some 1) ∧
    (2 < [0x3A, 0, (0 : Byte)].length ∧ [0x3A, 0, (0 : Byte)][2]? ≠ some 255) := by decide

/-- Zero, the most negative finite value, and 2^-7, which lies halfway between two multiples of 10^-6. -/
theorem wit_FixedAsciiIsSixCharacters :
    f64IsFinite 0 = true ∧
    f64IsFinite 0xFFEFFFFFFFFFFFFF = true ∧
    f64IsFinite 0x3F80000000000000 = true ∧
    fmtF 0x3F80000000000000 = [0x30, 0x2E, 0x30, 0x30, 0x37, 0x38, 0x31, 0x32] := by decide +kernel

/-- Both infinities, and the clamping bounds themselves, where the clauses meet. -/
theorem wit_RescaleRangeAndClamping :
    f64IsNaN 0x7FF0000000000000 = false ∧
    f64IsInf 0xFFF0000000000000 = true ∧
    f64IsFinite 0x4024000000000000 = true ∧
    f64IsInf 0x4024000000000000 = false ∧
    f64Value 0x4024000000000000 = 10 ∧
    f64Value 0xC024000000000000 = -10 ∧
    f64Value 0 = 0 := by decide +kernel

theorem wit_ListPayloadLengths :
    ∀ v ∈ ([0, 0x8000000000000000] : List F64), f64IsFinite v = true := by simp [f64IsFinite, f64Expo]

theorem wit_BuiltFramesVerify :
    ([0] : List Byte) ≠ [] := by decide

theorem wit_ShortHeaderOpensAppend :
    (3 ≤ [0x3A, 0x4E, (0 : Byte)].length ∧ [0x3A, 0x4E, (0 : Byte)].length ≤ 14) ∧
    (3 ≤ (List.replicate 14 (0 : Byte)).length ∧ (List.replicate 14 (0 : Byte)).length ≤ 14) := by decide

/-- One byte short, exactly full, and one byte too many. -/
theorem wit_AppendContinues :
    (([0] : List Byte) ≠ [] ∧ ({ State.reset with appLen := 14 } : State).appLen ≤ 14) ∧
    ({ State.reset with appLen := 13 } : State).appLen + [(0 : Byte)].length < 15 ∧
    15 ≤ ({ State.reset with appLen := 14 } : State).appLen + [(0 : Byte)].length ∧
    15 ≤ ({ State.reset with appLen := 14 } : State).appLen + [0, (0 : Byte)].length := by decide

/-- A chunk longer than a frame, a B-OK whose row holds, which keeps its frame, and one whose row does not. -/
theorem wit_VerbatimChunkRunsItsFrame :
    List.replicate 31 (0 : Byte) ≠ [] ∧
    ([0x06] : List Byte) ≠ [] ∧
    (match exec (.chunkVerbatim [0x06]) { ({ State.reset with hdr := { State.reset.hdr with valueType := .hex } } : State) with commState := .waitingHeaderAck } with
      | .next t => decide (t.taskPhase = .awaitSample) && t.rxLen == 1
      | _ => false) = true ∧
    (match exec (.chunkVerbatim [0x06]) { State.reset with commState := .waitingPacketAck } with
      | .next t => decide (t.taskPhase = .ready) && t.rxLen == 0
      | _ => false) = true := by decide

theorem wit_SplitHeaderReassembles :
    State.reset.taskPhase = .ready ∧ State.reset.fraAppending = false ∧
    header5.length = 15 ∧
    header5[0]? = some 0x3A ∧
    header5[1]? = some 0x4E ∧
    ({ State.reset with rx := [header5.take 3, header5.drop 3] } : State).rx =
      header5.take 3 :: header5.drop 3 :: [] ∧
    (3 ≤ 3 ∧ 14 ≤ 14 ∧ 1 ≤ 1 ∧ 2 ≤ 2) := by decide

/-- Channels 1 to 3, and the indices 0 and 4 outside them. -/
theorem wit_ChannelSetupCommand :
    [[0x31], [0x32], [0x33]].map (fun t => (intArg t).toInt) =
      Channel.all.map (fun c => (c.index + 1 : Int)) ∧
    ((intArg [0x30]).toInt < 1 ∧ 3 < (intArg [0x34]).toInt) := by decide

/-- An Int token, an infinite token, a finite one whose product overflows, and one whose product does not. -/
theorem wit_RateCommand :
    (tokIsFloat [0x31] = false ∧ tokIsFloat [0x30, 0x2E, 0x35] = true) ∧
    f64IsInf (tokFloat [0x2D, 0x31, 0x2E, 0x30, 0x65, 0x39, 0x39, 0x39]) = true ∧
    f64IsInf (tokFloat [0x31, 0x2E, 0x30, 0x65, 0x33, 0x30, 0x35]) = false ∧
    f64IsInf (tokFloat [0x30, 0x2E, 0x35]) = false ∧
    ((intArg [0x2D, 0x31]).toInt = -1 ∧ (intArg [0x2D, 0x32]).toInt ≠ -1) := by decide +kernel

theorem wit_StatusAndModeCommands :
    ((intArg [0x31]).toInt = 1 ∧ (intArg [0x30]).toInt ≠ 1 ∧ (intArg [0x32]).toInt ≠ 1) := by decide

theorem wit_TriggerCommand :
    200000 ≤ ({ State.reset with trigPeriodUs := 200000 } : State).trigPeriodUs.toNat ∧
    ({ State.reset with trigPeriodUs := 199999 } : State).trigPeriodUs.toNat < 200000 := by decide

theorem wit_PublishCommands :
    ((Instr.metaPublish2 [], Channel.ch2) ∈
      [(Instr.metaPublish1 [], Channel.ch1), (.metaPublish2 [], .ch2), (.metaPublish3 [], .ch3)]) ∧
    ({ State.reset with pubIn := [false] } : State).pubIn = false :: [] := by decide

/-- The spelling 01 that spec/42_commands.md R195 names, no digit at all, and a text after them. -/
theorem wit_IntTokenValue :
    AllDigits [0x30, 0x31] ∧ ([0x30, 0x31] : List Byte) ≠ [] ∧
    AllDigits [] ∧
    (∀ x, ([0x78, 0x31] : List Byte).head? = some x → ¬(0x30 ≤ x.toNat ∧ x.toNat ≤ 0x39)) ∧
    (([0x78, 0x31] : List Byte).head? ≠ some 0x2B ∧ ([0x78, 0x31] : List Byte).head? ≠ some 0x2D) := by simp [AllDigits]

theorem wit_IntegerArgumentSaturates :
    (tokIsFloat [0x31] = false ∧ tokIsFloat [0x31, 0x2E, 0x30, 0x65, 0x39, 0x39, 0x39] = true) ∧
    f64IsInf (tokFloat [0x31, 0x2E, 0x30, 0x65, 0x39, 0x39, 0x39]) = true ∧
    f64IsInf (tokFloat [0x2D, 0x31, 0x2E, 0x30, 0x65, 0x39, 0x39]) = false := by decide +kernel

/-- A token that is a decimal text whole, so its own longest prefix, and one with no such prefix. -/
theorem wit_IntegerArgumentSaturates_text :
    (∃ q : ℚ, DecimalText [0x30, 0x2E, 0x32, 0x35] q) ∧
    (∀ (p' : List Byte) (q' : ℚ), p' <+: [0x30, 0x2E, 0x32, 0x35] → DecimalText p' q' →
      p'.length ≤ [0x30, 0x2E, 0x32, (0x35 : Byte)].length) ∧
    (∀ (p : List Byte) (q : ℚ), p <+: [0x2E] → ¬DecimalText p q) := by
  refine ⟨⟨_, .point [] [0x30] [0x32, 0x35] [] false 0 .absent (by simp [AllDigits])
    (by simp [AllDigits]) (by simp) .absent⟩, fun _ _ h _ => h.length_le, fun p q hp hd => ?_⟩
  have hl := hp.length_le
  rcases hd with ⟨sg, ws, x, neg, e, -, hw, hne, -⟩ | ⟨sg, ws, fs, x, neg, e, -, -, -, hne, -⟩
  · obtain ⟨d, hd⟩ := List.exists_mem_of_ne_nil ws hne
    have hm : d ∈ [(0x2E : Byte)] := hp.subset (by simp [hd])
    have := hw d hd
    simp only [List.mem_singleton] at hm
    subst hm
    exact absurd this (by decide)
  · have : 0 < (ws ++ fs).length := List.length_pos_iff.2 hne
    simp only [List.length_append, List.length_cons, List.length_nil] at hl this
    omega

theorem wit_TokenSplitting :
    ([[], [0x31]] : List Token) ≠ [] ∧ (∀ t ∈ ([[], [0x31]] : List Token), (0x2C : Byte) ∉ t) ∧
    ([0x2C] : List Byte) ≠ [] := by decide

theorem wit_CommandsWriteOnlyConfiguration :
    (commandTokens .cmdTrigger).isSome = true ∧
    exec .cmdStatus State.reset = .next { State.reset with pendingCmd := .statusCheck } := by exact ⟨rfl, rfl⟩

theorem wit_IdleFrames :
    ([0x15] : List Byte) ≠ [] := by decide

theorem wit_RecvHeader :
    ({ State.reset with hlState := .meStatus } : State).hlState = .meStatus ∧
    ({ State.reset with hlState := .meGetSample3 } : State).hlState = .meGetSample3 ∧
    State.reset.hlState = .none ∧ State.reset.pendingCmd ≠ .statusCheck ∧
    ({ State.reset with pendingCmd := .statusCheck } : State).pendingCmd = .statusCheck := by decide

/-- Each failing check is one that a frame meets. -/
theorem wit_InvalidHeader :
    ([0x3A] : List Byte) ≠ [] ∧
    headerFault header5 = none ∧ header5[1]? = some 0x4E ∧
    headerFault [0x3A] = some .length ∧
    headerFault (0x3B :: header5.tail) = some .start ∧
    headerFault (0x3A :: 0x51 :: header5.drop 2) = some .direction ∧
    headerFault (header5.dropLast ++ [0xD7]) = some .checksum := by decide

/-- A frame with its mark, one without, one whose bytes around the text are neither mark nor checksum, and the longest frame without a text. -/
theorem wit_DataFrameRunsItsCommand :
    decodeCommand [0x3A, 0x37, 0xC9] = .ok .cmdStatus ∧
    decodeCommand [0x21, 0x37, 0xC9] = .ok .cmdStatus ∧
    decodeCommand [0x15, 0x37, 0] = .ok .cmdStatus ∧
    [0x3A, (0x15 : Byte)].length ≤ 2 ∧
    ([0x15] : List Byte) ≠ [] := by decide

theorem wit_ShortCommandIsDataError :
    decodeCommand [0x3A, 0] = .error .tokenCount ∧
    decodeCommand [0x15] = .error .tokenCount ∧
    decodeCommand [0x3A, 0x31, 0x2C, 0x32, 0x71] = .error .tokenCount := by decide

theorem wit_FixedResponsePackets :
    ({ State.reset with hlState := .meStatus, connIn := [true, true, false] } : State).hlState = .meStatus ∧
    ({ State.reset with connIn := [true, true, false] } : State).connIn = true :: true :: false :: [] ∧
    ({ State.reset with hlState := .meGetSample1, adcIn := [⟨false, 0, 0⟩] } : State).adcIn =
      ⟨false, 0, 0⟩ :: [] ∧
    State.reset.adcIn = [] ∧
    ({ State.reset with pendingCmd := .statusCheck, form2 := .listForm } : State).hlState = .none ∧
    ({ State.reset with pendingCmd := .statusCheck, form2 := .listForm } : State).form2 = .listForm := by decide

theorem wit_BatchEndSendsTerminator :
    headerCase ({ State.reset with trigMode := .batch, trigCount := 5, sampleIndex := 5 } : State) = .voltageList ∧
    ({ State.reset with trigMode := .batch, trigCount := 5, sampleIndex := 5 } : State).trigMode = .batch ∧
    ({ State.reset with trigMode := .batch, trigCount := 5, sampleIndex := 5 } : State).sampleIndex.toNat =
      ({ State.reset with trigMode := .batch, trigCount := 5, sampleIndex := 5 } : State).trigCount.toNat := by decide

theorem wit_AsciiListPacket :
    headerCase ({ State.reset with trigMode := .batch, trigCount := 5, sampleIndex := 4 } : State) = .voltageList ∧
    ({ State.reset with trigMode := .batch, trigCount := 5, sampleIndex := 4 } : State).hdr.valueType = .ascii ∧
    (({ State.reset with trigMode := .batch, trigCount := 5, sampleIndex := 4 } : State).trigMode = .batch →
      ({ State.reset with trigMode := .batch, trigCount := 5, sampleIndex := 4 } : State).sampleIndex.toNat ≠
      ({ State.reset with trigMode := .batch, trigCount := 5, sampleIndex := 4 } : State).trigCount.toNat) ∧
    State.reset.trigMode = .realTime := by decide

/-- RealTime, and Batch with one event sent of five. -/
theorem wit_HexListPacket :
    headerCase ({ State.reset with
        hdr := { State.reset.hdr with valueType := .hex },
        sq := [⟨⟨0, 0, 0⟩, .ok⟩] } : State) = .voltageList ∧
    ({ State.reset with
        hdr := { State.reset.hdr with valueType := .hex },
        sq := [⟨⟨0, 0, 0⟩, .ok⟩] } : State).hdr.valueType = .hex ∧
    ({ State.reset with
        hdr := { State.reset.hdr with valueType := .hex },
        sq := [⟨⟨0, 0, 0⟩, .ok⟩] } : State).trigMode ≠ .batch ∧
    ({ State.reset with
        hdr := { State.reset.hdr with valueType := .hex },
        sq := [⟨⟨0, 0, 0⟩, .ok⟩] } : State).sq = ⟨⟨0, 0, 0⟩, .ok⟩ :: [] ∧
    headerCase ({ State.reset with
        hdr := { State.reset.hdr with valueType := .hex },
        trigMode := .batch, trigCount := 5, sampleIndex := 1,
        sq := [⟨⟨0, 0, 0⟩, .ok⟩] } : State) = .voltageList ∧
    ({ State.reset with
        hdr := { State.reset.hdr with valueType := .hex },
        trigMode := .batch, trigCount := 5, sampleIndex := 1,
        sq := [⟨⟨0, 0, 0⟩, .ok⟩] } : State).hdr.valueType = .hex ∧
    (({ State.reset with
        hdr := { State.reset.hdr with valueType := .hex },
        trigMode := .batch, trigCount := 5, sampleIndex := 1,
        sq := [⟨⟨0, 0, 0⟩, .ok⟩] } : State).trigMode = .batch ∧
      ({ State.reset with
        hdr := { State.reset.hdr with valueType := .hex },
        trigMode := .batch, trigCount := 5, sampleIndex := 1,
        sq := [⟨⟨0, 0, 0⟩, .ok⟩] } : State).sampleIndex.toNat ≠
      ({ State.reset with
        hdr := { State.reset.hdr with valueType := .hex },
        trigMode := .batch, trigCount := 5, sampleIndex := 1,
        sq := [⟨⟨0, 0, 0⟩, .ok⟩] } : State).trigCount.toNat) ∧
    ({ State.reset with
        hdr := { State.reset.hdr with valueType := .hex },
        trigMode := .batch, trigCount := 5, sampleIndex := 1,
        sq := [⟨⟨0, 0, 0⟩, .ok⟩] } : State).sq = ⟨⟨0, 0, 0⟩, .ok⟩ :: [] := by decide

/-- RealTime, and Batch one event short of its count. -/
theorem wit_EmptyQueueHolds :
    headerCase ({ State.reset with hdr := { State.reset.hdr with valueType := .hex } } : State) = .voltageList ∧
    ({ State.reset with hdr := { State.reset.hdr with valueType := .hex } } : State).hdr.valueType = .hex ∧
    ({ State.reset with hdr := { State.reset.hdr with valueType := .hex } } : State).trigMode ≠ .batch ∧
    ({ State.reset with hdr := { State.reset.hdr with valueType := .hex } } : State).sq = [] ∧
    headerCase ({ State.reset with
        hdr := { State.reset.hdr with valueType := .hex },
        trigMode := .batch, trigCount := 5, sampleIndex := 4 } : State) = .voltageList ∧
    (({ State.reset with
        hdr := { State.reset.hdr with valueType := .hex },
        trigMode := .batch, trigCount := 5, sampleIndex := 4 } : State).trigMode = .batch ∧
      ({ State.reset with
        hdr := { State.reset.hdr with valueType := .hex },
        trigMode := .batch, trigCount := 5, sampleIndex := 4 } : State).sampleIndex.toNat ≠
      ({ State.reset with
        hdr := { State.reset.hdr with valueType := .hex },
        trigMode := .batch, trigCount := 5, sampleIndex := 4 } : State).trigCount.toNat) ∧
    ({ State.reset with
        hdr := { State.reset.hdr with valueType := .hex },
        trigMode := .batch, trigCount := 5, sampleIndex := 4 } : State).sq = [] := by decide

theorem wit_HeldFrameResumes :
    ({ State.reset with taskPhase := .awaitSample } : State).taskPhase = .awaitSample ∧
    State.reset.sq = [] ∧ State.reset.awaitCtx.cont = .batchTail ∧
    ({ State.reset with sq := [⟨⟨0, 0, 0⟩, .ok⟩], timeoutIn := [false] } : State).sq ≠ [] ∧
    ({ State.reset with timeoutIn := [false] } : State).timeoutIn = false :: [] ∧
    ({ State.reset with awaitCtx := ⟨.hexList, .realTimeTail⟩ } : State).awaitCtx.cont = .realTimeTail := by decide

theorem wit_AcksThatChangeNothing :
    CommState.waitingPacketAck ∈ [CommState.waitingHeaderAck, .waitingPacketAck] ∧
    (0x13 : Byte) ∉ ([0x06, 0x05, 0x22, 0x15] : List Byte) := by decide

theorem wit_RestartPacketAckAndRoleswap :
    CommState.waitingHeaderAck ∈ [CommState.waitingHeaderAck, .waitingPacketAck] ∧
    ([0x06] : List Byte) ≠ [] := by decide

/-- The shortest and the longest frame; a row of the table in each of the six states; the hold of R262, and the two batch rows. -/
theorem wit_CommStateFollowsTable :
    (1 ≤ [(0 : Byte)].length ∧ (List.replicate 30 (0 : Byte)).length ≤ 30) ∧
    [(CommState.idle, [0x15], CommState.waitingInstruction), (.idle, [0x14], .idle),
      (.waitingInstruction, header5, .waitingData), (.waitingInstruction, [0x15], .idle),
      (.waitingData, [0x3A], .idle), (.waitingHeaderAck, [0x06], .waitingPacketAck),
      (.waitingHeaderAck, [0x22], .waitingHeaderAck), (.waitingPacketAck, [0x06], .idle),
      (.waitingPacketAck, [0x15], .waitingInstruction), (.waitingRoleswap, [0x06], .idle)].all
      (fun r => match psmStep (loadFrame r.2.1 { State.reset with commState := r.1 }) with
        | .next t => decide (t.commState = r.2.2)
        | _ => false) = true ∧
    (match psmStep (loadFrame [0x06] { ({ State.reset with hdr := { State.reset.hdr with valueType := .hex } } : State) with commState := .waitingHeaderAck }) with
      | .next t => decide (t.commState = .waitingHeaderAck ∧ t.taskPhase = .awaitSample)
      | _ => false) = true ∧
    (match psmStep (loadFrame [0x06] { ({ State.reset with trigMode := .batch, trigCount := 5, sampleIndex := 5 } : State) with commState := .waitingHeaderAck }) with
      | .next t => decide (t.commState = .waitingRoleswap)
      | _ => false) = true ∧
    (match psmStep (loadFrame [0x06] { ({ State.reset with trigMode := .batch, trigCount := 5, sampleIndex := 4 } : State) with commState := .waitingHeaderAck }) with
      | .next t => decide (t.commState = .waitingHeaderAck)
      | _ => false) = true := by decide

theorem wit_ListHeaderSizeMatchesPayload :
    (1 ≤ ([0] : List F64).length ∧ ([0, 0, 0] : List F64).length ≤ 3) ∧
    ∀ v ∈ ([0, 0, 0] : List F64), f64IsFinite v = true := by simp [f64IsFinite, f64Expo]

/-- Each of the six states is one a witness can be in. -/
theorem wit_LoneStartByteIsNoRestart :
    (State.reset.taskPhase = .ready ∧ State.reset.fraAppending = false) ∧
    ({ State.reset with rx := [[0x15]] } : State).rx = [0x15] :: [] ∧
    [CommState.idle, .waitingInstruction, .waitingData, .waitingHeaderAck, .waitingPacketAck,
      .waitingRoleswap].map (fun c => ({ State.reset with commState := c } : State).commState) =
      [.idle, .waitingInstruction, .waitingData, .waitingHeaderAck, .waitingPacketAck, .waitingRoleswap] := by decide

theorem wit_TickPushesMaskedMeasurements :
    (State.reset.activeMask.getLsbD 0 = false ∧
      ({ State.reset with activeMask := 7 } : State).activeMask.getLsbD 2 = true) ∧
    3 ≤ ({ State.reset with adcIn := List.replicate 3 ⟨false, 0, 0⟩ } : State).adcIn.length := by decide

theorem wit_FullQueueDropsNewest :
    ({ State.reset with sq := List.replicate 9 ⟨⟨0, 0, 0⟩, .ok⟩ } : State).sq.length <
      State.reset.params.queueCap ∧
    State.reset.params.queueCap ≤
      ({ State.reset with sq := List.replicate 10 ⟨⟨0, 0, 0⟩, .ok⟩ } : State).sq.length := by decide

theorem wit_QueueIsFifo :
    step State.reset = .next State.reset := by rfl

theorem wit_TickOnlyWhileArmed :
    State.reset.timerArmed = false ∧
    ({ State.reset with timerArmed := true, tickIn := [true] } : State).tickIn = true :: [] ∧
    ({ State.reset with timerArmed := true, tickIn := [false] } : State).timerArmed = true := by decide

/-- Header fragments of 3 and of 14 bytes; a fragment of 2 bytes, a wrong mark, a whole header, the data frame of spec/43_psm.md R239 and a wrong direction, which go verbatim; a step with the timer off and one with it armed. -/
theorem wit_StepRunsDecodedChunk :
    (3 ≤ [0x3A, 0x4E, 0x41].length ∧ [0x3A, 0x4E, 0x41][0]? = some 0x3A ∧ [0x3A, 0x4E, 0x41][1]? = some 0x4E) ∧
    ((header5.take 14).length ≤ 14 ∧ (header5.take 14)[0]? = some 0x3A ∧ (header5.take 14)[1]? = some 0x4E) ∧
    ([[0x3A, 0x4E], [0x3B, 0x4E, 0x41], header5, [0x3A, 0x31, 0x2C, 0x31, 0x2C, 0x32, 0x14], [0x3A, 0x51, 0x41]].all (fun b =>
      decide (b ≠ [] ∧ ¬(3 ≤ b.length ∧ b.length ≤ 14 ∧ b[0]? = some 0x3A ∧
        (b[1]? = some 0x4E ∨ b[1]? = some 0x52)))) = true) ∧
    State.reset.taskPhase = .ready ∧
    ({ State.reset with rx := [[0x15]] } : State).rx = [0x15] :: [] ∧
    State.reset.timerArmed = false ∧
    decode (.chunk State.reset.fraAppending) [0x15] = .ok (.chunkVerbatim [0x15]) ∧
    ({ State.reset with timerArmed := true, tickIn := [false] } : State).tickIn = false :: [] := by decide

/-- A state that meets the invariant, and a step from it. -/
theorem wit_InvariantKept :
    State.Inv { State.reset with commState := .waitingInstruction } ∧
      step { State.reset with commState := .waitingInstruction } =
        .next { State.reset with commState := .waitingInstruction } := by
  refine ⟨⟨?_, ?_, ?_, ?_, ?_, ?_, ?_, ?_, ?_, ?_, ?_, ?_, ?_, ?_, ?_, ?_⟩, rfl⟩
  case refine_13 => intro c; cases c <;> decide
  all_goals simp [State.reset]

theorem wit_ParametersAndProcedureFixed :
    step State.reset = .next State.reset := by rfl

theorem wit_ConfigurationChangesOnlyInWaitingData :
    (State.reset.commState ≠ .waitingData ∧ step State.reset = .next State.reset) ∧
    ({ State.reset with hlState := .sending } : State).hlState ≠ .none := by exact ⟨⟨by decide, rfl⟩, by decide⟩

theorem wit_TransmissionsFitAndAreSingle :
    (22 ≤ Params.reference.txCap ∧ Params.reference.endPacket.length ≤ Params.reference.txCap ∧
      Params.reference.roleswapTrailer.length ≤ Params.reference.txCap) ∧
    step State.reset = .next State.reset := by exact ⟨by decide, rfl⟩
end Sys2Proof.Tests
end

/-! PROOFS. There is no crash path (spec/00_scope.md R10): the reassembler emits frames of 1 to 30 bytes
only, every such frame has a row, and so every step answers a next state. -/

namespace Sys2Proof.Machine

/-- Emitting a frame of 1 to 30 bytes answers a next state (spec/41_reassembler.md R175). -/
theorem emitFrame_next (f : List Byte) (s : State) (hne : f ≠ []) (hlen : f.length ≤ 30) :
    ∃ t, emitFrame f s = .next t := by
  obtain ⟨_, t, _, _, ht⟩ := psmStep_next f s hne hlen
  exact ⟨endFrame t, ht⟩

/-- A chunk that goes verbatim emits a frame that is not empty and is cut to the receive capacity
(spec/41_reassembler.md R173). -/
theorem execChunkVerbatim_next (c : List Byte) (s : State) (hne : c ≠ []) :
    ∃ t, execChunkVerbatim c s = .next t := by
  have htake : c.take rxCap ≠ [] := by simp [rxCap, hne]
  exact emitFrame_next _ s htake (List.length_take_le _ _)

/-- An append that is complete emits exactly the 15 bytes of a header (spec/41_reassembler.md R174),
whatever its buffer and its length were before. -/
theorem execChunkAppendCont_next (c : List Byte) (s : State) :
    ∃ t, execChunkAppendCont c s = .next t := by
  unfold execChunkAppendCont
  dsimp only
  split
  case isTrue =>
    have hlen : (memRead (appendChunk c s).appBuf 0 hdrLen).length = 15 := by simp [hdrLen]
    have hne : memRead (appendChunk c s).appBuf 0 hdrLen ≠ [] :=
      List.ne_nil_of_length_pos (by omega)
    exact emitFrame_next _ _ hne (by omega)
  case isFalse => exact ⟨_, rfl⟩

/-- The row a chunk selects answers a next state: only a verbatim chunk needs its bytes, and the decoder
gives that row to no empty chunk (spec/41_reassembler.md R170). -/
theorem exec_decodeChunk_next (appending : Bool) (c : List Byte) (s : State) :
    ∃ t, exec (decodeChunk appending c) s = .next t := by
  unfold decodeChunk
  split_ifs with hempty
  · exact ⟨_, rfl⟩
  · exact execChunkAppendCont_next c s
  · exact ⟨_, rfl⟩
  · exact execChunkVerbatim_next c s hempty

/-- A `TASK` step answers a next state: it resumes a held frame, waits, or runs a chunk's row. -/
theorem taskStep_next (s : State) : ∃ t, taskStep s = .next t := by
  unfold taskStep
  split
  case h_1 => exact ⟨_, rfl⟩
  case h_2 =>
    split
    case h_1 => exact ⟨_, rfl⟩
    case h_2 c cs _ => exact exec_decodeChunk_next s.fraAppending c { s with rx := cs }

/-- Settles O54: a tick has no failing outcome, and a `TASK` step answers a next state. -/
theorem stepAlwaysAnswersNext : Obligations.StepAlwaysAnswersNext := by
  intro s
  unfold step
  dsimp only
  split
  case isTrue => exact ⟨_, rfl⟩
  case isFalse => exact taskStep_next (drawTick s).2

end Sys2Proof.Machine

/-! PROOFS. What one step can do to the state, said once as four relations: a command row, the fetch of a
voltage list's measurements, a frame, a chunk.  Each relation lists the records the model can answer, and
a lemma ties it to the model's own function; what every step keeps is then read off its cases. -/

namespace Sys2Proof.Machine

/-! ### Commands -/

/-- What the command interpreter can do with a data frame (spec/42_commands.md R190 to R210). -/
inductive CommandEffect (s : State) : State → Prop
  | cleared : CommandEffect s { s with chOp := ⟨0, 0, 0⟩, sampleIndex := 0 }
  | channelSet (ops : Triple I32) (o : List OutEvent) : CommandEffect s { s with chOp := ops, out := o }
  | rateSet (period count : U32) (mode : TrigMode) :
      CommandEffect s { s with trigPeriodUs := period, trigCount := count, trigMode := mode }
  | statusCheckAsked : CommandEffect s { s with pendingCmd := .statusCheck }
  | triggered (mask : BitVec 3) :
      CommandEffect s { s with activeMask := mask, sampleIndex := 0, hlState := .sending }
  | armed (mask : BitVec 3) (period : U32) (hmin : minTriggerPeriodUs ≤ period) :
      CommandEffect s { arm period { s with activeMask := mask } with
        sampleIndex := 0, hlState := .sending }
  | selected (hl : HlState) (hne : hl ≠ .none) : CommandEffect s { s with hlState := hl }
  | published (answers : List Bool) (n : Nat) (o : List OutEvent) :
      CommandEffect s { s with pubIn := answers, freeDraws := n, out := o }
  | reported (o : List OutEvent) : CommandEffect s { s with out := o }
  | dataError (o : List OutEvent) : CommandEffect s { s with dataErr := true, out := o }

/-- The trigger arms the timer from `minTriggerPeriodUs` on, and not below (R201). -/
theorem commandEffect_of_cmdTrigger (s t : State) (h : execCmdTrigger s = .next t) :
    CommandEffect s t := by
  unfold execCmdTrigger at h
  dsimp only at h
  split at h
  case isTrue hmin => obtain rfl := Host.Outcome.next.inj h; exact .armed _ _ hmin
  case isFalse => obtain rfl := Host.Outcome.next.inj h; exact .triggered _

/-- A publish takes an answer of the port and puts out events (R206). -/
theorem commandEffect_publish (k : Channel) (v : Token) (s : State) :
    CommandEffect s (publish k v s) := by
  rw [publish_eq]; exact .published _ _ _

theorem commandEffect_of_runCommand (i : Instr) (s t : State) (hi : (commandTokens i).isSome = true)
    (h : runCommand i s = .next t) : CommandEffect s t := by
  cases i
  case cmdChsetup chan op =>
    simp only [runCommand, execCmdChsetup] at h
    split at h <;> obtain rfl := Host.Outcome.next.inj h
    · rw [setChannelOp_eq]; exact .channelSet _ _
    · exact .reported _
  case cmdTrigger => exact commandEffect_of_cmdTrigger s t h
  all_goals first | exact absurd hi Bool.false_ne_true | obtain rfl := Host.Outcome.next.inj h
  case cmdClear => exact .cleared
  case cmdRate p n => exact .rateSet _ _ _
  case cmdStatus => exact .statusCheckAsked
  case cmdMode m => exact .rateSet _ _ _
  case metaStatus => exact .selected _ (by decide)
  case metaSample1 => exact .selected _ (by decide)
  case metaSample2 => exact .selected _ (by decide)
  case metaSample3 => exact .selected _ (by decide)
  case metaPublish1 v => exact commandEffect_publish _ _ _
  case metaPublish2 v => exact commandEffect_publish _ _ _
  case metaPublish3 v => exact commandEffect_publish _ _ _
  case metaUnknown t => exact .reported _
  case cmdUnrecognized t => exact .reported _

theorem commandEffect_taskPhase {s t : State} (h : CommandEffect s t) :
    t.taskPhase = s.taskPhase := by
  cases h <;> rfl

theorem commandEffect_of_interpret (b : List Byte) (s t : State) (h : interpret b s = .next t) :
    CommandEffect s t := by
  unfold interpret at h
  split at h
  case h_1 i hi => exact commandEffect_of_runCommand i s t (commandTokens_of_decodeTokens _ i hi) h
  case h_2 =>
    obtain rfl := Host.Outcome.next.inj h
    exact .dataError _

/-! ### Voltage lists -/

/-- How the measurements of a voltage list are come by: fresh readings (spec/43_psm.md R258), the head of
the queue, or a timeout (R262). -/
inductive Measured (s : State) : State → Prop
  | read (answers : List FiniteF64) (n : Nat) : Measured s { s with adcIn := answers, freeDraws := n }
  | popped (e : SampleEvent) (q : List SampleEvent) (races : List Bool) (n : Nat) (hsq : s.sq = e :: q) :
      Measured s (takeSample e q { s with timeoutIn := races, freeDraws := n })
  | timedOut (races : List Bool) (n : Nat) (o : List OutEvent) :
      Measured s { s with timeoutIn := races, freeDraws := n, lastStatus := .fail, out := o }

/-- A list is sent in the state of its measurements, or, on a hex request, the frame is held (R262). -/
theorem sendList_cases (k : Continuation) (s : State) :
    (∃ p u, sendList k s = finishList k p u ∧ Measured (clearFrame s) (clearFrame u) ∧
      u.taskPhase = s.taskPhase) ∨
    (s.hdr.valueType = .hex ∧ sendList k s = holdForSample k s) := by
  cases hv : s.hdr.valueType with
  | ascii =>
    have hlist : sendList k s = finishList k (asciiList (readChannels (activeChannels s) s).1)
        (readChannels (activeChannels s) s).2 := by simp only [sendList, hv]
    rw [readChannels_snd] at hlist
    exact .inl ⟨_, _, hlist, .read _ _, rfl⟩
  | hex =>
    cases hq : s.sq with
    | nil => exact .inr ⟨rfl, by simp only [sendList, hv, hq]⟩
    | cons e q =>
      have hlist : sendList k s =
          finishList k (hexPayload (takeSample e q s)) (takeSample e q s) := by
        simp only [sendList, hv, hq]
      exact .inl ⟨_, _, hlist, .popped e q s.timeoutIn s.freeDraws hq, rfl⟩

/-- A held frame is completed as a list whose measurements are in hand: the phase and the frame do not
matter to it. -/
theorem finishHeld_eq_finishList (s : State) :
    finishHeld s = finishList s.awaitCtx.cont (hexPayload s)
      { s with taskPhase := .ready, rxLen := 0 } := by
  rw [finishHeld_eq, finishList_eq]

/-- The resumption sends a list: its measurements are the head of the queue, or it times out. -/
theorem resumeSample_cases (s : State) :
    ∃ p u, Measured { s with taskPhase := .ready, rxLen := 0 } u ∧
      resumeSample s = finishList s.awaitCtx.cont p u := by
  unfold resumeSample
  split
  case h_1 => exact ⟨_, _, .timedOut s.timeoutIn s.freeDraws _, finishHeld_eq_finishList _⟩
  case h_2 e q hq =>
    dsimp only
    split
    · rw [drawTimeout_snd]
      exact ⟨_, _, .timedOut _ _ _, finishHeld_eq_finishList _⟩
    · rw [drawTimeout_snd]
      exact ⟨_, _, .popped e q _ _ hq, finishHeld_eq_finishList _⟩

/-! ### Frames -/

theorem decodeAck_admits (ok : List Byte → Instr) (b0 : Byte) (rest : List Byte) (st : CommState)
    (hok : (ok rest).admits (.frame st) = true)
    (hst : st = .waitingHeaderAck ∨ st = .waitingPacketAck) :
    (decodeAck ok b0 rest).admits (.frame st) = true := by
  unfold decodeAck
  split_ifs
  · exact hok
  all_goals rcases hst with rfl | rfl <;> rfl

theorem decodeHeaderFrame_admits (b : List Byte) :
    (decodeHeaderFrame b).admits (.frame .waitingInstruction) = true := by
  unfold decodeHeaderFrame
  split
  · rfl
  · split
    · split <;> rfl
    · rfl

/-- A frame selects only rows that `COMM_STATE` admits (spec/30_encoding.md R113). -/
theorem decodeFrame_admits (st : CommState) (b : List Byte) (i : Instr)
    (h : decodeFrame st b = .ok i) : i.admits (.frame st) = true := by
  cases b with
  | nil => nomatch h
  | cons b0 rest =>
    cases st <;> obtain rfl := Except.ok.inj h
    case idle => split <;> rfl
    case waitingInstruction => exact decodeHeaderFrame_admits _
    case waitingData => rfl
    case waitingHeaderAck => exact decodeAck_admits _ _ _ _ rfl (.inl rfl)
    case waitingPacketAck => exact decodeAck_admits _ _ _ _ rfl (.inr rfl)
    case waitingRoleswap => rfl

/-- What a frame can do (spec/43_psm.md R266), from the state without the frame to the state after its
consumption; a held frame stays in the buffer (R262). -/
inductive FrameEffect (s : State) : State → Prop
  | reported (o : List OutEvent) : FrameEffect s { s with out := o }
  | started (o : List OutEvent) : FrameEffect s { s with commState := .waitingInstruction, out := o }
  | rejected (o : List OutEvent) : FrameEffect s { s with commState := .idle, out := o }
  | sendHeader (h : HdrFields) (o : List OutEvent) :
      FrameEffect s { s with
        hdr := decodeHeader .send h, dir1 := true, expectedLen := min (h.packetSize.toNat + 2) 30,
        commState := .waitingData, out := o }
  | recvHeader (h : HdrFields) (o : List OutEvent) :
      FrameEffect s { s with
        hdr := decodeHeader .recv h, dir2 := true, form2 := formOfByte h.formByte,
        commState := .waitingHeaderAck, out := o }
  | command (u : State) (len : Nat) (err : Bool) (o o' : List OutEvent) (hst : s.commState = .waitingData)
      (hu : CommandEffect { s with rxLen := len, dataErr := err, out := o } u) :
      FrameEffect s { clearFrame u with dataErr := false, commState := .idle, out := o' }
  | answered (pend : PendingCmd) (conns : List Bool) (answers : List FiniteF64) (n : Nat)
      (o : List OutEvent) (hst : s.commState = .waitingHeaderAck)
      (hpend : pend = s.pendingCmd ∨ pend = .none) :
      FrameEffect s { s with
        pendingCmd := pend, connIn := conns, adcIn := answers, freeDraws := n,
        commState := .waitingPacketAck, out := o }
  | batchEnded (o : List OutEvent) (hst : s.commState = .waitingHeaderAck) :
      FrameEffect s { s with commState := .waitingRoleswap, out := o }
  | listSent (k : Continuation) (p : List Byte) (u : State) (hst : s.commState = .waitingHeaderAck)
      (hu : Measured s u) : FrameEffect s (finishList k p u)
  | held (k : Continuation) (len : Nat) (hst : s.commState = .waitingHeaderAck)
      (hhex : s.hdr.valueType = .hex) (hk : k = .batchTail ↔ s.trigMode = .batch) (hpos : 1 ≤ len)
      (hcap : len ≤ 30) : FrameEffect s { holdForSample k s with rxLen := len }
  | closed (o : List OutEvent) :
      FrameEffect s { clearSessionFlags s with commState := .idle, out := o }

theorem endFrame_of_ready (s : State) (h : s.taskPhase = .ready) : endFrame s = clearFrame s := by
  unfold endFrame; rw [h]

/-- A row that does not hold its frame is judged with the frame consumed. -/
theorem frameEffect_of_ready {s t : State} (hready : t.taskPhase = .ready)
    (h : FrameEffect s (clearFrame t)) : FrameEffect s (endFrame t) :=
  endFrame_of_ready t hready ▸ h

theorem endFrame_of_held (s : State) (h : s.taskPhase = .awaitSample) : endFrame s = s := by
  unfold endFrame; rw [h]

theorem clearFrame_finishList (k : Continuation) (p : List Byte) (s : State) :
    clearFrame (finishList k p s) = finishList k p (clearFrame s) := by
  rw [finishList_eq, finishList_eq]; rfl

theorem finishList_taskPhase (k : Continuation) (p : List Byte) (s : State) :
    (finishList k p s).taskPhase = s.taskPhase := by
  rw [finishList_eq]

/-- A data frame is a command with a `DATA_ERR` of its own before it and none after it (R239). -/
theorem frameEffect_of_execData (b : List Byte) (s t : State) (hst : s.commState = .waitingData)
    (hready : s.taskPhase = .ready) (h : execData b s = .next t) :
    FrameEffect (clearFrame s) (endFrame t) := by
  obtain ⟨u, hu, ht⟩ := (andThen_eq_next _ _ _).1 h
  obtain rfl := Host.Outcome.next.inj ht
  obtain ⟨err, o, hs⟩ : ∃ err o, (if b.head? = some wireMark then clearDataError s
      else raiseDataError .dataNoStart (clearDataError s)) = { s with dataErr := err, out := o } := by
    split <;> exact ⟨_, _, rfl⟩
  have hcmd := commandEffect_of_interpret _ _ _ hu
  rw [hs] at hcmd
  have hphase : u.taskPhase = .ready := (commandEffect_taskPhase hcmd).trans hready
  exact frameEffect_of_ready hphase (.command u s.rxLen err o _ hst hcmd)

theorem frameEffect_sendList (k : Continuation) (s : State) (hst : s.commState = .waitingHeaderAck)
    (hready : s.taskPhase = .ready) (hpos : 1 ≤ s.rxLen) (hcap : s.rxLen ≤ 30)
    (hk : k = .batchTail ↔ s.trigMode = .batch) :
    FrameEffect (clearFrame s) (endFrame (sendList k s)) := by
  obtain ⟨p, u, heq, hu, hphase⟩ | ⟨hhex, heq⟩ := sendList_cases k s
  · have hend : endFrame (sendList k s) = finishList k p (clearFrame u) := by
      rw [heq, endFrame_of_ready _ (by rw [finishList_taskPhase, hphase, hready]),
        clearFrame_finishList]
    rw [hend]
    exact .listSent k p _ hst hu
  · rw [heq, endFrame_of_held _ rfl]
    exact .held k s.rxLen hst hhex hk hpos hcap

theorem frameEffect_batchStep (s : State) (hst : s.commState = .waitingHeaderAck)
    (hready : s.taskPhase = .ready) (hpos : 1 ≤ s.rxLen) (hcap : s.rxLen ≤ 30)
    (hmode : s.trigMode = .batch) : FrameEffect (clearFrame s) (endFrame (batchStep s)) := by
  unfold batchStep
  split
  case isTrue =>
    exact frameEffect_of_ready hready (.batchEnded _ hst)
  case isFalse => exact frameEffect_sendList _ s hst hready hpos hcap (by simp [hmode])

/-- A packet other than a voltage list: it is sent once its port answers are drawn. -/
theorem frameEffect_packet (p : List Byte) (s : State) (pend : PendingCmd) (conns : List Bool)
    (answers : List FiniteF64) (n : Nat) (hst : s.commState = .waitingHeaderAck)
    (hready : s.taskPhase = .ready) (hpend : pend = s.pendingCmd ∨ pend = .none) :
    FrameEffect (clearFrame s) (endFrame { sendPacket p { s with
      pendingCmd := pend, connIn := conns, adcIn := answers, freeDraws := n } with
        commState := .waitingPacketAck }) := by
  rw [sendPacket_eq]
  exact frameEffect_of_ready hready (.answered _ _ _ _ _ hst hpend)

/-- A B-OK for the response header sends the packet of its case (R241). -/
theorem frameEffect_of_execAckBOkHdr (s t : State) (hst : s.commState = .waitingHeaderAck)
    (hready : s.taskPhase = .ready) (hpos : 1 ≤ s.rxLen) (hcap : s.rxLen ≤ 30)
    (h : execAckBOkHdr s = .next t) : FrameEffect (clearFrame s) (endFrame t) := by
  unfold execAckBOkHdr at h
  split at h
  case h_1 =>
    obtain rfl := Host.Outcome.next.inj h
    dsimp only [sendStatus]
    rw [statusByte_snd]
    exact frameEffect_packet _ s s.pendingCmd _ s.adcIn _ hst hready (.inl rfl)
  case h_2 k _ =>
    obtain rfl := Host.Outcome.next.inj h
    dsimp only [sendSample]
    rw [drawAdc_snd]
    exact frameEffect_packet _ s s.pendingCmd s.connIn _ _ hst hready (.inl rfl)
  case h_3 =>
    obtain rfl := Host.Outcome.next.inj h
    exact frameEffect_packet _ s .none s.connIn s.adcIn s.freeDraws hst hready (.inr rfl)
  case h_4 =>
    split at h
    case h_1 hmode =>
      obtain rfl := Host.Outcome.next.inj h
      exact frameEffect_batchStep s hst hready hpos hcap hmode
    case h_2 hmode =>
      obtain rfl := Host.Outcome.next.inj h
      exact frameEffect_sendList _ s hst hready hpos hcap (by simp [hmode])

/-- Every frame row, in a place that admits it, does what `FrameEffect` says. -/
theorem frameEffect_of_exec (i : Instr) (s t : State) (hadm : i.admits (.frame s.commState) = true)
    (hready : s.taskPhase = .ready) (hpos : 1 ≤ s.rxLen) (hcap : s.rxLen ≤ 30)
    (h : exec i s = .next t) : FrameEffect (clearFrame s) (endFrame t) := by
  cases i
  case ackBOkHdr r =>
    exact frameEffect_of_execAckBOkHdr s t (by simpa [Instr.admits] using hadm) hready hpos hcap h
  case data b => exact frameEffect_of_execData b s t (by simpa [Instr.admits] using hadm) hready h
  case hdrSend hd =>
    obtain rfl := Host.Outcome.next.inj h
    rw [announceLength_eq]
    exact frameEffect_of_ready hready (.sendHeader hd _)
  all_goals first | exact absurd hadm Bool.false_ne_true | obtain rfl := Host.Outcome.next.inj h
  all_goals refine frameEffect_of_ready hready ?_
  case startIdle b => exact .started _
  case noise b => exact .reported _
  case hdrRecv hd => exact .recvHeader hd _
  case hdrInvalid e b => exact .rejected _
  case ackBOkPkt r => exact .closed _
  case ackBRetry r => exact .reported _
  case ackBError r => exact .reported _
  case startRestart r => exact .started _
  case ackOther b0 r => exact .reported _
  case roleswapStep b => exact .closed _

/-- A frame that the reassembler emits does what `FrameEffect` says (spec/41_reassembler.md R175). -/
theorem frameEffect_of_emitFrame (f : List Byte) (s t : State) (hne : f ≠ []) (hlen : f.length ≤ 30)
    (hready : s.taskPhase = .ready) (h : emitFrame f s = .next t) :
    FrameEffect (clearFrame (loadFrame f s)) t := by
  obtain ⟨i, u, hi, hu, ht⟩ := psmStep_next f s hne hlen
  obtain rfl := Host.Outcome.next.inj (ht.symm.trans h)
  exact frameEffect_of_exec i (loadFrame f s) u (decodeFrame_admits _ _ _ hi) hready
    (List.length_pos_of_ne_nil hne) hlen hu

/-! ### Chunks -/

/-- What a chunk can do in a ready state (spec/41_reassembler.md R170 to R175). -/
inductive ChunkEffect (c : List Byte) (s : State) : State → Prop
  | skipped : ChunkEffect c s s
  | opened (hstart : startsAppend c = true) :
      ChunkEffect c s { s with
        appBuf := memWrite s.appBuf 0 c, appLen := c.length, fraAppending := true }
  | extended (hopen : s.fraAppending = true) (hlen : (appendChunk c s).appLen ≠ 15) :
      ChunkEffect c s (appendChunk c s)
  | header (f : List Byte) (t : State)
      (ht : FrameEffect (clearFrame (loadFrame f
        { appendChunk c s with fraAppending := false, appLen := 0 })) t) : ChunkEffect c s t
  | verbatim (f : List Byte) (t : State) (ht : FrameEffect (clearFrame (loadFrame f s)) t) :
      ChunkEffect c s t

/-- Appending a chunk writes the append buffer and at most a diagnostic (R174). -/
theorem appendChunk_frame (c : List Byte) (s : State) :
    ∃ buf len o, appendChunk c s = { s with appBuf := buf, appLen := len, out := o } := by
  unfold appendChunk
  dsimp only
  split <;> exact ⟨_, _, _, rfl⟩

theorem appendChunk_taskPhase (c : List Byte) (s : State) :
    (appendChunk c s).taskPhase = s.taskPhase := by
  obtain ⟨buf, len, o, h⟩ := appendChunk_frame c s
  rw [h]

theorem chunkEffect_of_appendCont (c : List Byte) (s t : State) (hopen : s.fraAppending = true)
    (hready : s.taskPhase = .ready) (h : execChunkAppendCont c s = .next t) : ChunkEffect c s t := by
  unfold execChunkAppendCont at h
  dsimp only at h
  split at h
  case isTrue =>
    have hlen : (memRead (appendChunk c s).appBuf 0 hdrLen).length = 15 := by simp [hdrLen]
    exact .header _ t (frameEffect_of_emitFrame _ _ t (List.ne_nil_of_length_pos (by omega)) (by omega)
      ((appendChunk_taskPhase c s).trans hready) h)
  case isFalse hlen =>
    obtain rfl := Host.Outcome.next.inj h
    exact .extended hopen hlen

theorem chunkEffect_of_exec (c : List Byte) (s t : State) (hready : s.taskPhase = .ready)
    (h : exec (decodeChunk s.fraAppending c) s = .next t) : ChunkEffect c s t := by
  unfold decodeChunk at h
  split_ifs at h with hempty hopen hstart
  · obtain rfl := Host.Outcome.next.inj h
    exact .skipped
  · exact chunkEffect_of_appendCont c s t hopen hready h
  · obtain rfl := Host.Outcome.next.inj h
    exact .opened hstart
  · have hne : c.take rxCap ≠ [] := by simp [rxCap, hempty]
    exact .verbatim _ t (frameEffect_of_emitFrame _ s t hne (List.length_take_le _ _) hready h)

end Sys2Proof.Machine

/-! PROOFS. Every step keeps the invariant: each effect leaves most clauses as they stand, and what it
writes is put against the clauses that speak of it. -/

namespace Sys2Proof.Machine

/-! ### The tick -/

theorem tickChannel_finite (c : Channel) (s : State) : f64IsFinite (tickChannel c s).1 = true := by
  unfold tickChannel
  dsimp only
  split
  · exact toF64_finite _
  · exact (by decide : f64IsFinite (f64Zero false) = true)

/-- A tick pushes finite measurements after reads that change nothing else (spec/60_exceptions.md
R292). -/
theorem tick_eq_qpush (s : State) :
    ∃ m answers n, measuresFinite m ∧
      tick s = qpush { measurements := m, status := .ok } { s with adcIn := answers, freeDraws := n } := by
  have hreads : ∃ answers n, (tickChannel .ch3 (tickChannel .ch2 (tickChannel .ch1 s).2).2).2 =
      { s with adcIn := answers, freeDraws := n } := by
    rw [tickChannel_snd, tickChannel_snd, tickChannel_snd]
    exact ⟨_, _, rfl⟩
  obtain ⟨answers, n, hreads⟩ := hreads
  refine ⟨_, answers, n, ?_, congrArg (qpush _) hreads⟩
  intro c
  cases c <;> exact tickChannel_finite _ _

theorem qpush_inv (e : SampleEvent) (s : State) (hs : s.Inv) (he : measuresFinite e.measurements)
    (hok : e.status = .ok) : (qpush e s).Inv := by
  unfold qpush
  split
  case isFalse => exact hs
  case isTrue hroom =>
    refine { hs with queueBound := ?_, queueEvents := ?_ }
    · simpa using hroom
    · intro d hd
      obtain hd | rfl := List.mem_append.1 hd |>.imp_right List.mem_singleton.1
      · exact hs.queueEvents d hd
      · exact ⟨he, hok⟩

theorem tick_inv (s : State) (hs : s.Inv) : (tick s).Inv := by
  obtain ⟨m, answers, n, hm, h⟩ := tick_eq_qpush s
  rw [h]
  exact qpush_inv _ _ { hs with } hm rfl

/-! ### Frames -/

/-- Back in `Idle` no session is claimed. -/
theorem inv_idle (s : State) (o : List OutEvent) (hs : s.Inv) (hready : s.taskPhase = .ready) :
    { s with commState := .idle, out := o }.Inv :=
  { hs with
    heldFrame := fun hheld => nomatch hready.symm.trans hheld
    sendSession := nofun
    recvSession := by simp }

/-- A command keeps the invariant but for `DATA_ERR`, which the data frame clears after it (R239). -/
theorem commandEffect_inv {s t : State} (h : CommandEffect s t)
    (hs : { clearFrame s with dataErr := false }.Inv) (hready : s.taskPhase = .ready) :
    { clearFrame t with dataErr := false }.Inv := by
  cases h
  case rateSet => exact { hs with heldFrame := fun hheld => nomatch hready.symm.trans hheld }
  case statusCheckAsked => exact { hs with pendingKnown := nofun }
  case armed hmin => exact { hs with armedPeriod := fun _ => hmin }
  all_goals exact { hs with }

/-- The head of the queue has finite measurements, and the others keep what is known of them. -/
theorem measured_inv {s t : State} (h : Measured s t) (hs : s.Inv) : t.Inv := by
  cases h
  case popped e q races n hsq =>
    have hmem : ∀ d ∈ q, d ∈ s.sq := fun d hd => hsq ▸ List.mem_cons_of_mem e hd
    have hlen : s.sq.length = q.length + 1 := by rw [hsq]; rfl
    exact { hs with
      queueBound := by have := hs.queueBound; simp; omega
      queueEvents := fun d hd => hs.queueEvents d (hmem d hd)
      lastFinite := (hs.queueEvents e (hsq ▸ List.mem_cons_self)).1 }
  all_goals exact { hs with }

/-- Fetching measurements leaves the protocol where it is. -/
theorem measured_session {s t : State} (h : Measured s t) :
    t.commState = s.commState ∧ t.taskPhase = s.taskPhase := by
  cases h <;> exact ⟨rfl, rfl⟩

/-- A list is sent in the session of the Recv header, and its tail can only disarm the timer (R251). -/
theorem finishList_inv (k : Continuation) (p : List Byte) (s : State) (hs : s.Inv)
    (hready : s.taskPhase = .ready) (hst : s.commState = .waitingHeaderAck) :
    (finishList k p s).Inv := by
  rw [finishList_eq]
  exact { hs with
    heldFrame := fun hheld => nomatch hready.symm.trans hheld
    armedPeriod := fun harm => hs.armedPeriod (by
      cases k with
      | batchTail => exact harm
      | realTimeTail => exact (Bool.and_eq_true_iff.1 harm).1)
    sendSession := by cases k <;> simp [hst]
    recvSession := fun _ => hs.recvSession (.inl hst) }

/-- A frame keeps the invariant, stated of the state without the frame. -/
theorem frameEffect_inv {s t : State} (h : FrameEffect s t) (hs : s.Inv)
    (hready : s.taskPhase = .ready) : t.Inv := by
  have notHeld {P : Prop} (hheld : s.taskPhase = .awaitSample) : P := nomatch hready.symm.trans hheld
  cases h
  case reported o => exact { hs with }
  case started o =>
    exact { hs with heldFrame := notHeld, sendSession := nofun, recvSession := by simp }
  case rejected o => exact inv_idle s o hs hready
  case sendHeader h o =>
    exact { hs with
      heldFrame := notHeld
      expectedBound := Nat.min_le_right _ _
      sendSession := fun _ => ⟨rfl, rfl, rfl⟩
      recvSession := by simp }
  case recvHeader h o =>
    exact { hs with
      heldFrame := notHeld, sendSession := nofun, recvSession := fun _ => ⟨rfl, rfl, rfl⟩ }
  case command u len err o o' hst hu =>
    have hclear : { clearFrame u with dataErr := false }.Inv :=
      commandEffect_inv hu { hs with
        frameConsumed := fun _ => rfl, frameBound := Nat.zero_le _, heldFrame := notHeld
        dataErrClear := rfl } hready
    exact inv_idle _ o' hclear ((commandEffect_taskPhase hu).trans hready)
  case answered pend conns answers n o hst hpend =>
    exact { hs with
      heldFrame := notHeld
      pendingKnown := by
        rcases hpend with rfl | rfl
        · exact hs.pendingKnown
        · exact nofun
      sendSession := nofun
      recvSession := fun _ => hs.recvSession (.inl hst) }
  case batchEnded o hst =>
    exact { hs with
      heldFrame := notHeld, sendSession := nofun, recvSession := fun _ => hs.recvSession (.inl hst) }
  case listSent k p u hst hu =>
    obtain ⟨hcomm, hphase⟩ := measured_session hu
    exact finishList_inv k p u (measured_inv hu hs) (hphase.trans hready) (hcomm.trans hst)
  case held k len hst hhex hk hpos hcap =>
    exact { hs with
      frameConsumed := nofun, frameBound := hcap, heldFrame := fun _ => ⟨hst, hhex, hpos, hk⟩ }
  case closed o =>
    exact { hs with heldFrame := notHeld, sendSession := nofun, recvSession := by simp }

/-! ### Chunks and steps -/

/-- Loading and consuming a frame touches the receive buffer only. -/
theorem inv_without_frame (f : List Byte) (s : State) (hs : s.Inv) (hready : s.taskPhase = .ready) :
    (clearFrame (loadFrame f s)).Inv :=
  { hs with
    frameConsumed := fun _ => rfl
    frameBound := Nat.zero_le _
    heldFrame := fun hheld => nomatch hready.symm.trans hheld }

/-- A write at the start of a buffer puts its own bytes there. -/
theorem memWrite_getElem?_written {cap : Nat} (buf : Vector Byte cap) (v : List Byte) (j : Nat)
    (hj : j < v.length) (h : v.length ≤ cap) : (memWrite buf 0 v)[j]? = v[j]? := by
  rw [← Vector.getElem?_toList, memWrite_toList_of_fits _ _ _ (by omega)]
  simp [List.getElem?_append_left hj]

/-- A write leaves the bytes below it alone. -/
theorem memWrite_getElem?_below {cap : Nat} (buf : Vector Byte cap) (i : Nat) (v : List Byte) (j : Nat)
    (hj : j < i) (h : i + v.length ≤ cap) : (memWrite buf i v)[j]? = buf[j]? := by
  have htake : j < (buf.toList.take i).length := by simp; omega
  rw [← Vector.getElem?_toList, memWrite_toList_of_fits _ _ _ h, List.append_assoc,
    List.getElem?_append_left htake, List.getElem?_take_of_lt hj, Vector.getElem?_toList]

/-- A chunk that opens an append leaves its length and its first two bytes (R172). -/
theorem opened_inv (b : List Byte) (s : State) (hs : s.Inv) (hstart : startsAppend b = true) :
    { s with appBuf := memWrite s.appBuf 0 b, appLen := b.length, fraAppending := true }.Inv := by
  obtain ⟨hmin, hmax, hmark, hdir⟩ := (startsAppend_iff b).1 hstart
  have hbyte (j : Nat) (hj : j < 2) : some (memWrite s.appBuf 0 b)[j] = b[j]? := by
    rw [← memWrite_getElem?_written s.appBuf b j (by omega) (by omega)]
    exact (Vector.getElem?_eq_getElem _).symm
  exact { hs with
    appendClosed := nofun
    appendOpen := fun _ => ⟨hmin, hmax⟩
    appendHeader := fun _ => ⟨Option.some.inj ((hbyte 0 (by omega)).trans hmark),
      hdir.imp (fun h => Option.some.inj ((hbyte 1 (by omega)).trans h))
        (fun h => Option.some.inj ((hbyte 1 (by omega)).trans h))⟩ }

/-- An append that is not complete keeps its first two bytes and stays below a header (R174). -/
theorem extended_inv (c : List Byte) (s : State) (hs : s.Inv) (hopen : s.fraAppending = true)
    (hlen : (appendChunk c s).appLen ≠ 15) : (appendChunk c s).Inv := by
  obtain ⟨hmin, hmax⟩ := hs.appendOpen hopen
  rw [appendChunk_eq c s (by omega)] at hlen ⊢
  have hbyte (j : Nat) (hj : j < 2) :
      (memWrite s.appBuf s.appLen (c.take (15 - s.appLen)))[j] = s.appBuf[j] := by
    have hfits : s.appLen + (c.take (15 - s.appLen)).length ≤ 15 := by simp; omega
    have hkept := memWrite_getElem?_below s.appBuf s.appLen _ j (by omega) hfits
    rwa [Vector.getElem?_eq_getElem (by omega), Vector.getElem?_eq_getElem (by omega),
      Option.some_inj] at hkept
  exact { hs with
    appendClosed := fun hclosed => nomatch hopen.symm.trans hclosed
    appendOpen := fun _ => by dsimp only at hlen ⊢; omega
    appendHeader := fun _ => by
      dsimp only
      rw [hbyte 0 (by omega), hbyte 1 (by omega)]
      exact hs.appendHeader hopen }

/-- An append that is given up is closed and holds nothing. -/
theorem append_closed_inv (c : List Byte) (s : State) (hs : s.Inv) :
    { appendChunk c s with fraAppending := false, appLen := 0 }.Inv := by
  obtain ⟨buf, len, o, h⟩ := appendChunk_frame c s
  rw [h]
  exact { hs with appendClosed := fun _ => rfl, appendOpen := nofun, appendHeader := nofun }

theorem chunkEffect_inv {c : List Byte} {s t : State} (h : ChunkEffect c s t) (hs : s.Inv)
    (hready : s.taskPhase = .ready) : t.Inv := by
  cases h
  case skipped => exact hs
  case opened hstart => exact opened_inv c s hs hstart
  case extended hopen hlen => exact extended_inv c s hs hopen hlen
  case header f ht =>
    have hphase := (appendChunk_taskPhase c s).trans hready
    exact frameEffect_inv ht (inv_without_frame f _ (append_closed_inv c s hs) hphase) hphase
  case verbatim f ht => exact frameEffect_inv ht (inv_without_frame f s hs hready) hready

/-- A resumption completes the B-OK that was held (spec/43_psm.md R262). -/
theorem resumeSample_inv (s : State) (hs : s.Inv) (hheld : s.taskPhase = .awaitSample) :
    (resumeSample s).Inv := by
  obtain ⟨hst, -, -, -⟩ := hs.heldFrame hheld
  obtain ⟨p, u, hu, hres⟩ := resumeSample_cases s
  obtain ⟨hcomm, hphase⟩ := measured_session hu
  have hfree : { s with taskPhase := .ready, rxLen := 0 }.Inv :=
    { hs with frameConsumed := fun _ => rfl, frameBound := Nat.zero_le _, heldFrame := nofun }
  rw [hres]
  exact finishList_inv _ p u (measured_inv hu hfree) hphase (hcomm.trans hst)

theorem taskStep_inv (s t : State) (hs : s.Inv) (h : taskStep s = .next t) : t.Inv := by
  obtain ⟨hheld, rfl⟩ | ⟨-, -, rfl⟩ | ⟨hready, c, more, -, hexec⟩ := taskStep_cases s t h
  · exact resumeSample_inv s hs hheld
  · exact hs
  · exact chunkEffect_inv (chunkEffect_of_exec c { s with rx := more } t hready hexec) { hs with } hready

theorem drawTick_inv (s : State) (hs : s.Inv) : (drawTick s).2.Inv := by
  rw [drawTick_snd]
  exact { hs with }

/-- Settles O56: the tick, the resumption of a held frame and every chunk keep the invariant. -/
theorem invariantKept : Obligations.InvariantKept := by
  intro s t hs h
  obtain ⟨-, rfl⟩ | htask := step_cases s t h
  · exact tick_inv _ (drawTick_inv s hs)
  · exact taskStep_inv _ t (drawTick_inv s hs) htask

end Sys2Proof.Machine

/-! PROOFS. What no step changes: the parameters and `PROCEDURE`; and what only a command changes: the
configuration registers and `HL_STATE`. -/

namespace Sys2Proof.Machine

/-- The configuration registers (spec/10_state.md R42, R51, R52, R54, R55): the operation codes, the mask,
the three trigger registers, `HL_STATE` and the timer's period. -/
def State.config (s : State) : Triple I32 × BitVec 3 × U32 × U32 × TrigMode × HlState × U32 :=
  (s.chOp, s.activeMask, s.trigPeriodUs, s.trigCount, s.trigMode, s.hlState, s.timerPeriodUs)

/-- `t` differs from `s` as a step lets it: the parameters and `PROCEDURE` stay, the configuration stays
outside `WaitingData`, and `HL_STATE` does not return to `HL_NONE`. -/
structure KeepsControl (s t : State) : Prop where
  params    : t.params = s.params
  procedure : t.procedure = s.procedure
  config    : s.commState ≠ .waitingData → t.config = s.config
  hlSet     : s.hlState ≠ .none → t.hlState ≠ .none

/-- What a step keeps from a state on, it keeps from every state with the same control registers. -/
theorem KeepsControl.rebase {s s' t : State} (h : KeepsControl s' t) (hparams : s'.params = s.params)
    (hproc : s'.procedure = s.procedure) (hcomm : s'.commState = s.commState)
    (hconfig : s'.config = s.config) (hhl : s'.hlState = s.hlState) : KeepsControl s t where
  params := h.params.trans hparams
  procedure := h.procedure.trans hproc
  config hst := (h.config (hcomm ▸ hst)).trans hconfig
  hlSet hset := h.hlSet (hhl ▸ hset)

/-- A command row writes neither a parameter nor `PROCEDURE`, and sets `HL_STATE` to a mode. -/
theorem commandEffect_keeps {s t : State} (h : CommandEffect s t) :
    t.params = s.params ∧ t.procedure = s.procedure ∧ (s.hlState ≠ .none → t.hlState ≠ .none) := by
  cases h
  case triggered => exact ⟨rfl, rfl, nofun⟩
  case armed => exact ⟨rfl, rfl, nofun⟩
  case selected hne => exact ⟨rfl, rfl, fun _ => hne⟩
  all_goals exact ⟨rfl, rfl, id⟩

/-- A voltage list reads the configuration and writes none of it. -/
theorem finishList_keepsControl {s u : State} (k : Continuation) (p : List Byte) (h : Measured s u) :
    KeepsControl s (finishList k p u) := by
  rw [finishList_eq]
  cases h <;> exact ⟨rfl, rfl, fun _ => rfl, id⟩

/-- Of all frames only the data frame, read in `WaitingData`, runs a command. -/
theorem frameEffect_keepsControl {s t : State} (h : FrameEffect s t) : KeepsControl s t := by
  cases h
  case command u len err o o' hst hu =>
    obtain ⟨hparams, hproc, hhl⟩ := commandEffect_keeps hu
    exact ⟨hparams, hproc, fun hne => absurd hst hne, hhl⟩
  case listSent k p u hst hu => exact finishList_keepsControl k p hu
  all_goals exact ⟨rfl, rfl, fun _ => rfl, id⟩

theorem chunkEffect_keepsControl {c : List Byte} {s t : State} (h : ChunkEffect c s t) :
    KeepsControl s t := by
  obtain ⟨buf, len, o, happ⟩ := appendChunk_frame c s
  cases h
  case skipped => exact ⟨rfl, rfl, fun _ => rfl, id⟩
  case opened => exact ⟨rfl, rfl, fun _ => rfl, id⟩
  case extended => rw [happ]; exact ⟨rfl, rfl, fun _ => rfl, id⟩
  case header f ht =>
    rw [happ] at ht
    exact (frameEffect_keepsControl ht).rebase rfl rfl rfl rfl rfl
  case verbatim f ht => exact (frameEffect_keepsControl ht).rebase rfl rfl rfl rfl rfl

theorem resumeSample_keepsControl (s : State) : KeepsControl s (resumeSample s) := by
  obtain ⟨p, u, hu, h⟩ := resumeSample_cases s
  rw [h]
  exact (finishList_keepsControl s.awaitCtx.cont p hu).rebase rfl rfl rfl rfl rfl

theorem tick_keepsControl (s : State) : KeepsControl s (tick s) := by
  obtain ⟨m, answers, n, -, h⟩ := tick_eq_qpush s
  rw [h, qpush_eq]
  exact ⟨rfl, rfl, fun _ => rfl, id⟩

theorem taskStep_keepsControl (s t : State) (h : taskStep s = .next t) : KeepsControl s t := by
  obtain ⟨-, rfl⟩ | ⟨-, -, rfl⟩ | ⟨hready, c, more, -, hexec⟩ := taskStep_cases s t h
  · exact resumeSample_keepsControl s
  · exact ⟨rfl, rfl, fun _ => rfl, id⟩
  · have heffect := chunkEffect_of_exec c { s with rx := more } t hready hexec
    exact (chunkEffect_keepsControl heffect).rebase rfl rfl rfl rfl rfl

theorem step_keepsControl (s t : State) (h : step s = .next t) : KeepsControl s t := by
  have hdraw : KeepsControl (drawTick s).2 t := by
    obtain ⟨-, rfl⟩ | htask := step_cases s t h
    · exact tick_keepsControl _
    · exact taskStep_keepsControl _ t htask
  rw [drawTick_snd] at hdraw
  exact hdraw.rebase rfl rfl rfl rfl rfl

/-- Settles O58: no effect of a step writes a parameter or `PROCEDURE`. -/
theorem parametersAndProcedureFixed : Obligations.ParametersAndProcedureFixed := by
  refine ⟨rfl, fun s t h => ?_⟩
  have hkeep := step_keepsControl s t h
  exact ⟨hkeep.params, hkeep.procedure⟩

/-- Settles O59: the one effect that writes the configuration is the command of a data frame. -/
theorem configurationChangesOnlyInWaitingData : Obligations.ConfigurationChangesOnlyInWaitingData := by
  intro s t h
  have hkeep := step_keepsControl s t h
  refine ⟨fun hst => ?_, hkeep.hlSet⟩
  simpa only [State.config, Prod.mk.injEq] using hkeep.config hst

end Sys2Proof.Machine

/-! PROOFS. The multi-byte header fields are big-endian (spec/20_memory.md R82): the place values of the
bytes a field is read from and of the bytes it is sent as. -/

namespace Sys2Proof.Machine

/-- A byte put after a value stands at the place of the units, and the value moves up one place. -/
theorem toNat_append_byte {n : Nat} (x : BitVec n) (b : Byte) :
    (x ++ b).toNat = x.toNat * 256 + b.toNat := by
  rw [BitVec.toNat_append, ← Nat.shiftLeft_add_eq_or_of_lt b.isLt, Nat.shiftLeft_eq]

/-- A `u16` is sent as its high byte and then its low byte. -/
theorem bigEndian16_eq_place_values (v : U16) :
    ∃ b1 b0 : Byte, bigEndian16 v = [b1, b0] ∧ v.toNat = b1.toNat * 256 + b0.toNat := by
  refine ⟨_, _, rfl, ?_⟩
  simp only [BitVec.extractLsb'_toNat, Nat.shiftRight_eq_div_pow]
  omega

/-- A `u32` is sent as its four bytes, the most significant one first. -/
theorem bigEndian32_eq_place_values (v : U32) :
    ∃ b3 b2 b1 b0 : Byte, bigEndian32 v = [b3, b2, b1, b0] ∧
      v.toNat = b3.toNat * 16777216 + b2.toNat * 65536 + b1.toNat * 256 + b0.toNat := by
  refine ⟨_, _, _, _, rfl, ?_⟩
  simp only [BitVec.extractLsb'_toNat, Nat.shiftRight_eq_div_pow]
  omega

/-- Settles O7: a field read is its bytes one after the other, and a field sent is cut into them. -/
theorem headerFieldsAreBigEndian : Obligations.HeaderFieldsAreBigEndian := by
  constructor
  · intro b0 b1 t f l1 l0 o3 o2 o1 o0 p1 p0 pad a ck
    have hoffset : (o3 ++ o2 ++ o1 ++ o0).toNat =
        o3.toNat * 16777216 + o2.toNat * 65536 + o1.toNat * 256 + o0.toNat := by
      simp only [toNat_append_byte]
      omega
    exact ⟨_, rfl, toNat_append_byte l1 l0, hoffset, toNat_append_byte p1 p0, rfl, rfl, rfl, rfl, rfl⟩
  · intro p t f size area
    obtain ⟨l1, l0, hline, hlineVal⟩ := bigEndian16_eq_place_values p.respLine
    obtain ⟨o3, o2, o1, o0, hoff, hoffVal⟩ := bigEndian32_eq_place_values p.respOffset
    obtain ⟨s1, s0, hsize, hsizeVal⟩ := bigEndian16_eq_place_values size
    rw [buildHeader, hline, hoff, hsize]
    exact ⟨l1, l0, o3, o2, o1, o0, s1, s0, _, rfl, hlineVal, hoffVal, hsizeVal⟩

end Sys2Proof.Machine

/-! PROOFS. The sample queue (spec/20_memory.md R86, R87, R90): only a tick adds to it, at the tail and
while there is room, and a `TASK` step takes at most the event at its head. -/

namespace Sys2Proof.Machine

/-- Settles O50: the two branches of the push, below the capacity and at it. -/
theorem fullQueueDropsNewest : Obligations.FullQueueDropsNewest := by
  intro e s
  refine ⟨fun hroom => ?_, fun hfull => ?_⟩
  · rw [qpush_eq, if_pos hroom]
  · rw [qpush_eq, if_neg (Nat.not_lt.2 hfull)]

/-- A queue as a reader leaves it: all of it, or all but the event at its head. -/
def KeptOrPopped (before after : List SampleEvent) : Prop :=
  after = before ∨ ∃ e, before = e :: after

/-- A command neither reads nor fills the queue. -/
theorem commandEffect_sq {s t : State} (h : CommandEffect s t) : t.sq = s.sq := by
  cases h <;> rfl

/-- The measurements of a list come from the queue only as its head. -/
theorem measured_keptOrPopped {s t : State} (h : Measured s t) : KeptOrPopped s.sq t.sq := by
  cases h
  case popped e q races n hsq => exact .inr ⟨e, hsq⟩
  all_goals exact .inl rfl

theorem finishList_sq (k : Continuation) (p : List Byte) (s : State) :
    (finishList k p s).sq = s.sq := by
  rw [finishList_eq]

/-- Of all frames only one that sends a voltage list touches the queue. -/
theorem frameEffect_keptOrPopped {s t : State} (h : FrameEffect s t) : KeptOrPopped s.sq t.sq := by
  cases h
  case command u len err o o' hst hu => exact .inl (commandEffect_sq hu :)
  case listSent k p u hst hu =>
    rw [finishList_sq]
    exact measured_keptOrPopped hu
  all_goals exact .inl rfl

theorem appendChunk_sq (c : List Byte) (s : State) : (appendChunk c s).sq = s.sq := by
  obtain ⟨buf, len, o, h⟩ := appendChunk_frame c s
  rw [h]

/-- A chunk touches the queue only through the frame it completes. -/
theorem chunkEffect_keptOrPopped {c : List Byte} {s t : State} (h : ChunkEffect c s t) :
    KeptOrPopped s.sq t.sq := by
  cases h
  case skipped => exact .inl rfl
  case opened => exact .inl rfl
  case extended => exact .inl (appendChunk_sq c s)
  case header f ht =>
    have hframe : KeptOrPopped (appendChunk c s).sq t.sq := (frameEffect_keptOrPopped ht :)
    rwa [appendChunk_sq] at hframe
  case verbatim f ht => exact (frameEffect_keptOrPopped ht :)

theorem resumeSample_keptOrPopped (s : State) : KeptOrPopped s.sq (resumeSample s).sq := by
  obtain ⟨p, u, hu, h⟩ := resumeSample_cases s
  rw [h, finishList_sq]
  exact (measured_keptOrPopped hu :)

theorem taskStep_keptOrPopped (s t : State) (h : taskStep s = .next t) : KeptOrPopped s.sq t.sq := by
  obtain ⟨-, rfl⟩ | ⟨-, -, rfl⟩ | ⟨hready, c, more, -, hexec⟩ := taskStep_cases s t h
  · exact resumeSample_keptOrPopped s
  · exact .inl rfl
  · have heffect := chunkEffect_of_exec c { s with rx := more } t hready hexec
    exact (chunkEffect_keptOrPopped heffect :)

/-- A tick adds one event at the tail, or none when the queue is full (R87). -/
theorem tick_sq (s : State) : (tick s).sq = s.sq ∨ ∃ e, (tick s).sq = s.sq ++ [e] := by
  obtain ⟨m, answers, n, -, h⟩ := tick_eq_qpush s
  rw [h, qpush_eq]
  dsimp only
  split
  · exact .inr ⟨_, rfl⟩
  · exact .inl rfl

theorem drawTick_sq (s : State) : (drawTick s).2.sq = s.sq := by
  rw [drawTick_snd]

/-- Settles O51: a tick, which only an armed timer makes, adds at the tail; a `TASK` step takes at most
the head. -/
theorem queueIsFifo : Obligations.QueueIsFifo := by
  intro s t h
  obtain ⟨harmed, rfl⟩ | htask := step_cases s t h
  · have htick := tick_sq (drawTick s).2
    rw [drawTick_sq] at htick
    exact htick.imp_right fun hadded => .inl ⟨harmed, hadded⟩
  · have htaken := taskStep_keptOrPopped _ t htask
    rw [drawTick_sq] at htaken
    exact htaken.imp_right .inr

end Sys2Proof.Machine

/-! PROOFS. The decoder and the encoder agree (spec/30_encoding.md R112, R113): a well-formed instruction
is decoded back from its bytes, and the bytes of a chunk or a frame are those of the row it selects. -/

namespace Sys2Proof.Machine

/-! ### Chunks -/

theorem ne_nil_of_startsAppend {c : List Byte} (h : startsAppend c = true) : c ≠ [] := by
  rintro rfl
  exact absurd h (by decide)

/-- A chunk row is decoded back under the `FRA_APPENDING` that reads it. -/
theorem decodeChunk_encode (i : Instr) (a : Bool) (hwf : i.wf = true)
    (hadm : i.admits (.chunk a) = true) : decodeChunk a (encode i) = i := by
  cases i
  case chunkEmpty => rfl
  case chunkAppendCont c =>
    obtain rfl : a = true := by simpa [Instr.admits] using hadm
    have hne : c ≠ [] := List.ne_nil_of_length_pos (of_decide_eq_true hwf)
    simp [decodeChunk, encode, hne]
  case chunkAppendStart c =>
    obtain rfl : a = false := by simpa [Instr.admits] using hadm
    have hstart : startsAppend c = true := hwf
    simp [decodeChunk, encode, hstart, ne_nil_of_startsAppend hstart]
  case chunkVerbatim c =>
    obtain rfl : a = false := by simpa [Instr.admits] using hadm
    obtain ⟨hlen, hstart⟩ : 1 ≤ c.length ∧ startsAppend c = false := by simpa [Instr.wf] using hwf
    simp [decodeChunk, encode, hstart, List.ne_nil_of_length_pos hlen]
  all_goals exact absurd hadm Bool.false_ne_true

theorem encode_decodeChunk (a : Bool) (c : List Byte) : encode (decodeChunk a c) = c := by
  unfold decodeChunk
  split_ifs with hempty
  · exact hempty.symm
  all_goals rfl

theorem decodeChunk_wf (a : Bool) (c : List Byte) : (decodeChunk a c).wf = true := by
  unfold decodeChunk
  split_ifs with hempty _ hstart
  · rfl
  · simpa [Instr.wf, Nat.one_le_iff_ne_zero] using hempty
  · exact hstart
  · simp [Instr.wf, Nat.one_le_iff_ne_zero, hempty, hstart]

theorem decodeChunk_admits (a : Bool) (c : List Byte) : (decodeChunk a c).admits (.chunk a) = true := by
  unfold decodeChunk
  split_ifs with hempty happending
  · cases a <;> rfl
  · rw [happending]; rfl
  all_goals rw [Bool.eq_false_of_not_eq_true happending]; rfl

/-! ### Header frames -/

/-- A header is valid when it passes the four checks of spec/43_psm.md R233. -/
theorem headerFault_eq_none_iff (b : List Byte) :
    headerFault b = none ↔ b.length = 15 ∧ b.head? = some wireMark ∧
      (b[1]? = some wireDirSend ∨ b[1]? = some wireDirRecv) ∧ verifyChecksum b = true := by
  unfold headerFault hdrLen
  split_ifs with hlen hmark hdir hsum <;> simp_all
  exact or_iff_not_imp_left.2 hdir

/-- Two bytes read as a `u16` are the bytes it is sent as (spec/20_memory.md R82). -/
theorem bigEndian16_append (b1 b0 : Byte) : bigEndian16 (b1 ++ b0) = [b1, b0] := by
  obtain ⟨c1, c0, hbytes, hval⟩ := bigEndian16_eq_place_values (b1 ++ b0)
  rw [toNat_append_byte] at hval
  have h1 : c1 = b1 := BitVec.eq_of_toNat_eq (by omega)
  have h0 : c0 = b0 := BitVec.eq_of_toNat_eq (by omega)
  rw [hbytes, h1, h0]

/-- Four bytes read as a `u32` are the bytes it is sent as (spec/20_memory.md R82). -/
theorem bigEndian32_append (b3 b2 b1 b0 : Byte) :
    bigEndian32 (b3 ++ b2 ++ b1 ++ b0) = [b3, b2, b1, b0] := by
  obtain ⟨c3, c2, c1, c0, hbytes, hval⟩ := bigEndian32_eq_place_values (b3 ++ b2 ++ b1 ++ b0)
  simp only [toNat_append_byte] at hval
  have h3 : c3 = b3 := BitVec.eq_of_toNat_eq (by omega)
  have h2 : c2 = b2 := BitVec.eq_of_toNat_eq (by omega)
  have h1 : c1 = b1 := BitVec.eq_of_toNat_eq (by omega)
  have h0 : c0 = b0 := BitVec.eq_of_toNat_eq (by omega)
  rw [hbytes, h3, h2, h1, h0]

/-- The fields of a 15-byte frame hold all of it but its mark and its direction byte. -/
theorem exists_eq_hdrFrame (b : List Byte) (d : Direction) (hlen : b.length = 15)
    (hmark : b.head? = some wireMark) (hdir : b[1]? = some (directionByte d)) :
    ∃ h, b = hdrFrame d h := by
  match b, hlen with
  | [b0, b1, t, f, l1, l0, o3, o2, o1, o0, p1, p0, pad, a, ck], _ =>
    obtain rfl : b0 = wireMark := Option.some.inj hmark
    obtain rfl : b1 = directionByte d := Option.some.inj hdir
    refine ⟨⟨t, f, l1 ++ l0, o3 ++ o2 ++ o1 ++ o0, p1 ++ p0, pad, a, ck⟩, ?_⟩
    simp only [hdrFrame, hdrBody, bigEndian16_append, bigEndian32_append, List.cons_append,
      List.nil_append]

/-- The row of a valid header with a direction (spec/43_psm.md R237, R238). -/
def hdrRow : Direction → HdrFields → Instr
  | .send, h => .hdrSend h
  | .recv, h => .hdrRecv h

theorem encode_hdrRow (d : Direction) (h : HdrFields) : encode (hdrRow d h) = hdrFrame d h := by
  cases d <;> rfl

theorem wf_hdrRow (d : Direction) (h : HdrFields) :
    (hdrRow d h).wf = verifyChecksum (hdrFrame d h) := by
  cases d <;> rfl

theorem headerFault_hdrFrame (d : Direction) (h : HdrFields)
    (hsum : verifyChecksum (hdrFrame d h) = true) : headerFault (hdrFrame d h) = none :=
  (headerFault_eq_none_iff _).2 ⟨rfl, rfl, by cases d <;> [exact .inl rfl; exact .inr rfl], hsum⟩

theorem decodeHeaderFrame_hdrFrame (d : Direction) (h : HdrFields)
    (hsum : verifyChecksum (hdrFrame d h) = true) : decodeHeaderFrame (hdrFrame d h) = hdrRow d h := by
  unfold decodeHeaderFrame
  rw [headerFault_hdrFrame d h hsum, readHdrFields_hdrFrame]
  cases d <;> rfl

theorem decodeHeaderFrame_of_fault {b : List Byte} {e : FramingError} (h : headerFault b = some e) :
    decodeHeaderFrame b = .hdrInvalid e b := by
  unfold decodeHeaderFrame
  rw [h]

/-- What a frame in `WaitingInstruction` is read as: a frame that fails a check, or a valid header made of
its row's fields (spec/43_psm.md R233). -/
theorem decodeHeaderFrame_cases (b : List Byte) :
    (∃ e, headerFault b = some e ∧ decodeHeaderFrame b = .hdrInvalid e b) ∨
    ∃ d h, b = hdrFrame d h ∧ verifyChecksum b = true ∧ decodeHeaderFrame b = hdrRow d h := by
  cases hfault : headerFault b with
  | some e => exact .inl ⟨e, rfl, decodeHeaderFrame_of_fault hfault⟩
  | none =>
    obtain ⟨hlen, hmark, hdir, hsum⟩ := (headerFault_eq_none_iff b).1 hfault
    obtain ⟨d, hd⟩ : ∃ d, b[1]? = some (directionByte d) := hdir.elim (⟨.send, ·⟩) (⟨.recv, ·⟩)
    obtain ⟨h, rfl⟩ := exists_eq_hdrFrame b d hlen hmark hd
    exact .inr ⟨d, h, rfl, hsum, decodeHeaderFrame_hdrFrame d h hsum⟩

theorem encode_decodeHeaderFrame (b : List Byte) : encode (decodeHeaderFrame b) = b := by
  obtain ⟨e, -, hrow⟩ | ⟨d, h, hb, -, hrow⟩ := decodeHeaderFrame_cases b
  · rw [hrow, encode]
  · rw [hrow, encode_hdrRow, hb]

theorem decodeHeaderFrame_wf (b : List Byte) (hlen : frameLength b = true) :
    (decodeHeaderFrame b).wf = true := by
  obtain ⟨e, hfault, hrow⟩ | ⟨d, h, hb, hsum, hrow⟩ := decodeHeaderFrame_cases b
  · simp [hrow, Instr.wf, hlen, hfault]
  · rw [hrow, wf_hdrRow, ← hb, hsum]

/-! ### Acknowledgements -/

theorem decodeAck_of_not_isAckCode (ok : List Byte → Instr) {b0 : Byte} (rest : List Byte)
    (h : isAckCode b0 = false) : decodeAck ok b0 rest = .ackOther b0 rest := by
  obtain ⟨hok, hretry, herror, hstart⟩ :
      b0 ≠ wireBOk ∧ b0 ≠ wireBRetry ∧ b0 ≠ wireBError ∧ b0 ≠ wireStart := by
    simpa [isAckCode] using h
  rw [decodeAck, if_neg hok, if_neg hretry, if_neg herror, if_neg hstart]

theorem encode_decodeAck (ok : List Byte → Instr) (b0 : Byte) (rest : List Byte)
    (hok : encode (ok rest) = wireBOk :: rest) : encode (decodeAck ok b0 rest) = b0 :: rest := by
  unfold decodeAck
  split_ifs with hbyte hbyte hbyte hbyte
  · rw [hok, hbyte]
  · rw [encode, hbyte]
  · rw [encode, hbyte]
  · rw [encode, hbyte]
  · rfl

theorem decodeAck_wf (ok : List Byte → Instr) (b0 : Byte) (rest : List Byte)
    (hok : (ok rest).wf = true) (hlen : rest.length < 30) : (decodeAck ok b0 rest).wf = true := by
  unfold decodeAck
  split_ifs with h1 h2 h3 h4
  · exact hok
  · exact decide_eq_true hlen
  · exact decide_eq_true hlen
  · exact decide_eq_true hlen
  · simp [Instr.wf, isAckCode, rxCap, h1, h2, h3, h4, hlen]

/-! ### Frames -/

theorem exists_cons_of_frameLength {b : List Byte} (h : frameLength b = true) :
    ∃ b0 rest, b = b0 :: rest :=
  List.exists_cons_of_length_pos ((Laws.FitsFormat.frameLength_iff b).1 h).1

/-- A valid header is decoded back in `WaitingInstruction`. -/
theorem decodeFrame_encode_hdrRow (d : Direction) (h : HdrFields) (hwf : (hdrRow d h).wf = true) :
    decodeFrame .waitingInstruction (encode (hdrRow d h)) = .ok (hdrRow d h) := by
  rw [wf_hdrRow] at hwf
  rw [encode_hdrRow]
  exact congrArg Except.ok (decodeHeaderFrame_hdrFrame d h hwf)

/-- An acknowledgement row of both ack states is decoded back, since byte 0 selects it in each
(spec/43_psm.md R240, R254). -/
theorem decodeFrame_encode_ack (st : CommState) (b0 : Byte) (rest : List Byte) (i : Instr)
    (hst : st = .waitingHeaderAck ∨ st = .waitingPacketAck)
    (hrow : ∀ ok, decodeAck ok b0 rest = i) : decodeFrame st (b0 :: rest) = .ok i := by
  obtain rfl | rfl := hst <;> exact congrArg Except.ok (hrow _)

/-- A frame row is decoded back in every `COMM_STATE` that reads it. -/
theorem decodeFrame_encode (i : Instr) (st : CommState) (hwf : i.wf = true)
    (hadm : i.admits (.frame st) = true) : decodeFrame st (encode i) = .ok i := by
  cases i
  case startIdle b =>
    obtain rfl : st = .idle := by simpa [Instr.admits] using hadm
    obtain ⟨hlen, hstart⟩ : frameLength b = true ∧ b.contains wireStart = true := by
      simpa [Instr.wf] using hwf
    obtain ⟨b0, rest, rfl⟩ := exists_cons_of_frameLength hlen
    exact congrArg Except.ok (if_pos hstart)
  case noise b =>
    obtain rfl : st = .idle := by simpa [Instr.admits] using hadm
    obtain ⟨hlen, hstart⟩ : frameLength b = true ∧ b.contains wireStart ≠ true := by
      simpa [Instr.wf] using hwf
    obtain ⟨b0, rest, rfl⟩ := exists_cons_of_frameLength hlen
    exact congrArg Except.ok (if_neg hstart)
  case hdrSend h =>
    obtain rfl : st = .waitingInstruction := by simpa [Instr.admits] using hadm
    exact decodeFrame_encode_hdrRow .send h hwf
  case hdrRecv h =>
    obtain rfl : st = .waitingInstruction := by simpa [Instr.admits] using hadm
    exact decodeFrame_encode_hdrRow .recv h hwf
  case hdrInvalid e b =>
    obtain rfl : st = .waitingInstruction := by simpa [Instr.admits] using hadm
    obtain ⟨hlen, hfault⟩ : frameLength b = true ∧ headerFault b = some e := by
      simpa [Instr.wf] using hwf
    obtain ⟨b0, rest, rfl⟩ := exists_cons_of_frameLength hlen
    exact congrArg Except.ok (decodeHeaderFrame_of_fault hfault)
  case data b =>
    obtain rfl : st = .waitingData := by simpa [Instr.admits] using hadm
    obtain ⟨b0, rest, rfl⟩ := exists_cons_of_frameLength hwf
    rfl
  case ackBOkHdr r =>
    obtain rfl : st = .waitingHeaderAck := by simpa [Instr.admits] using hadm
    rfl
  case ackBOkPkt r =>
    obtain rfl : st = .waitingPacketAck := by simpa [Instr.admits] using hadm
    rfl
  case ackBRetry r =>
    exact decodeFrame_encode_ack _ _ _ _ (by simpa [Instr.admits] using hadm) fun _ => rfl
  case ackBError r =>
    exact decodeFrame_encode_ack _ _ _ _ (by simpa [Instr.admits] using hadm) fun _ => rfl
  case startRestart r =>
    exact decodeFrame_encode_ack _ _ _ _ (by simpa [Instr.admits] using hadm) fun _ => rfl
  case ackOther b0 r =>
    obtain ⟨hcode, -⟩ : isAckCode b0 = false ∧ r.length < rxCap := by simpa [Instr.wf] using hwf
    exact decodeFrame_encode_ack _ _ _ _ (by simpa [Instr.admits] using hadm) fun _ =>
      decodeAck_of_not_isAckCode _ _ hcode
  case roleswapStep b =>
    obtain rfl : st = .waitingRoleswap := by simpa [Instr.admits] using hadm
    obtain ⟨b0, rest, rfl⟩ := exists_cons_of_frameLength hwf
    rfl
  all_goals exact absurd hadm Bool.false_ne_true

/-- No byte of a frame is lost in the row it selects. -/
theorem encode_of_decodeFrame (st : CommState) (b : List Byte) (i : Instr)
    (h : decodeFrame st b = .ok i) : encode i = b := by
  cases b with
  | nil => nomatch h
  | cons b0 rest =>
    cases st <;> obtain rfl := Except.ok.inj h
    case idle => split <;> rfl
    case waitingInstruction => exact encode_decodeHeaderFrame _
    case waitingData => rfl
    case waitingHeaderAck => exact encode_decodeAck _ _ _ rfl
    case waitingPacketAck => exact encode_decodeAck _ _ _ rfl
    case waitingRoleswap => rfl

/-- A frame that the reassembler can emit selects a well-formed row (spec/41_reassembler.md R175). -/
theorem decodeFrame_wf (st : CommState) (b : List Byte) (i : Instr) (hlen : b.length ≤ 30)
    (h : decodeFrame st b = .ok i) : i.wf = true := by
  cases b with
  | nil => nomatch h
  | cons b0 rest =>
    have hframe : frameLength (b0 :: rest) = true :=
      (Laws.FitsFormat.frameLength_iff _).2 ⟨by simp, hlen⟩
    have hrest : rest.length < 30 := hlen
    cases st <;> obtain rfl := Except.ok.inj h
    case idle => split_ifs with hstart <;> simp only [Instr.wf, hframe, hstart] <;> rfl
    case waitingInstruction => exact decodeHeaderFrame_wf _ hframe
    case waitingData => exact hframe
    case waitingHeaderAck => exact decodeAck_wf _ _ _ (decide_eq_true hrest) hrest
    case waitingPacketAck => exact decodeAck_wf _ _ _ (decide_eq_true hrest) hrest
    case waitingRoleswap => exact hframe

/-! ### Commands -/

/-- A text without a comma is one token (spec/42_commands.md R191). -/
theorem splitCommas_of_not_mem (t : Token) (ht : wireComma ∉ t) : splitCommas t = [t] := by
  induction t with
  | nil => rfl
  | cons x t ih =>
    obtain ⟨hx, ht⟩ : wireComma ≠ x ∧ wireComma ∉ t := by simpa using ht
    simp [splitCommas, Ne.symm hx, ih ht]

/-- The first comma ends the first token (spec/42_commands.md R191). -/
theorem splitCommas_append_comma (t : Token) (p : List Byte) (ht : wireComma ∉ t) :
    splitCommas (t ++ wireComma :: p) = t :: splitCommas p := by
  induction t with
  | nil => simp [splitCommas]
  | cons x t ih =>
    obtain ⟨hx, ht⟩ : wireComma ≠ x ∧ wireComma ∉ t := by simpa using ht
    simp [splitCommas, Ne.symm hx, ih ht]

/-- Tokens joined by commas are split again into the same tokens. -/
theorem splitCommas_joinCommas (ts : List Token) (hne : ts ≠ []) (hts : ∀ t ∈ ts, wireComma ∉ t) :
    splitCommas (joinCommas ts) = ts := by
  induction ts using joinCommas.induct with
  | case1 => exact absurd rfl hne
  | case2 t => exact splitCommas_of_not_mem t (hts t (by simp))
  | case3 t u ts ih =>
    obtain ⟨ht, hrest⟩ := List.forall_mem_cons.1 hts
    rw [joinCommas, splitCommas_append_comma t _ ht, ih (List.cons_ne_nil u ts) hrest]

/-- The tokens of a command frame are read back when the first is not empty: an empty text has no token
at all (spec/42_commands.md R191). -/
theorem tokensOf_encodeCommand (t : Token) (ts : List Token) (ht : t ≠ [])
    (hfit : tokensFit (t :: ts) = true) :
    tokensOf (payloadText (encodeCommand (t :: ts))) = t :: ts := by
  obtain ⟨⟨htext, hmax⟩, -⟩ : ((∀ u ∈ t :: ts, wireComma ∉ u) ∧ (t :: ts).length ≤ maxTokens) ∧
      (joinCommas (t :: ts)).length + 2 ≤ rxCap := by
    simpa [tokensFit, tokenText] using hfit
  have hjoin : joinCommas (t :: ts) ≠ [] := by cases ts <;> simp [joinCommas, ht]
  rw [encodeCommand, payloadText_withChecksum, tokensOf, if_neg hjoin,
    splitCommas_joinCommas _ (List.cons_ne_nil t ts) htext, List.take_of_length_le hmax]

/-- Command 2001 with a selector it does not know (spec/42_commands.md R203). -/
theorem decodeMeta_of_not_isMetaSelector (t : Token) (ts : List Token)
    (h : isMetaSelector (intArg t) = false) : decodeMeta (t :: ts) = .ok (.metaUnknown t) := by
  simp_all [decodeMeta, isMetaSelector]

/-- A first token that is no known command number (spec/42_commands.md R195). -/
theorem decodeTokens_of_not_isCommandNumber (t : Token) (ts : List Token)
    (h : tokIsFloat t = true ∨ isCommandNumber (tokInt t) = false) :
    decodeTokens (t :: ts) = .ok (.cmdUnrecognized t) := by
  by_cases hfloat : tokIsFloat t = true
  · exact if_pos hfloat
  · have hnumber := h.resolve_left hfloat
    simp_all [decodeTokens, isCommandNumber]

/-- A command row is the row of its own tokens, its first token is not empty, and they fit a frame. -/
theorem commandTokens_of_wf (i : Instr) (hwf : i.wf = true) (hadm : i.admits .command = true) :
    ∃ t ts, commandTokens i = some (t :: ts) ∧ t ≠ [] ∧ tokensFit (t :: ts) = true ∧
      decodeTokens (t :: ts) = .ok i := by
  cases i
  case cmdClear => exact ⟨_, _, rfl, by decide, by decide, rfl⟩
  case cmdStatus => exact ⟨_, _, rfl, by decide, by decide, rfl⟩
  case cmdTrigger => exact ⟨_, _, rfl, by decide, by decide, rfl⟩
  case metaStatus => exact ⟨_, _, rfl, by decide, by decide, rfl⟩
  case metaSample1 => exact ⟨_, _, rfl, by decide, by decide, rfl⟩
  case metaSample2 => exact ⟨_, _, rfl, by decide, by decide, rfl⟩
  case metaSample3 => exact ⟨_, _, rfl, by decide, by decide, rfl⟩
  case cmdChsetup c op => exact ⟨_, _, rfl, by decide, hwf, rfl⟩
  case cmdRate p n => exact ⟨_, _, rfl, by decide, hwf, rfl⟩
  case cmdMode m => exact ⟨_, _, rfl, by decide, hwf, rfl⟩
  case metaPublish1 v => exact ⟨_, _, rfl, by decide, hwf, rfl⟩
  case metaPublish2 v => exact ⟨_, _, rfl, by decide, hwf, rfl⟩
  case metaPublish3 v => exact ⟨_, _, rfl, by decide, hwf, rfl⟩
  case metaUnknown s =>
    obtain ⟨hfit, hsel⟩ : commandFits (.metaUnknown s) = true ∧ isMetaSelector (intArg s) = false := by
      simpa [Instr.wf] using hwf
    exact ⟨_, _, rfl, by decide, hfit, decodeMeta_of_not_isMetaSelector s [] hsel⟩
  case cmdUnrecognized t =>
    obtain ⟨hfit, hnumber⟩ : commandFits (.cmdUnrecognized t) = true ∧
        (tokIsFloat t = true ∨ isCommandNumber (tokInt t) = false) := by
      simpa [Instr.wf] using hwf
    have hne : t ≠ [] := by
      rintro rfl
      exact absurd hnumber (by decide)
    exact ⟨_, _, rfl, hne, hfit, decodeTokens_of_not_isCommandNumber t [] hnumber⟩
  all_goals exact absurd hadm Bool.false_ne_true

theorem encode_of_commandTokens (i : Instr) (ts : List Token) (h : commandTokens i = some ts) :
    encode i = encodeCommand ts := by
  cases i <;> first | (obtain rfl := Option.some.inj h; rfl) | nomatch h

/-- A command row is decoded back from its data frame (spec/42_commands.md R190 to R195). -/
theorem decodeCommand_encode (i : Instr) (hwf : i.wf = true) (hadm : i.admits .command = true) :
    decodeCommand (encode i) = .ok i := by
  obtain ⟨t, ts, htokens, hne, hfit, hrow⟩ := commandTokens_of_wf i hwf hadm
  rw [encode_of_commandTokens i _ htokens, decodeCommand, tokensOf_encodeCommand t ts hne hfit, hrow]

/-! ### Every input -/

/-- Settles O1: the row is read back in each of the three places an input is decoded. -/
theorem encodedInstructionDecodesBack : Obligations.EncodedInstructionDecodesBack := by
  intro i src hwf hadm
  cases src with
  | chunk a => exact congrArg Except.ok (decodeChunk_encode i a hwf hadm)
  | frame st => exact decodeFrame_encode i st hwf hadm
  | command => exact decodeCommand_encode i hwf hadm

/-- Settles O2: a chunk row carries its chunk, and a frame row its frame or all that is not its key. -/
theorem decodedBytesReencode : Obligations.DecodedBytesReencode := by
  intro src b i hsrc h
  cases src with
  | chunk a =>
    obtain rfl := Except.ok.inj h
    exact encode_decodeChunk a b
  | frame st => exact encode_of_decodeFrame st b i h
  | command => exact absurd rfl hsrc

/-- Settles O3: the conditions of a row are those the decoder has tested when it answers the row. -/
theorem decodedRowIsWellFormed : Obligations.DecodedRowIsWellFormed := by
  intro src b i hsrc hlen h
  cases src with
  | chunk a =>
    obtain rfl := Except.ok.inj h
    exact ⟨decodeChunk_wf a b, decodeChunk_admits a b⟩
  | frame st => exact ⟨decodeFrame_wf st b i (hlen st rfl) h, decodeFrame_admits st b i h⟩
  | command => exact absurd rfl hsrc

end Sys2Proof.Machine

/-! PROOFS. Checksums and the frames that carry them (spec/40_codec.md R140, R141, R144, R145, R147): a
frame of at least three bytes is a body of at least two bytes and its checksum byte. -/

namespace Sys2Proof.Machine

/-! ### Checksums -/

/-- Below three bytes there is no checksum (R140). -/
theorem checksum_of_short {b : List Byte} (h : b.length < 3) : checksum b = none := if_pos h

/-- A frame of at least three bytes is its body and its last byte. -/
theorem exists_body_of_three_le {b : List Byte} (h : 3 ≤ b.length) :
    ∃ (body : List Byte) (z : Byte), b = body ++ [z] ∧ 2 ≤ body.length := by
  obtain rfl | ⟨body, z, rfl⟩ := b.eq_nil_or_concat'
  · simp at h
  · exact ⟨body, z, rfl, by simpa using h⟩

/-- Verification asks for the checksum byte at the end, so for a zero sum after byte 0 (R141). -/
theorem verifyChecksum_iff {b : List Byte} (h : 3 ≤ b.length) :
    verifyChecksum b = true ↔ byteSum (b.drop 1) = 0 := by
  obtain ⟨body, z, rfl, hbody⟩ := exists_body_of_three_le h
  have hdrop : (body ++ [z]).drop 1 = body.drop 1 ++ [z] :=
    List.drop_append_of_le_length (by omega)
  have hlast : verifyChecksum (body ++ [z]) = true ↔ z = 0 - byteSum (body.drop 1) := by
    simp [verifyChecksum, checksum_append body z hbody]
  rw [hlast, hdrop, byteSum_append, byteSum_cons, byteSum_nil]
  constructor <;> intro hz <;> bv_omega

/-- Exchanging one byte for another moves the sum by their difference. -/
theorem byteSum_set (b : List Byte) (k : Nat) (x : Byte) (hk : k < b.length) :
    byteSum (b.set k x) + b[k] = byteSum b + x := by
  induction b generalizing k with
  | nil => exact absurd hk (Nat.not_lt_zero k)
  | cons y b ih =>
    cases k with
    | zero =>
      simp only [List.set_cons_zero, List.getElem_cons_zero, byteSum_cons]
      bv_omega
    | succ k =>
      have hrest := ih k (Nat.lt_of_succ_lt_succ hk)
      simp only [List.set_cons_succ, List.getElem_cons_succ, byteSum_cons]
      bv_omega

/-- Settles O9: over the frame's body the checksum is the negated byte sum, and the last byte is not in
the body. -/
theorem checksumContract : Obligations.ChecksumContract := by
  intro b
  refine ⟨checksum_of_short, fun h => ?_⟩
  obtain ⟨body, z, rfl, hbody⟩ := exists_body_of_three_le h
  have hregion : ((body ++ [z]).drop 1).dropLast = body.drop 1 := by
    rw [List.drop_append_of_le_length (by omega), List.dropLast_concat]
  refine ⟨0 - byteSum (body.drop 1), checksum_append body z hbody, ?_, fun x => ?_⟩
  · have hsum := byteSum_toNat (body.drop 1)
    rw [hregion, BitVec.toNat_sub]
    simp only [BitVec.ofNat_eq_ofNat, BitVec.toNat_ofNat]
    omega
  · have hset : (body ++ [z]).set ((body ++ [z]).length - 1) x = body ++ [x] := by simp
    rw [hset, checksum_append body x hbody]

/-- Settles O10: verification is a zero byte sum after byte 0, and one changed byte moves that sum away
from zero. -/
theorem verifyDetectsSingleChange : Obligations.VerifyDetectsSingleChange := by
  intro b
  refine ⟨fun h => by rw [verifyChecksum, checksum_of_short h], fun h => ⟨?_, ?_, ?_⟩⟩
  · rw [verifyChecksum_iff h, ← byteSum_toNat]
    exact BitVec.toNat_inj.symm
  · intro k x hverify hpos hk hne
    obtain ⟨j, rfl⟩ := Nat.exists_eq_add_of_le' hpos
    have hset : (b.set (j + 1) x).drop 1 = (b.drop 1).set j x := by
      rw [List.drop_set, if_neg (by omega), Nat.add_sub_cancel]
    have hsum : byteSum b.tail = 0 := by simpa using (verifyChecksum_iff h).1 hverify
    have hmove : byteSum ((b.set (j + 1) x).drop 1) + b[j + 1] = x := by
      have hj : j < (b.drop 1).length := by rw [List.length_drop]; omega
      simpa [hset, hsum] using byteSum_set (b.drop 1) j x hj
    have hchanged : b[j + 1] ≠ x := by simpa [List.getElem?_eq_getElem hk] using hne
    rw [Bool.eq_false_iff, Ne, verifyChecksum_iff (by rwa [List.length_set])]
    intro hzero
    rw [hzero] at hmove
    exact hchanged (by simpa using hmove)
  · intro x
    rw [Bool.eq_iff_iff, verifyChecksum_iff (by rwa [List.length_set]), verifyChecksum_iff h,
      List.drop_set, if_pos Nat.zero_lt_one]

/-! ### Built frames -/

/-- Settles O14: `withChecksum` closes a body of at least two bytes with one byte, and the frame verifies;
the mark alone is too short to have a checksum. -/
theorem builtFramesVerify : Obligations.BuiltFramesVerify := by
  refine ⟨fun p t f size area => ⟨rfl, ?_⟩, fun payload hne => ?_, rfl⟩
  · exact verifyChecksum_withChecksum _ (by simp [bigEndian16, bigEndian32])
  · have hbody : 2 ≤ (wireMark :: payload).length :=
      Nat.succ_le_succ (List.length_pos_iff.2 hne)
    exact ⟨_, withChecksum_eq _ hbody, verifyChecksum_withChecksum _ hbody⟩

end Sys2Proof.Machine

/-! PROOFS. The rendering of a finite value in six characters (spec/40_codec.md R142), and the lists made
of such renderings and of codes (R148, R149). -/

namespace Sys2Proof.Machine

/-! ### Decimal digits -/

theorem digitByte_toNat (n : Nat) : (digitByte n).toNat = 0x30 + n % 10 := by
  have hzero : wireZero.toNat = 0x30 := rfl
  rw [digitByte, BitVec.toNat_add, BitVec.toNat_ofNat, hzero]
  omega

theorem allDigits_map_digitByte (ns : List Nat) : AllDigits (ns.map digitByte) := by
  intro d hd
  obtain ⟨n, -, rfl⟩ := List.mem_map.1 hd
  rw [digitByte_toNat]
  omega

/-- The text `ws` is the decimal numeral of `n`: digits without leading zeros. -/
structure IsNumeral (ws : List Byte) (n : Nat) : Prop where
  digits : AllDigits ws
  ne_nil : ws ≠ []
  head : ws.head? = some 0x30 → ws = [0x30]
  value : positional ws = n

/-- A number below ten is one digit. -/
theorem IsNumeral.single {n : Nat} (h : n < 10) : IsNumeral [digitByte n] n where
  digits := allDigits_map_digitByte [n]
  ne_nil := List.cons_ne_nil _ _
  head := by simp
  value := by
    rw [positional_cons, digitByte_toNat]
    simp
    omega

/-- A numeral followed by one more digit is the numeral of the number with that digit. -/
theorem IsNumeral.snoc {ws : List Byte} {n : Nat} (hn : 10 ≤ n) (h : IsNumeral ws (n / 10)) :
    IsNumeral (ws ++ [digitByte n]) n where
  digits := h.digits.append (allDigits_map_digitByte [n])
  ne_nil := List.append_ne_nil_of_left_ne_nil h.ne_nil _
  head := by
    intro hhead
    rw [List.head?_append_of_ne_nil _ h.ne_nil] at hhead
    have hzero : positional ws = 0 := by rw [h.head hhead]; rfl
    have := h.value
    omega
  value := by
    rw [positional_append, h.value, positional_cons, digitByte_toNat]
    simp
    omega

/-- The digit loop puts the numeral of `n` before the digits it has. -/
theorem decimalAux_isNumeral (fuel n : Nat) (acc : List Byte) (h : n < 2 ^ (fuel + 1)) :
    ∃ ws, decimalAux (fuel + 1) n acc = ws ++ acc ∧ IsNumeral ws n := by
  induction fuel generalizing n acc with
  | zero =>
    have hn : n < 10 := by omega
    exact ⟨[digitByte n], if_pos hn, .single hn⟩
  | succ fuel ih =>
    by_cases hn : n < 10
    · exact ⟨[digitByte n], if_pos hn, .single hn⟩
    · obtain ⟨ws, heq, hws⟩ := ih (n / 10) (digitByte n :: acc) (by omega)
      refine ⟨ws ++ [digitByte n], ?_, hws.snoc (by omega)⟩
      rw [decimalAux, if_neg hn, heq, List.append_assoc, List.singleton_append]

/-- The decimal text of a number is its numeral. -/
theorem decimalText_isNumeral (n : Nat) : IsNumeral (decimalText n) n := by
  obtain ⟨ws, heq, hws⟩ := decimalAux_isNumeral (Nat.log2 n) n [] Nat.lt_log2_self
  rw [decimalText, heq, List.append_nil]
  exact hws

theorem allDigits_sixDigits (n : Nat) : AllDigits (sixDigits n) := by
  have hmap : sixDigits n = ([100000, 10000, 1000, 100, 10, 1].map (n / ·)).map digitByte := rfl
  rw [hmap]
  exact allDigits_map_digitByte _

theorem length_sixDigits (n : Nat) : (sixDigits n).length = 6 := rfl

theorem positional_sixDigits (n : Nat) (h : n < 10 ^ 6) : positional (sixDigits n) = n := by
  simp only [sixDigits, List.map_cons, List.map_nil, positional_cons, positional_nil, digitByte_toNat,
    List.length_cons, List.length_nil]
  omega

/-! ### The rendering of a finite value -/

/-- A distance from an integer that is no farther than the next one on either side is at most one half,
and at one half one of the two is as near. -/
theorem abs_le_half_of_nearest {d : ℚ} (hup : |d| ≤ |d - 1|) (hdown : |d| ≤ |d + 1|) :
    2 * |d| ≤ 1 ∧ (2 * |d| = 1 → |d| = |d - 1| ∨ |d| = |d + 1|) := by
  have hle : 2 * d ≤ 1 := by linarith [sq_le_sq.2 hup]
  have hge : -1 ≤ 2 * d := by linarith [sq_le_sq.2 hdown]
  have htwo : 2 * |d| = |2 * d| := by rw [abs_mul, abs_two]
  rw [htwo]
  refine ⟨abs_le.2 ⟨hge, hle⟩, fun h => ?_⟩
  obtain h | h := eq_or_eq_neg_of_abs_eq h
  · obtain rfl : d = 1 / 2 := by linarith
    norm_num
  · obtain rfl : d = -1 / 2 := by linarith
    norm_num

/-- Rounding to the nearest integer, ties to even, is off by at most one half, and by one half only at an
even result. -/
theorem roundHalfEven_error (num den : Nat) (hd : 0 < den) :
    2 * |(num / den : ℚ) - roundHalfEven num den| ≤ 1 ∧
    (2 * |(num / den : ℚ) - roundHalfEven num den| = 1 → roundHalfEven num den % 2 = 0) := by
  obtain ⟨hup, htieUp⟩ := roundHalfEven_nearest num den hd (roundHalfEven num den + 1)
  obtain ⟨hdown, htieDown⟩ := roundHalfEven_nearest num den hd (roundHalfEven num den - 1)
  push_cast [← sub_sub] at hup htieUp hdown htieDown
  rw [sub_sub_eq_add_sub, add_sub_right_comm] at hdown htieDown
  obtain ⟨hhalf, htie⟩ := abs_le_half_of_nearest hup hdown
  refine ⟨hhalf, fun h => ?_⟩
  obtain h | h := htie h
  · exact (htieUp h).resolve_left (by omega)
  · exact (htieDown h).resolve_left (by omega)

/-- The magnitude of a value in millionths, rounded as R142 rounds it. -/
def f64Micros (v : F64) : Nat := roundHalfEven (f64Num v * 10 ^ 6) (f64Den v)

/-- The rendering is a sign, the whole part of the millionths, a point and their fraction part. -/
theorem fmtF_eq (v : F64) :
    fmtF v = (if v.msb then [0x2D] else []) ++ decimalText (f64Micros v / 10 ^ 6) ++
      0x2E :: sixDigits (f64Micros v % 10 ^ 6) :=
  List.append_assoc _ _ _

/-- The digits of the rendering, read without the point, are the millionths. -/
theorem positional_micros (n : Nat) :
    positional (decimalText (n / 10 ^ 6) ++ sixDigits (n % 10 ^ 6)) = n := by
  rw [positional_append, (decimalText_isNumeral _).value, positional_sixDigits _ (Nat.mod_lt _ (by decide)),
    length_sixDigits]
  exact Nat.div_add_mod' n _

/-- The magnitude in millionths is the quotient that is rounded. -/
theorem micros_exact (v : F64) :
    10 ^ 6 * |f64Value v| = ((f64Num v * 10 ^ 6 : Nat) : ℚ) / f64Den v := by
  rw [abs_f64Value]
  push_cast
  ring

theorem eight_le_length_fmtF (v : F64) : 8 ≤ (fmtF v).length := by
  have hwhole := List.length_pos_iff.2 (decimalText_isNumeral (f64Micros v / 10 ^ 6)).ne_nil
  rw [fmtF_eq, List.length_append, List.length_append, List.length_cons, length_sixDigits]
  omega

/-- No rendering is short enough for the padding of R142: the encoding is its first six characters. -/
theorem encodeFixedAscii_eq_take {v : F64} (h : f64IsFinite v = true) :
    encodeFixedAscii v = (fmtF v).take 6 := by
  have hlen := eight_le_length_fmtF v
  rw [encodeFixedAscii, if_pos h, fitSix, if_pos (by omega)]

theorem length_encodeFixedAscii {v : F64} (h : f64IsFinite v = true) :
    (encodeFixedAscii v).length = 6 := by
  have hlen := eight_le_length_fmtF v
  rw [encodeFixedAscii_eq_take h, List.length_take]
  omega

/-- Settles O11: the two digit runs of the rendering are the numeral of the rounded millionths, cut at the
point. -/
theorem fixedAsciiIsSixCharacters : Obligations.FixedAsciiIsSixCharacters := by
  intro v hv
  refine ⟨?_, eight_le_length_fmtF v, length_encodeFixedAscii hv, encodeFixedAscii_eq_take hv⟩
  have hwhole := decimalText_isNumeral (f64Micros v / 10 ^ 6)
  have herror := roundHalfEven_error (f64Num v * 10 ^ 6) (f64Den v) (f64Den_pos v)
  rw [← micros_exact] at herror
  refine ⟨_, _, fmtF_eq v, hwhole.digits, hwhole.ne_nil, hwhole.head, allDigits_sixDigits _,
    length_sixDigits _, ?_⟩
  rw [positional_micros]
  exact herror

/-! ### Lists -/

/-- The Ascii list of `n` finite values has six characters for each and a comma between two. -/
theorem length_asciiList (vs : List F64) (h : ∀ v ∈ vs, f64IsFinite v = true) :
    (asciiList vs).length = 7 * vs.length - 1 := by
  induction vs using asciiList.induct with
  | case1 => rfl
  | case2 v => exact length_encodeFixedAscii (h v (by simp))
  | case3 v w vs ih =>
    obtain ⟨hv, hrest⟩ := List.forall_mem_cons.1 h
    rw [asciiList, List.length_append, List.length_append, length_encodeFixedAscii hv, ih hrest]
    simp only [List.length_cons, List.length_nil]
    omega

/-- The bytes of a code, low byte first, are its big-endian bytes in reverse. -/
theorem littleEndian16_eq_reverse (k : U16) : littleEndian16 k = (bigEndian16 k).reverse := rfl

theorem length_hexList (ks : List U16) : (hexList ks).length = 2 * ks.length := by
  have hbytes : ∀ k : U16, (littleEndian16 k).length = 2 := fun _ => rfl
  simp [hexList, List.length_flatMap, hbytes, Nat.mul_comm]

/-- Settles O13: both lists unfold code by code, and a code's bytes have the place values of R82 in the
other order. -/
theorem listPayloadLengths : Obligations.ListPayloadLengths := by
  refine ⟨rfl, fun _ => rfl, fun v w vs => ?_, length_asciiList, rfl, length_hexList, fun k ks => ?_⟩
  · rw [asciiList, List.append_assoc, List.singleton_append]
    rfl
  · obtain ⟨hi, lo, hbytes, hval⟩ := bigEndian16_eq_place_values k
    refine ⟨lo, hi, ?_, hval⟩
    rw [hexList, List.flatMap_cons, littleEndian16_eq_reverse, hbytes]
    rfl

end Sys2Proof.Machine

/-! PROOFS. The rescaler (spec/40_codec.md R143): clamping leaves a value between -10 and 10, and no
rounding on the way from there carries a result over a binary64 value that bounds the exact one, so the
code stays between 174 and 3975. -/

namespace Sys2Proof.Machine

/-! ### Rounding between two binary64 values -/

/-- The number is a finite binary64 value. -/
def Representable (q : ℚ) : Prop := ∃ y : F64, f64IsFinite y = true ∧ f64Value y = q

/-- A finite value lies below the overflow threshold of the rounding. -/
theorem abs_f64Value_lt_threshold {v : F64} (h : f64IsFinite v = true) :
    |f64Value v| < 2 ^ 1024 - 2 ^ 970 := by
  have hexpo : max (f64Expo v) 1 ≤ 2046 := by
    have hlt : f64Expo v < 2048 := Nat.mod_lt _ (by decide)
    have hne : f64Expo v ≠ 2047 := by simpa [f64IsFinite] using h
    omega
  have hunit : (2 : ℚ) ^ ((max (f64Expo v) 1 : ℕ) - 1075 : ℤ) ≤ 2 * 2 ^ 970 := by
    rw [← pow_succ', ← zpow_natCast]
    exact zpow_le_zpow_right₀ (by norm_num) (by omega)
  have hmant : (f64Mant v : ℚ) ≤ 2 ^ 53 - 1 := by
    have hlt : (f64Mant v : ℚ) + 1 ≤ 2 ^ 53 := by exact_mod_cast f64Mant_lt v
    linarith
  rw [abs_f64Value_eq, f64_threshold]
  calc (f64Mant v : ℚ) * 2 ^ ((max (f64Expo v) 1 : ℕ) - 1075 : ℤ)
      ≤ (2 ^ 53 - 1) * (2 * 2 ^ 970) := mul_le_mul hmant hunit (by positivity) (by norm_num)
    _ = (2 ^ 53 - 1) * 2 * 2 ^ 970 := (mul_assoc _ _ _).symm
    _ < (2 ^ 54 - 1) * 2 ^ 970 := mul_lt_mul_of_pos_right (by norm_num) (by positivity)

/-- Rounding a number between two binary64 values gives a value between them. -/
theorem NearestF64.between {q a b : ℚ} {r : F64} (h : NearestF64 q r) (ha : Representable a)
    (hb : Representable b) (haq : a ≤ q) (hqb : q ≤ b) :
    f64IsFinite r = true ∧ a ≤ f64Value r ∧ f64Value r ≤ b := by
  obtain ⟨lo, hlo, rfl⟩ := ha
  obtain ⟨hi, hhi, rfl⟩ := hb
  have hsmall : |q| < 2 ^ 1024 - 2 ^ 970 :=
    (abs_le_max_abs_abs haq hqb).trans_lt
      (max_lt (abs_f64Value_lt_threshold hlo) (abs_f64Value_lt_threshold hhi))
  rw [NearestF64, if_pos hsmall] at h
  obtain ⟨hfinite, hnearest⟩ := h
  refine ⟨hfinite, ?_, ?_⟩
  · by_contra hlt
    have hcloser := (hnearest lo hlo).1
    rw [abs_of_nonneg (by linarith), abs_of_nonneg (by linarith)] at hcloser
    linarith
  · by_contra hlt
    have hcloser := (hnearest hi hhi).1
    rw [abs_of_nonpos (by linarith), abs_of_nonpos (by linarith)] at hcloser
    linarith

/-! ### Clamping -/

/-- A key other than zero belongs to one pattern. -/
theorem eq_of_f64Key_eq {a b : F64} (h : f64Key a = f64Key b) (hne : f64Key b ≠ 0) : a = b := by
  have ha := a.isLt
  have hb := b.isLt
  apply BitVec.eq_of_toNat_eq
  unfold f64Key f64Neg at h hne
  simp only [BitVec.msb_eq_decide, decide_eq_true_eq] at h hne
  split_ifs at h hne <;> omega

/-- An infinity's pattern reads as a number of at least ten in magnitude. -/
theorem ten_le_abs_of_inf {v : F64} (h : f64IsInf v = true) : 10 ≤ |f64Value v| := by
  obtain ⟨hexpo, hfrac⟩ : f64Expo v = 2047 ∧ f64Frac v = 0 := by simpa [f64IsInf] using h
  have hmant : f64Mant v = 2 ^ 52 := by rw [f64Mant, hexpo, hfrac]; rfl
  rw [abs_f64Value_eq, hmant, hexpo]
  have hunit : (1 : ℚ) ≤ 2 ^ ((max 2047 1 : ℕ) - 1075 : ℤ) :=
    one_le_zpow₀ (by norm_num) (by norm_num)
  have hten : (10 : ℚ) ≤ ((2 ^ 52 : ℕ) : ℚ) := by norm_num
  exact hten.trans (le_mul_of_one_le_right (by positivity) hunit)

theorem f64Value_rescaleLo : f64Value rescaleLo = -10 := by decide +kernel

theorem f64Value_rescaleHi : f64Value rescaleHi = 10 := by decide +kernel

/-- The operand of the formula: the input clamped to -10 and 10. -/
def rescaleClamp (v : F64) : F64 := f64Clamp v rescaleLo rescaleHi

/-- Clamping answers the bound that the input is beyond, or else the input. -/
theorem rescaleClamp_cases (v : F64) :
    (f64Key v < f64Key rescaleLo ∧ rescaleClamp v = rescaleLo) ∨
    (f64Key rescaleHi < f64Key v ∧ rescaleClamp v = rescaleHi) ∨
    (f64Key rescaleLo ≤ f64Key v ∧ f64Key v ≤ f64Key rescaleHi ∧ rescaleClamp v = v) := by
  have hbounds : f64Key rescaleLo < f64Key rescaleHi := by decide +kernel
  unfold rescaleClamp f64Clamp
  dsimp only
  by_cases hlo : f64Key v < f64Key rescaleLo
  · rw [if_pos hlo, if_neg hbounds.not_gt]
    exact .inl ⟨hlo, rfl⟩
  · rw [if_neg hlo]
    by_cases hhi : f64Key rescaleHi < f64Key v
    · exact .inr (.inl ⟨hhi, if_pos hhi⟩)
    · exact .inr (.inr ⟨not_lt.1 hlo, not_lt.1 hhi, if_neg hhi⟩)

/-- The clamped input lies between -10 and 10. -/
theorem rescaleClamp_bounds (v : F64) :
    -10 ≤ f64Value (rescaleClamp v) ∧ f64Value (rescaleClamp v) ≤ 10 := by
  obtain ⟨-, heq⟩ | ⟨-, heq⟩ | ⟨hlo, hhi, heq⟩ := rescaleClamp_cases v
  · rw [heq, f64Value_rescaleLo]; norm_num
  · rw [heq, f64Value_rescaleHi]; norm_num
  · rw [heq, ← f64Value_rescaleLo, ← f64Value_rescaleHi]
    exact ⟨f64Value_le_of_key _ _ hlo, f64Value_le_of_key _ _ hhi⟩

/-- From 10 on, the input is clamped to 10. -/
theorem rescaleClamp_of_ten_le {v : F64} (h : 10 ≤ f64Value v) : rescaleClamp v = rescaleHi := by
  obtain ⟨hlo, -⟩ | ⟨-, heq⟩ | ⟨-, hhi, heq⟩ := rescaleClamp_cases v
  · have hlt := f64Value_lt_of_key _ _ hlo
    rw [f64Value_rescaleLo] at hlt
    linarith
  · exact heq
  · have hge : f64Key rescaleHi ≤ f64Key v := by
      by_contra hlt
      have hvalue := f64Value_lt_of_key _ _ (not_le.1 hlt)
      rw [f64Value_rescaleHi] at hvalue
      linarith
    rw [heq]
    exact eq_of_f64Key_eq (le_antisymm hhi hge) (by decide +kernel)

/-- Up to -10, the input is clamped to -10. -/
theorem rescaleClamp_of_le_neg_ten {v : F64} (h : f64Value v ≤ -10) : rescaleClamp v = rescaleLo := by
  obtain ⟨-, heq⟩ | ⟨hhi, -⟩ | ⟨hlo, -, heq⟩ := rescaleClamp_cases v
  · exact heq
  · have hlt := f64Value_lt_of_key _ _ hhi
    rw [f64Value_rescaleHi] at hlt
    linarith
  · have hle : f64Key v ≤ f64Key rescaleLo := by
      by_contra hlt
      have hvalue := f64Value_lt_of_key _ _ (not_le.1 hlt)
      rw [f64Value_rescaleLo] at hvalue
      linarith
    rw [heq]
    exact eq_of_f64Key_eq (le_antisymm hle hlo) (by decide +kernel)

/-- Between -10 and 10 the input is not clamped. -/
theorem rescaleClamp_of_between {v : F64} (hlo : -10 ≤ f64Value v) (hhi : f64Value v ≤ 10) :
    rescaleClamp v = v := by
  rw [← f64Value_rescaleLo] at hlo
  rw [← f64Value_rescaleHi] at hhi
  obtain ⟨hlt, -⟩ | ⟨hlt, -⟩ | ⟨-, -, heq⟩ := rescaleClamp_cases v
  · exact absurd (f64Value_lt_of_key _ _ hlt) hlo.not_gt
  · exact absurd (f64Value_lt_of_key _ _ hlt) hhi.not_gt
  · exact heq

/-! ### The formula -/

/-- The quotient that is truncated to the code. -/
def rescaleScaled (x : F64) : F64 := f64Div (f64Mul (f64Add rescaleOffset x) rescaleSteps) rescaleSpan

theorem nearestF64_rescaleOffset : NearestF64 (1092 / 100) rescaleOffset := by
  rw [rescaleOffset]
  convert f64OfDecimal_nearest false 1092 (-2) using 1
  norm_num

theorem nearestF64_rescaleSpan : NearestF64 (21555 / 1000) rescaleSpan := by
  rw [rescaleSpan]
  convert f64OfDecimal_nearest false 21555 (-3) using 1
  norm_num

theorem f64Value_rescaleSteps : f64Value rescaleSteps = 4096 := by decide +kernel

theorem f64Value_rescaleOffset_bounds :
    10919 / 1000 ≤ f64Value rescaleOffset ∧ f64Value rescaleOffset ≤ 10921 / 1000 := by decide +kernel

theorem f64Value_rescaleSpan_bounds :
    21554 / 1000 ≤ f64Value rescaleSpan ∧ f64Value rescaleSpan ≤ 21556 / 1000 := by decide +kernel

/-- What a decimal number converts to is representable; exact conversions give the bounds used below. -/
theorem representable_of_decimal (d : Nat) (e : Int) {q : ℚ}
    (hfinite : f64IsFinite (f64OfDecimal false d e) = true)
    (hvalue : f64Value (f64OfDecimal false d e) = q) : Representable q := ⟨_, hfinite, hvalue⟩

/-- The sum of the formula: rounded, it stays between two values around 0.92 and 20.92. -/
theorem rescale_sum_bounds {x : F64} (hlo : -10 ≤ f64Value x) (hhi : f64Value x ≤ 10) :
    f64IsFinite (f64Add rescaleOffset x) = true ∧
    235 / 256 ≤ f64Value (f64Add rescaleOffset x) ∧ f64Value (f64Add rescaleOffset x) ≤ 5356 / 256 := by
  have hrepLo : Representable (235 / 256) :=
    representable_of_decimal 91796875 (-8) (by decide +kernel) (by decide +kernel)
  have hrepHi : Representable (5356 / 256) :=
    representable_of_decimal 20921875 (-6) (by decide +kernel) (by decide +kernel)
  obtain ⟨hoffLo, hoffHi⟩ := f64Value_rescaleOffset_bounds
  exact (f64Add_nearest rescaleOffset x).between hrepLo hrepHi (by linarith) (by linarith)

/-- The product of the formula is the sum times 4096, rounded. -/
theorem rescale_product_nearest {sum : F64} (h : f64IsFinite sum = true) :
    NearestF64 (f64Value sum * 4096) (f64Mul sum rescaleSteps) := by
  rw [← f64Value_rescaleSteps]
  exact f64Mul_nearest _ _ h (by decide +kernel)

/-- The product stays between 4096 times the bounds of the sum. -/
theorem rescale_product_bounds {sum : F64} (hfinite : f64IsFinite sum = true)
    (hlo : 235 / 256 ≤ f64Value sum) (hhi : f64Value sum ≤ 5356 / 256) :
    3760 ≤ f64Value (f64Mul sum rescaleSteps) ∧ f64Value (f64Mul sum rescaleSteps) ≤ 85696 := by
  have hrepLo : Representable 3760 :=
    representable_of_decimal 3760 0 (by decide +kernel) (by decide +kernel)
  have hrepHi : Representable 85696 :=
    representable_of_decimal 85696 0 (by decide +kernel) (by decide +kernel)
  exact ((rescale_product_nearest hfinite).between hrepLo hrepHi (by linarith) (by linarith)).2

/-- The quotient of the formula is the product over the span, rounded. -/
theorem rescale_quotient_nearest (product : F64) :
    NearestF64 (f64Value product / f64Value rescaleSpan) (f64Div product rescaleSpan) :=
  f64Div_nearest _ _ (by linarith [f64Value_rescaleSpan_bounds.1] : (0 : ℚ) < f64Value rescaleSpan).ne'

/-- The quotient stays between 174 and a value below 3976. -/
theorem rescale_quotient_bounds {product : F64} (hlo : 3760 ≤ f64Value product)
    (hhi : f64Value product ≤ 85696) :
    174 ≤ f64Value (f64Div product rescaleSpan) ∧
    f64Value (f64Div product rescaleSpan) ≤ 63615 / 16 := by
  have hrepLo : Representable 174 :=
    representable_of_decimal 174 0 (by decide +kernel) (by decide +kernel)
  have hrepHi : Representable (63615 / 16) :=
    representable_of_decimal 39759375 (-4) (by decide +kernel) (by decide +kernel)
  obtain ⟨hspanLo, hspanHi⟩ := f64Value_rescaleSpan_bounds
  have hspan : 0 < f64Value rescaleSpan := by linarith
  refine ((rescale_quotient_nearest product).between hrepLo hrepHi ?_ ?_).2
  · rw [le_div_iff₀ hspan]
    linarith
  · rw [div_le_iff₀ hspan]
    linarith

/-- For an operand between -10 and 10 the truncated quotient is a code of R143. -/
theorem rescaleScaled_trunc_bounds {x : F64} (hlo : -10 ≤ f64Value x) (hhi : f64Value x ≤ 10) :
    174 ≤ f64Trunc (rescaleScaled x) ∧ f64Trunc (rescaleScaled x) ≤ 3975 := by
  obtain ⟨hfinite, hsumLo, hsumHi⟩ := rescale_sum_bounds hlo hhi
  obtain ⟨hprodLo, hprodHi⟩ := rescale_product_bounds hfinite hsumLo hsumHi
  obtain ⟨hquotLo, hquotHi⟩ := rescale_quotient_bounds hprodLo hprodHi
  rw [f64Trunc_eq, truncToward0, rescaleScaled, if_pos (by linarith)]
  refine ⟨Int.le_floor.2 (by exact_mod_cast hquotLo), Int.le_of_lt_add_one (Int.floor_lt.2 ?_)⟩
  push_cast
  linarith

/-! ### The code -/

/-- A number of twelve bits is left whole by the code's mask. -/
theorem toNat_ofInt_mask {k : ℤ} (hlo : 0 ≤ k) (hhi : k < 4096) :
    (((BitVec.ofInt 16 k &&& 0x0FFF : U16).toNat : ℕ) : ℤ) = k := by
  have hmask : (BitVec.ofInt 16 k &&& 0x0FFF : U16).toNat = (BitVec.ofInt 16 k).toNat % 2 ^ 12 := by
    rw [BitVec.toNat_and, ← Nat.and_two_pow_sub_one_eq_mod]
    rfl
  rw [hmask, BitVec.toNat_ofInt]
  omega

/-- The code is the truncated quotient for the clamped input. -/
theorem rescale12bit_toNat {v : F64} (hnan : f64IsNaN v = false) :
    ((rescale12bit v).toNat : ℤ) = f64Trunc (rescaleScaled (rescaleClamp v)) := by
  obtain ⟨hlo, hhi⟩ := rescaleClamp_bounds v
  obtain ⟨hcodeLo, hcodeHi⟩ := rescaleScaled_trunc_bounds hlo hhi
  rw [rescale12bit, if_neg (by simp [hnan])]
  exact toNat_ofInt_mask (k := f64Trunc (rescaleScaled (rescaleClamp v))) (by omega) (by omega)

theorem rescale12bit_range {v : F64} (hnan : f64IsNaN v = false) :
    174 ≤ (rescale12bit v).toNat ∧ (rescale12bit v).toNat ≤ 3975 := by
  obtain ⟨hlo, hhi⟩ := rescaleClamp_bounds v
  have hcode := rescaleScaled_trunc_bounds hlo hhi
  rw [← rescale12bit_toNat hnan] at hcode
  exact_mod_cast hcode

theorem rescale12bit_of_ten_le {v : F64} (hnan : f64IsNaN v = false) (h : 10 ≤ f64Value v) :
    (rescale12bit v).toNat = 3975 := by
  have htop : f64Trunc (rescaleScaled rescaleHi) = 3975 := by decide +kernel
  have hcode := rescale12bit_toNat hnan
  rw [rescaleClamp_of_ten_le h, htop] at hcode
  exact_mod_cast hcode

theorem rescale12bit_of_le_neg_ten {v : F64} (hnan : f64IsNaN v = false) (h : f64Value v ≤ -10) :
    (rescale12bit v).toNat = 174 := by
  have hbottom : f64Trunc (rescaleScaled rescaleLo) = 174 := by decide +kernel
  have hcode := rescale12bit_toNat hnan
  rw [rescaleClamp_of_le_neg_ten h, hbottom] at hcode
  exact_mod_cast hcode

/-- An infinity's code is that of the bound of its sign. -/
theorem rescale12bit_of_inf {v : F64} (hnan : f64IsNaN v = false) (h : f64IsInf v = true) :
    (rescale12bit v).toNat = if f64Neg v then 174 else 3975 := by
  have hbig := ten_le_abs_of_inf h
  have hsign := f64Value_sign v
  cases hneg : f64Neg v with
  | true => exact rescale12bit_of_le_neg_ten hnan (by rw [hsign, hneg, if_pos rfl]; linarith)
  | false =>
    exact rescale12bit_of_ten_le hnan (by rw [hsign, hneg, if_neg Bool.false_ne_true]; linarith)

/-- Between -10 and 10 the code is the truncated quotient of the formula, each operation rounded. -/
theorem rescale12bit_formula {v : F64} (hnan : f64IsNaN v = false) (hlo : -10 ≤ f64Value v)
    (hhi : f64Value v ≤ 10) :
    ∃ offset span sum product scaled : F64,
      NearestF64 (1092 / 100) offset ∧ NearestF64 (21555 / 1000) span ∧
      NearestF64 (f64Value offset + f64Value v) sum ∧
      NearestF64 (f64Value sum * 4096) product ∧
      NearestF64 (f64Value product / f64Value span) scaled ∧
      ((rescale12bit v).toNat : ℤ) = truncToward0 (f64Value scaled) := by
  have hcode : ((rescale12bit v).toNat : ℤ) = truncToward0 (f64Value (rescaleScaled v)) := by
    rw [rescale12bit_toNat hnan, rescaleClamp_of_between hlo hhi, f64Trunc_eq]
  obtain ⟨hfinite, -, -⟩ := rescale_sum_bounds hlo hhi
  exact ⟨rescaleOffset, rescaleSpan, _, _, rescaleScaled v, nearestF64_rescaleOffset,
    nearestF64_rescaleSpan, f64Add_nearest _ _, rescale_product_nearest hfinite, rescale_quotient_nearest _, hcode⟩

/-- Settles O12: the operations round the exact result, and the code is read off the clamped input. -/
theorem rescaleRangeAndClamping : Obligations.RescaleRangeAndClamping := by
  refine ⟨fun x y hx hy => ?_, fun v hnan => ?_⟩
  · exact ⟨f64Add_nearest x y, f64Mul_nearest x y hx hy, f64Div_nearest x y⟩
  · obtain ⟨hmin, hmax⟩ := rescale12bit_range hnan
    refine ⟨hmin, hmax, rescale12bit_of_inf hnan, fun _ => ⟨fun h => ?_, fun h => ?_, ?_⟩⟩
    · exact BitVec.eq_of_toNat_eq (rescale12bit_of_ten_le hnan h)
    · exact BitVec.eq_of_toNat_eq (rescale12bit_of_le_neg_ten hnan h)
    · exact rescale12bit_formula hnan

end Sys2Proof.Machine

/-! PROOFS. The chunks that emit no frame (spec/41_reassembler.md R170 to R172): which chunk selects which
row, the step that runs it, and the rows that only hold a chunk or skip it. -/

namespace Sys2Proof.Machine

/-! ### The row of a chunk -/

theorem decodeChunk_nil (a : Bool) : decodeChunk a [] = .chunkEmpty := rfl

theorem decodeChunk_of_appending {c : List Byte} (hne : c ≠ []) :
    decodeChunk true c = .chunkAppendCont c := by
  rw [decodeChunk, if_neg hne, if_pos rfl]

theorem decodeChunk_of_startsAppend {c : List Byte} (hstart : startsAppend c = true) :
    decodeChunk false c = .chunkAppendStart c := by
  rw [decodeChunk, if_neg (ne_nil_of_startsAppend hstart), if_neg Bool.false_ne_true, if_pos hstart]

theorem decodeChunk_of_not_startsAppend {c : List Byte} (hne : c ≠ []) (hstart : ¬startsAppend c = true) :
    decodeChunk false c = .chunkVerbatim c := by
  rw [decodeChunk, if_neg hne, if_neg Bool.false_ne_true, if_neg hstart]

/-! ### The step that runs it -/

/-- A ready `TASK` takes the oldest chunk and runs its row (R170). -/
theorem taskStep_of_chunk {s : State} {c : List Byte} {more : List (List Byte)}
    (hready : s.taskPhase = .ready) (hrx : s.rx = c :: more) :
    taskStep s = exec (decodeChunk s.fraAppending c) { s with rx := more } := by
  simp only [taskStep, hready, hrx]

theorem step_of_disarmed {s : State} (h : s.timerArmed = false) : step s = taskStep s := by
  have hdraw : drawTick s = (false, s) := by simp only [drawTick, h, if_neg Bool.false_ne_true]
  simp only [step, hdraw, if_neg Bool.false_ne_true]

/-- A scripted draw without a tick is used up (log entry 8). -/
theorem step_of_no_tick {s : State} {ticks : List Bool} (harmed : s.timerArmed = true)
    (htick : s.tickIn = false :: ticks) : step s = taskStep { s with tickIn := ticks } := by
  have hdraw : drawTick s = (false, { s with tickIn := ticks }) := by
    simp only [drawTick, harmed, if_pos, htick]
  simp only [step, hdraw, if_neg Bool.false_ne_true]

/-! ### Obligations -/

/-- Settles O15: the row is decoded from the empty chunk alone, and its meaning is the state as it is. -/
theorem emptyChunkChangesNothing : Obligations.EmptyChunkChangesNothing :=
  fun s => ⟨decodeChunk_nil s.fraAppending, rfl⟩

/-- Settles O16: a chunk of at most 14 bytes fits the append buffer, and reading back what was written
gives it. -/
theorem shortHeaderOpensAppend : Obligations.ShortHeaderOpensAppend := by
  intro c s _ hmax
  exact ⟨_, rfl, rfl, rfl, memRead_memWrite_same s.appBuf 0 c (by omega), rfl⟩

/-- Settles O53: the rows of a chunk by `startsAppend`, and the step by its tick draw. -/
theorem stepRunsDecodedChunk : Obligations.StepRunsDecodedChunk := by
  refine ⟨fun a st b => ⟨rfl, rfl, rfl⟩, decodeChunk_nil, fun b => decodeChunk_of_appending,
    fun b hne => ⟨fun hstart => ?_, fun hstart => ?_⟩,
    fun s c more hready hrx => ⟨fun hdisarmed i hi => ?_, fun ticks harmed htick i hi => ?_⟩⟩
  · exact decodeChunk_of_startsAppend ((startsAppend_iff b).2 hstart)
  · exact decodeChunk_of_not_startsAppend hne (mt (startsAppend_iff b).1 hstart)
  · obtain rfl := Except.ok.inj hi
    rw [step_of_disarmed hdisarmed, taskStep_of_chunk hready hrx]
  · obtain rfl := Except.ok.inj hi
    rw [step_of_no_tick harmed htick, taskStep_of_chunk (s := { s with tickIn := ticks }) hready hrx]

end Sys2Proof.Machine

/-! PROOFS. The chunks that emit a frame (spec/41_reassembler.md R173 to R175): a verbatim chunk, and the
chunk that completes an append.  Both load a frame of 1 to 30 bytes, whose row then runs. -/

namespace Sys2Proof.Machine

/-- An append that stays below 15 bytes takes the whole chunk and reports nothing (R174). -/
theorem execChunkAppendCont_of_lt {c : List Byte} {s : State} (h : s.appLen + c.length < 15) :
    execChunkAppendCont c s =
      .next { s with appBuf := memWrite s.appBuf s.appLen c, appLen := s.appLen + c.length } := by
  have htake : c.take (15 - s.appLen) = c := List.take_of_length_le (by omega)
  have hmin : min c.length (15 - s.appLen) = c.length := by omega
  have hchunk : appendChunk c s =
      { s with appBuf := memWrite s.appBuf s.appLen c, appLen := s.appLen + c.length } := by
    rw [appendChunk_eq c s (by omega), htake, hmin, if_neg (by omega), List.append_nil]
  simp only [execChunkAppendCont, hchunk, hdrLen, if_neg h.ne]

/-- The header an append holds once it takes the chunk (R174). -/
def completedHeader (c : List Byte) (s : State) : List Byte :=
  memRead s.appBuf 0 s.appLen ++ c.take (15 - s.appLen)

/-- The append closed on the chunk that completes it (R174). -/
def closeAppend (c : List Byte) (s : State) : State :=
  { appendChunk c s with fraAppending := false, appLen := 0 }

theorem closeAppend_eq {c : List Byte} {s : State} (hheld : s.appLen ≤ 15) :
    closeAppend c s = { s with
      appBuf := memWrite s.appBuf s.appLen (c.take (15 - s.appLen))
      appLen := 0
      fraAppending := false
      out := s.out ++ if 15 < s.appLen + c.length then [.diag .appendCapacity] else [] } := by
  rw [closeAppend, appendChunk_eq c s hheld]

theorem completedHeader_length {c : List Byte} {s : State} (hheld : s.appLen ≤ 15)
    (h : 15 ≤ s.appLen + c.length) : (completedHeader c s).length = 15 := by
  simp [completedHeader]; omega

/-- An append that reaches 15 bytes is closed and its header emitted (R174). -/
theorem execChunkAppendCont_of_le {c : List Byte} {s : State} (hheld : s.appLen ≤ 15)
    (h : 15 ≤ s.appLen + c.length) :
    execChunkAppendCont c s = emitFrame (completedHeader c s) (closeAppend c s) := by
  have htaken : s.appLen + (c.take (15 - s.appLen)).length = 15 := by simp; omega
  have hbuf := memRead_memWrite_extend s.appBuf s.appLen (c.take (15 - s.appLen)) htaken.le
  rw [htaken] at hbuf
  have hfull : s.appLen + min c.length (15 - s.appLen) = 15 := by omega
  simp only [execChunkAppendCont, completedHeader, closeAppend, appendChunk_eq c s hheld, hdrLen, hfull,
    if_pos, hbuf]

/-- Settles O17: below 15 bytes the chunk is written after the held bytes; at 15 bytes the frame step of
the closed append gives the row, its outcome and the end of the frame. -/
theorem appendContinues : Obligations.AppendContinues := by
  refine fun c s _ hheld => ⟨fun hlt => ?_, fun hle => ?_⟩
  · exact ⟨_, execChunkAppendCont_of_lt hlt, rfl,
      memRead_memWrite_extend s.appBuf s.appLen c hlt.le, rfl⟩
  · have hlen : (completedHeader c s).length = 15 := completedHeader_length (by omega) hle
    have hclose := closeAppend_eq (c := c) (s := s) (by omega)
    obtain ⟨i, t, hrow, hexec, hstep⟩ := psmStep_next (completedHeader c s) (closeAppend c s)
      (List.ne_nil_of_length_pos (by omega)) (by omega)
    have hframe := frame_loadFrame (completedHeader c s) (closeAppend c s) (by omega)
    refine ⟨loadFrame (completedHeader c s) (closeAppend c s), i, t,
      (execChunkAppendCont_of_le (by omega) hle).trans hstep, hframe, hlen, rfl, rfl, ?reported, ?frame,
      ?row, hexec, endFrame_eq t⟩
    case reported => rw [loadFrame_out, hclose]
    case frame => rw [hclose]; rfl
    case row => rw [hframe, ← hrow, hclose]

/-- Settles O18: the frame step of the chunk, cut to the receive capacity, gives the row, its outcome and
the end of the frame. -/
theorem verbatimChunkRunsItsFrame : Obligations.VerbatimChunkRunsItsFrame := by
  intro c s hne
  have hcut : (c.take 30).length ≤ 30 := List.length_take_le _ _
  obtain ⟨i, t, hrow, hexec, hstep⟩ := psmStep_next (c.take 30) s (by simp [hne]) hcut
  have hlen : (c.take 30).length = min c.length 30 := by rw [List.length_take, Nat.min_comm]
  exact ⟨loadFrame (c.take 30) s, i, t, hstep, frame_loadFrame _ s hcut, hlen, rfl, hrow, hexec,
    endFrame_eq t⟩

end Sys2Proof.Machine

/-! PROOFS. A split header ends where the whole chunk does (spec/41_reassembler.md R177).  No frame row and
no command row reads or writes the append registers, so running a frame commutes with a change of them. -/

namespace Sys2Proof.Machine

/-- A state with other contents of the append registers (R34). -/
def State.withAppend (buf : Vector Byte 15) (len : Nat) (s : State) : State :=
  { s with appBuf := buf, appLen := len }

/-- A meaning that neither reads nor writes the append registers. -/
def AppendBlind (f : State → Result) : Prop :=
  ∀ buf len s, f (s.withAppend buf len) = andThen (f s) fun t => .next (t.withAppend buf len)

theorem appendBlind_next {f : State → State}
    (h : ∀ buf len s, f (s.withAppend buf len) = (f s).withAppend buf len) :
    AppendBlind fun s => .next (f s) :=
  fun buf len s => congrArg Host.Outcome.next (h buf len s)

theorem appendBlind_andThen {f g : State → Result} (hf : AppendBlind f) (hg : AppendBlind g) :
    AppendBlind fun s => andThen (f s) g := by
  intro buf len s
  refine (congrArg (andThen · g) (hf buf len s)).trans ?_
  dsimp only
  cases f s with
  | next t => exact hg buf len t
  | fault e => rfl
  | refused e => rfl

/-! ### The cases of a list -/

theorem sendList_of_ascii (k : Continuation) {s : State} (h : s.hdr.valueType = .ascii) :
    sendList k s = finishList k (asciiList (readChannels (activeChannels s) s).1)
      (readChannels (activeChannels s) s).2 := by
  simp only [sendList, h]

theorem sendList_of_hex_cons (k : Continuation) {s : State} {e : SampleEvent} {q : List SampleEvent}
    (h : s.hdr.valueType = .hex) (hq : s.sq = e :: q) :
    sendList k s = finishList k (hexPayload (takeSample e q s)) (takeSample e q s) := by
  simp only [sendList, h, hq]

theorem sendList_of_hex_nil (k : Continuation) {s : State} (h : s.hdr.valueType = .hex)
    (hq : s.sq = []) : sendList k s = holdForSample k s := by
  simp only [sendList, h, hq]

theorem batchStep_of_done {s : State} (h : s.sampleIndex.zeroExtend 32 = s.trigCount) :
    batchStep s = { send s.params.endPacket s with commState := .waitingRoleswap } :=
  if_pos h

theorem batchStep_of_more {s : State} (h : ¬s.sampleIndex.zeroExtend 32 = s.trigCount) :
    batchStep s = sendList .batchTail s :=
  if_neg h

section
variable (buf : Vector Byte 15) (len : Nat) (s : State)

/-! ### Updates -/

theorem setChannelOp_withAppend (c : Channel) (op : I32) :
    setChannelOp c op (s.withAppend buf len) = (setChannelOp c op s).withAppend buf len := by
  rw [setChannelOp_eq, setChannelOp_eq]; rfl

theorem publish_withAppend (k : Channel) (v : Token) :
    publish k v (s.withAppend buf len) = (publish k v s).withAppend buf len := by
  rw [publish_eq, publish_eq]; rfl

theorem announceLength_withAppend (size : U16) :
    announceLength size (s.withAppend buf len) = (announceLength size s).withAppend buf len := by
  rw [announceLength_eq, announceLength_eq]; rfl

theorem sendPacket_withAppend (p : List Byte) :
    sendPacket p (s.withAppend buf len) = (sendPacket p s).withAppend buf len := by
  rw [sendPacket_eq, sendPacket_eq]; rfl

theorem finishList_withAppend (k : Continuation) (p : List Byte) :
    finishList k p (s.withAppend buf len) = (finishList k p s).withAppend buf len := by
  rw [finishList_eq, finishList_eq]; rfl

theorem endFrame_withAppend : endFrame (s.withAppend buf len) = (endFrame s).withAppend buf len := by
  rw [endFrame_eq, endFrame_eq]; rfl

/-! ### Draws -/

theorem drawAdc_withAppend (c : Channel) :
    drawAdc c (s.withAppend buf len) = ((drawAdc c s).1, (drawAdc c s).2.withAppend buf len) := by
  cases h : s.adcIn <;> simp only [drawAdc, State.withAppend, h]

theorem drawConn_withAppend :
    drawConn (s.withAppend buf len) = ((drawConn s).1, (drawConn s).2.withAppend buf len) := by
  cases h : s.connIn <;> simp only [drawConn, State.withAppend, h]

theorem readChannels_withAppend (cs : List Channel) :
    readChannels cs (s.withAppend buf len) =
      ((readChannels cs s).1, (readChannels cs s).2.withAppend buf len) := by
  induction cs generalizing s with
  | nil => rfl
  | cons c cs ih => simp only [readChannels, drawAdc_withAppend, ih]

/-! ### Packets -/

theorem sendStatus_withAppend :
    sendStatus (s.withAppend buf len) = (sendStatus s).withAppend buf len := by
  simp only [sendStatus, statusByte, drawConn_withAppend, sendPacket_withAppend]; rfl

theorem sendSample_withAppend (k : Channel) :
    sendSample k (s.withAppend buf len) = (sendSample k s).withAppend buf len := by
  simp only [sendSample, drawAdc_withAppend, sendPacket_withAppend]; rfl

theorem sendStatusCheck_withAppend :
    sendStatusCheck (s.withAppend buf len) = (sendStatusCheck s).withAppend buf len :=
  congrArg (fun u : State => { u with commState := .waitingPacketAck })
    (sendPacket_withAppend buf len { s with pendingCmd := .none } _)

/-- A voltage list reads the port or the queue, or holds its frame (R258, R259, R262). -/
theorem sendList_withAppend (k : Continuation) :
    sendList k (s.withAppend buf len) = (sendList k s).withAppend buf len := by
  cases hv : s.hdr.valueType with
  | ascii =>
    have hactive : activeChannels (s.withAppend buf len) = activeChannels s := rfl
    rw [sendList_of_ascii k hv, sendList_of_ascii k (s := s.withAppend buf len) hv, hactive,
      readChannels_withAppend, finishList_withAppend]
  | hex =>
    cases hq : s.sq with
    | nil =>
      rw [sendList_of_hex_nil k hv hq, sendList_of_hex_nil k (s := s.withAppend buf len) hv hq]; rfl
    | cons e q =>
      rw [sendList_of_hex_cons k hv hq, sendList_of_hex_cons k (s := s.withAppend buf len) hv hq]
      exact finishList_withAppend buf len (takeSample e q s) k _

theorem batchStep_withAppend :
    batchStep (s.withAppend buf len) = (batchStep s).withAppend buf len := by
  by_cases h : s.sampleIndex.zeroExtend 32 = s.trigCount
  · rw [batchStep_of_done h, batchStep_of_done (s := s.withAppend buf len) h]; rfl
  · rw [batchStep_of_more h, batchStep_of_more (s := s.withAppend buf len) h, sendList_withAppend]

end

/-! ### Command rows -/

theorem execCmdTrigger_appendBlind : AppendBlind execCmdTrigger := by
  intro buf len s
  by_cases h : minTriggerPeriodUs ≤ s.trigPeriodUs
  · simp only [execCmdTrigger, State.withAppend, h, if_pos]; rfl
  · simp only [execCmdTrigger, State.withAppend, h, if_neg, not_false_eq_true]; rfl

theorem runCommand_appendBlind (i : Instr) : AppendBlind (runCommand i) := by
  intro buf len s
  cases i
  case cmdChsetup chan op =>
    simp only [runCommand, execCmdChsetup]
    split
    · exact congrArg Host.Outcome.next (setChannelOp_withAppend buf len s _ _)
    · rfl
  case cmdTrigger => exact execCmdTrigger_appendBlind buf len s
  case metaPublish1 v => exact congrArg Host.Outcome.next (publish_withAppend buf len s _ v)
  case metaPublish2 v => exact congrArg Host.Outcome.next (publish_withAppend buf len s _ v)
  case metaPublish3 v => exact congrArg Host.Outcome.next (publish_withAppend buf len s _ v)
  all_goals rfl

theorem interpret_appendBlind (b : List Byte) : AppendBlind (interpret b) := by
  intro buf len s
  unfold interpret
  split
  · exact runCommand_appendBlind _ buf len s
  · rfl

/-! ### Frame rows -/

theorem execHdrSend_appendBlind (h : HdrFields) : AppendBlind (execHdrSend h) :=
  fun buf len s =>
    congrArg (fun u : State => (.next { send [wireBOk] u with commState := .waitingData } : Result))
      (announceLength_withAppend buf len { s with hdr := decodeHeader .send h, dir1 := true } _)

/-- A data frame checks its mark, runs its command and acknowledges it (R239): three blind parts. -/
theorem execData_appendBlind (b : List Byte) : AppendBlind (execData b) := by
  have hmark : AppendBlind fun s => .next (if b.head? = some wireMark then clearDataError s
      else raiseDataError .dataNoStart (clearDataError s)) := by
    refine appendBlind_next fun buf len s => ?_
    split <;> rfl
  have hdone : AppendBlind fun s =>
      .next { clearDataError (send [dataAck s] s) with commState := .idle } :=
    appendBlind_next fun _ _ _ => rfl
  have hparts := appendBlind_andThen hmark (appendBlind_andThen (interpret_appendBlind b) hdone)
  exact hparts

/-- The packet of each response case (R241). -/
theorem execAckBOkHdr_appendBlind : AppendBlind execAckBOkHdr := by
  intro buf len s
  have hcase : headerCase (s.withAppend buf len) = headerCase s := rfl
  have hmode : (s.withAppend buf len).trigMode = s.trigMode := rfl
  unfold execAckBOkHdr
  rw [hcase, hmode]
  cases headerCase s with
  | status => exact congrArg Host.Outcome.next (sendStatus_withAppend buf len s)
  | sample k => exact congrArg Host.Outcome.next (sendSample_withAppend buf len s k)
  | statusCheck => exact congrArg Host.Outcome.next (sendStatusCheck_withAppend buf len s)
  | voltageList =>
    cases s.trigMode with
    | batch => exact congrArg Host.Outcome.next (batchStep_withAppend buf len s)
    | realTime => exact congrArg Host.Outcome.next (sendList_withAppend buf len s _)

theorem runFrame_appendBlind (i : Instr) : AppendBlind (runFrame i) := by
  cases i
  case hdrSend h => exact execHdrSend_appendBlind h
  case data b => exact execData_appendBlind b
  case ackBOkHdr r => exact execAckBOkHdr_appendBlind
  all_goals exact fun _ _ _ => rfl

theorem psmStep_appendBlind : AppendBlind psmStep := by
  intro buf len s
  have hrow : decodeFrame (s.withAppend buf len).commState (s.withAppend buf len).frame =
      decodeFrame s.commState s.frame := rfl
  unfold psmStep
  rw [hrow]
  cases decodeFrame s.commState s.frame with
  | error e => rfl
  | ok i =>
    have hend : AppendBlind fun s => .next (endFrame s) := appendBlind_next endFrame_withAppend
    exact appendBlind_andThen (runFrame_appendBlind i) hend buf len s

/-- Emitting a frame does not depend on the append registers (R175). -/
theorem emitFrame_appendBlind (f : List Byte) : AppendBlind (emitFrame f) :=
  fun buf len s => psmStep_appendBlind buf len (loadFrame f s)

/-! ### The split header -/

/-- The state a chunk that opens an append leaves (R172). -/
def openAppend (c : List Byte) (s : State) : State :=
  { s with appBuf := memWrite s.appBuf 0 c, appLen := c.length, fraAppending := true }

section
variable {s : State} {h : List Byte} {j : Nat} {rest : List (List Byte)}

/-- The first part of a header opens an append when it has 3 to 14 bytes (R170). -/
theorem startsAppend_take_header (hlen : h.length = 15) (hmark : h[0]? = some 0x3A)
    (hdir : h[1]? = some 0x4E ∨ h[1]? = some 0x52) (hmin : 3 ≤ j) (hmax : j ≤ 14) :
    startsAppend (h.take j) = true := by
  rw [startsAppend_iff, List.length_take, List.getElem?_take_of_lt (by omega),
    List.getElem?_take_of_lt (by omega)]
  exact ⟨by omega, by omega, hmark, hdir⟩

theorem taskStep_of_opening_chunk {c : List Byte} (hready : s.taskPhase = .ready)
    (hclosed : s.fraAppending = false) (hrx : s.rx = c :: rest) (hstart : startsAppend c = true) :
    taskStep s = .next (openAppend c { s with rx := rest }) := by
  rw [taskStep_of_chunk hready hrx, hclosed, decodeChunk_of_startsAppend hstart]; rfl

/-- A whole header is emitted as it stands (R173). -/
theorem taskStep_of_whole_header (hready : s.taskPhase = .ready) (hclosed : s.fraAppending = false)
    (hlen : h.length = 15) (hrx : s.rx = h :: rest) :
    taskStep s = emitFrame h { s with rx := rest } := by
  have hne : h ≠ [] := List.ne_nil_of_length_pos (by omega)
  have hstart : ¬startsAppend h = true := by rw [startsAppend_iff]; omega
  have hcut : h.take rxCap = h := List.take_of_length_le (by rw [hlen, rxCap]; omega)
  rw [taskStep_of_chunk hready hrx, hclosed, decodeChunk_of_not_startsAppend hne hstart]
  exact congrArg (emitFrame · _) hcut

/-- The two parts held together are the header. -/
theorem completedHeader_openAppend (hlen : h.length = 15) (hmax : j ≤ 14) :
    completedHeader (h.drop j) (openAppend (h.take j) s) = h := by
  have htake : (h.take j).length = j := by simp; omega
  have hdrop : (h.drop j).length ≤ 15 - (h.take j).length := by simp; omega
  have hread := memRead_memWrite_same s.appBuf 0 (h.take j) (by omega)
  calc completedHeader (h.drop j) (openAppend (h.take j) s)
      = memRead (memWrite s.appBuf 0 (h.take j)) 0 (h.take j).length ++
          (h.drop j).take (15 - (h.take j).length) := rfl
    _ = h.take j ++ h.drop j := by rw [hread, List.take_of_length_le hdrop]
    _ = h := List.take_append_drop j h

/-- Two parts of 15 bytes together leave no surplus, and the append is closed as it was. -/
theorem closeAppend_openAppend (hclosed : s.fraAppending = false) (hlen : h.length = 15)
    (hmax : j ≤ 14) :
    ∃ buf, closeAppend (h.drop j) (openAppend (h.take j) s) = s.withAppend buf 0 := by
  have hheld : (openAppend (h.take j) s).appLen = j := by simp [openAppend]; omega
  have hfits : ¬15 < (openAppend (h.take j) s).appLen + (h.drop j).length := by simp [hheld]; omega
  have hclose := closeAppend_eq (c := h.drop j) (s := openAppend (h.take j) s) (by omega)
  rw [if_neg hfits, List.append_nil, ← hclosed] at hclose
  exact ⟨_, hclose⟩

/-- The rest of a header makes it whole: it is emitted as the whole chunk is, but for the append registers
(R174). -/
theorem taskStep_of_completing_part (hready : s.taskPhase = .ready) (hclosed : s.fraAppending = false)
    (hlen : h.length = 15) (hmax : j ≤ 14) :
    ∃ buf, taskStep (openAppend (h.take j) { s with rx := h.drop j :: rest }) =
      emitFrame h (State.withAppend buf 0 { s with rx := rest }) := by
  have hheld : (openAppend (h.take j) { s with rx := rest }).appLen = j := by simp [openAppend]; omega
  have hdrop : (h.drop j).length = 15 - j := by rw [List.length_drop, hlen]
  have hne : h.drop j ≠ [] := List.ne_nil_of_length_pos (by omega)
  obtain ⟨buf, hclose⟩ := closeAppend_openAppend (s := { s with rx := rest }) hclosed hlen hmax
  refine ⟨buf, ?_⟩
  calc taskStep (openAppend (h.take j) { s with rx := h.drop j :: rest })
      = exec (decodeChunk true (h.drop j)) (openAppend (h.take j) { s with rx := rest }) :=
        taskStep_of_chunk hready rfl
    _ = execChunkAppendCont (h.drop j) (openAppend (h.take j) { s with rx := rest }) := by
        rw [decodeChunk_of_appending hne]; rfl
    _ = emitFrame h (State.withAppend buf 0 { s with rx := rest }) := by
        rw [execChunkAppendCont_of_le (by omega) (by omega), completedHeader_openAppend hlen hmax, hclose]

end

/-- Settles O19: both ways emit the same frame, from states that differ in the append registers alone, and
a part of 1 or 2 bytes is too short to open an append. -/
theorem splitHeaderReassembles : Obligations.SplitHeaderReassembles := by
  refine fun s h j rest hready hclosed hlen hmark hdir =>
    ⟨fun hmin hmax hrx => ?_, fun hmin hmax => ?_⟩
  · have hstart := startsAppend_take_header hlen hmark hdir hmin hmax
    have hfirst := taskStep_of_opening_chunk hready hclosed hrx hstart
    obtain ⟨buf, hsecond⟩ := taskStep_of_completing_part (rest := rest) hready hclosed hlen hmax
    have hwhole := taskStep_of_whole_header (s := { s with rx := h :: rest }) hready hclosed hlen rfl
    obtain ⟨c, hemit⟩ := emitFrame_next h { s with rx := rest }
      (List.ne_nil_of_length_pos (by omega)) (by omega)
    rw [emitFrame_appendBlind, hemit] at hsecond
    exact ⟨_, c.withAppend buf 0, c, hfirst, rfl, rfl, hsecond, hwhole.trans hemit, rfl⟩
  · have htake : (h.take j).length = j := by simp; omega
    have hstart : ¬startsAppend (h.take j) = true := by rw [startsAppend_iff]; omega
    rw [hclosed]
    exact decodeChunk_of_not_startsAppend (List.ne_nil_of_length_pos (by omega)) hstart

end Sys2Proof.Machine

/-! PROOFS. The tokens of a payload (spec/42_commands.md R191 to R196): where a text is split, and the
numbers that its fields are read as. -/

namespace Sys2Proof.Machine

/-! ### Splitting -/

/-- Joining after one more byte of the first token puts that byte first. -/
theorem joinCommas_cons_head (x : Byte) (t : Token) (ts : List Token) :
    joinCommas ((x :: t) :: ts) = x :: joinCommas (t :: ts) := by
  cases ts <;> rfl

/-- Every text is tokens without commas joined by commas. -/
theorem exists_joinCommas (p : List Byte) :
    ∃ ts : List Token, ts ≠ [] ∧ (∀ t ∈ ts, wireComma ∉ t) ∧ joinCommas ts = p := by
  induction p with
  | nil => exact ⟨[[]], by simp, by simp, rfl⟩
  | cons x p ih =>
    obtain ⟨ts, hne, hts, rfl⟩ := ih
    obtain ⟨t, ts, rfl⟩ := List.exists_cons_of_ne_nil hne
    obtain ⟨ht, hrest⟩ := List.forall_mem_cons.1 hts
    by_cases hx : wireComma = x
    · subst hx
      exact ⟨[] :: t :: ts, by simp, List.forall_mem_cons.2 ⟨by simp, hts⟩, rfl⟩
    · exact ⟨(x :: t) :: ts, by simp, List.forall_mem_cons.2 ⟨by simp [hx, ht], hrest⟩,
        joinCommas_cons_head x t ts⟩

/-- There is one comma fewer than there are tokens. -/
theorem count_comma_joinCommas (ts : List Token) (hne : ts ≠ []) (hts : ∀ t ∈ ts, wireComma ∉ t) :
    (joinCommas ts).count wireComma + 1 = ts.length := by
  induction ts using joinCommas.induct with
  | case1 => exact absurd rfl hne
  | case2 t => simp [joinCommas, List.count_eq_zero_of_not_mem (hts t (by simp))]
  | case3 t u ts ih =>
    obtain ⟨ht, hrest⟩ := List.forall_mem_cons.1 hts
    rw [joinCommas, List.count_append, List.count_eq_zero_of_not_mem ht, List.count_cons_self,
      Nat.zero_add, ih (List.cons_ne_nil u ts) hrest, List.length_cons (a := t)]

/-- The fields of a text are the tokens without commas that it joins (R191). -/
theorem splitCommas_spec (p : List Byte) :
    (splitCommas p).length = p.count wireComma + 1 ∧ joinCommas (splitCommas p) = p ∧
      ∀ t ∈ splitCommas p, wireComma ∉ t := by
  obtain ⟨ts, hne, hts, rfl⟩ := exists_joinCommas p
  rw [splitCommas_joinCommas ts hne hts]
  exact ⟨(count_comma_joinCommas ts hne hts).symm, rfl, hts⟩

/-- Settles O30: splitting undoes joining, and every text is some tokens joined. -/
theorem tokenSplitting : Obligations.TokenSplitting := by
  refine ⟨rfl, splitCommas_spec, splitCommas_joinCommas, fun p hne => ?_⟩
  have htokens : tokensOf p = (splitCommas p).take 6 := if_neg hne
  refine ⟨htokens, ?_⟩
  rw [htokens, List.length_take, (splitCommas_spec p).1, Nat.min_comm]
  rfl

/-! ### `Int` tokens -/

theorem tokIsFloat_iff (t : Token) : tokIsFloat t = true ↔ wirePoint ∈ t := by
  simp [tokIsFloat]

theorem allDigits_nil : AllDigits [] := fun _ h => absurd h List.not_mem_nil

/-- No digit begins the text. -/
def NoDigitFirst (t : List Byte) : Prop := ∀ x, t.head? = some x → isDigit x = false

/-- A run of digits begins with no sign. -/
theorem head?_ne_of_allDigits {ds : List Byte} (hds : AllDigits ds) (hne : ds ≠ []) (t : List Byte)
    {x : Byte} (hx : isDigit x = false) : (ds ++ t).head? ≠ some x := by
  obtain ⟨d, ds, rfl⟩ := List.exists_cons_of_ne_nil hne
  rintro h
  obtain rfl : d = x := Option.some.inj h
  exact absurd ((isDigit_iff d).2 (hds d (by simp))) (by simp [hx])

/-- A sign and a run of digits, with anything but a digit after them, are read as the number they stand
for (R192). -/
theorem tokInt_of_splitSign {t ds junk : List Byte} {neg : Bool} (h : splitSign t = (neg, ds ++ junk))
    (hds : AllDigits ds) (hjunk : NoDigitFirst junk) :
    tokInt t = BitVec.ofInt 32 (if neg then -(positional ds : ℤ) else positional ds) := by
  simp only [tokInt, h, (takeWhile_digits_append ds junk hds hjunk).1, digitsValue_eq_positional]

/-- Settles O28: what is cut off a token is its sign and its run of digits, and the encoder's text of a
number is its numeral. -/
theorem intTokenValue : Obligations.IntTokenValue := by
  refine ⟨tokIsFloat_iff, fun ds junk hds hjunk => ?_, fun n => ?_⟩
  · have hnd : NoDigitFirst junk := fun x hx =>
      Bool.eq_false_iff.2 fun hd => hjunk x hx ((isDigit_iff x).1 hd)
    refine ⟨fun hne => ?_, ?_, ?_, fun hplus hminus => ?_⟩
    · have hsign := splitSign_of_no_sign (ds ++ junk) (head?_ne_of_allDigits hds hne junk (by decide))
        (head?_ne_of_allDigits hds hne junk (by decide))
      simpa using tokInt_of_splitSign hsign hds hnd
    · simpa using tokInt_of_splitSign (t := 0x2B :: (ds ++ junk)) rfl hds hnd
    · simpa using tokInt_of_splitSign (t := 0x2D :: (ds ++ junk)) rfl hds hnd
    · have hsign := splitSign_of_no_sign junk hplus hminus
      simpa using tokInt_of_splitSign (ds := []) hsign allDigits_nil hnd
  · have h := decimalText_isNumeral n
    exact ⟨h.digits, h.ne_nil, h.value⟩

end Sys2Proof.Machine

/-! PROOFS. The command rows (spec/42_commands.md R195 to R210): which row a token list selects, and what
each row does and leaves unchanged. -/

namespace Sys2Proof.Machine

/-! ### Dispatch -/

theorem isCommandNumber_iff (v : I32) :
    isCommandNumber v = true ↔ v.toInt ∈ ([0, 1, 3, 7, 8, 12, 2001] : List ℤ) := by
  simp [isCommandNumber, ← BitVec.toInt_inj]

theorem isMetaSelector_iff (s : I32) :
    isMetaSelector s = true ↔ s.toInt ∈ ([0, 1, 2, 3, 21, 22, 23] : List ℤ) := by
  simp [isMetaSelector, ← BitVec.toInt_inj]

/-- The plain spelling of a number has no point. -/
theorem tokIsFloat_decimalText (n : ℕ) : tokIsFloat (decimalText n) = false := by
  refine Bool.eq_false_iff.2 fun hfloat => ?_
  have hpoint := (decimalText_isNumeral n).digits _ ((tokIsFloat_iff _).1 hfloat)
  exact absurd hpoint (by decide)

/-- The plain spelling of a number is read as that number. -/
theorem tokInt_decimalText (n : ℕ) : tokInt (decimalText n) = BitVec.ofNat 32 n := by
  obtain ⟨hdigits, hne, hvalue⟩ := intTokenValue.2.2 n
  have h := (intTokenValue.2.1 (decimalText n) [] hdigits (by simp)).1 hne
  rwa [List.append_nil, hvalue] at h

/-- A number is compared as its signed value (R195). -/
theorem eq_ofNat_of_toInt {v : I32} {n : ℕ} (h : v.toInt = n) : v = BitVec.ofNat 32 n := by
  rw [← BitVec.ofInt_natCast, ← h, BitVec.ofInt_toInt]

/-- A known command number selects the same row in every spelling (R195). -/
theorem decodeTokens_of_number {t0 : Token} (n : ℕ) (ts : List Token) (hint : tokIsFloat t0 = false)
    (hn : (tokInt t0).toInt = n) (hknown : isCommandNumber (BitVec.ofNat 32 n) = true) :
    decodeTokens (t0 :: ts) = decodeTokens (decimalText n :: ts) := by
  simp only [decodeTokens, hint, tokIsFloat_decimalText, tokInt_decimalText, eq_ofNat_of_toInt hn]
  obtain hv | hv | hv | hv | hv | hv | hv : _ ∨ _ ∨ _ ∨ _ ∨ _ ∨ _ ∨ _ := by
    simpa [isCommandNumber] using hknown
  all_goals rw [hv]; rfl

/-- A known selector of command 2001 selects the same row in every spelling (R203). -/
theorem decodeMeta_of_selector {t1 : Token} (n : ℕ) (more : List Token)
    (hn : (intArg t1).toInt = n) (hknown : isMetaSelector (BitVec.ofNat 32 n) = true) :
    decodeMeta (t1 :: more) = decodeMeta (decimalText n :: more) := by
  have hplain : intArg (decimalText n) = BitVec.ofNat 32 n := by
    rw [intArg, tokIsFloat_decimalText, if_neg Bool.false_ne_true, tokInt_decimalText]
  simp only [decodeMeta, hplain, eq_ofNat_of_toInt hn]
  obtain hv | hv | hv | hv | hv | hv | hv : _ ∨ _ ∨ _ ∨ _ ∨ _ ∨ _ ∨ _ := by
    simpa [isMetaSelector] using hknown
  all_goals rw [hv]; rfl

/-- A known command with fewer tokens than it reads selects no row (R195). -/
theorem decodeTokens_of_short {t0 : Token} {ts : List Token} (hint : tokIsFloat t0 = false)
    {v : ℤ} {n : ℕ} (hneed : (v, n) ∈
      ([(0, 1), (1, 3), (3, 3), (7, 1), (8, 1), (12, 2), (2001, 2)] : List (ℤ × ℕ)))
    (hv : (tokInt t0).toInt = v) (hshort : (t0 :: ts).length < n) :
    decodeTokens (t0 :: ts) = .error .tokenCount := by
  simp only [List.mem_cons, List.not_mem_nil, or_false, Prod.mk.injEq] at hneed
  rw [List.length_cons] at hshort
  rcases hneed with ⟨rfl, rfl⟩ | ⟨rfl, rfl⟩ | ⟨rfl, rfl⟩ | ⟨rfl, rfl⟩ | ⟨rfl, rfl⟩ | ⟨rfl, rfl⟩ |
    ⟨rfl, rfl⟩
  · omega
  · rw [decodeTokens_of_number 1 ts hint hv rfl]
    rcases ts with _ | ⟨t1, _ | ⟨t2, ts⟩⟩ <;> [rfl; rfl; (simp at hshort; omega)]
  · rw [decodeTokens_of_number 3 ts hint hv rfl]
    rcases ts with _ | ⟨t1, _ | ⟨t2, ts⟩⟩ <;> [rfl; rfl; (simp at hshort; omega)]
  · omega
  · omega
  · obtain rfl : ts = [] := List.eq_nil_of_length_eq_zero (by omega)
    exact decodeTokens_of_number 12 [] hint hv rfl
  · obtain rfl : ts = [] := List.eq_nil_of_length_eq_zero (by omega)
    exact decodeTokens_of_number 2001 [] hint hv rfl

/-- Settles O5: a known number selects the row of its plain spelling, and there the row is the decoder's
own branch. -/
theorem tokenDispatch : Obligations.TokenDispatch := by
  refine ⟨rfl, fun t0 ts hfloat => decodeTokens_of_not_isCommandNumber t0 ts (.inl hfloat),
    fun t0 ts _ hv => ?unknown, fun t0 ts hint vn hneed hv hshort => ?short,
    fun t0 more hint hv => decodeTokens_of_number 0 more hint hv rfl,
    fun t0 t1 t2 more hint hv => decodeTokens_of_number 1 (t1 :: t2 :: more) hint hv rfl,
    fun t0 t1 t2 more hint hv => decodeTokens_of_number 3 (t1 :: t2 :: more) hint hv rfl,
    fun t0 more hint hv => decodeTokens_of_number 7 more hint hv rfl,
    fun t0 more hint hv => decodeTokens_of_number 8 more hint hv rfl,
    fun t0 t1 more hint hv => decodeTokens_of_number 12 (t1 :: more) hint hv rfl,
    fun t0 t1 more hint hv => decodeTokens_of_number 2001 (t1 :: more) hint hv rfl⟩
  case unknown =>
    rw [← isCommandNumber_iff, Bool.not_eq_true] at hv
    exact decodeTokens_of_not_isCommandNumber t0 ts (.inr hv)
  case short => exact decodeTokens_of_short hint hneed hv hshort

/-- Settles O6: a known selector selects the row of its plain spelling. -/
theorem metaSelectorDispatch : Obligations.MetaSelectorDispatch := by
  refine fun t1 more =>
    ⟨fun h => decodeMeta_of_selector 0 more h rfl, fun h => decodeMeta_of_selector 1 more h rfl,
      fun h => decodeMeta_of_selector 2 more h rfl, fun h => decodeMeta_of_selector 3 more h rfl,
      fun hlo hhi => ?missing,
      fun v h => decodeMeta_of_selector 21 (v :: more) h rfl,
      fun v h => decodeMeta_of_selector 22 (v :: more) h rfl,
      fun v h => decodeMeta_of_selector 23 (v :: more) h rfl, fun h => ?unknown⟩
  case missing =>
    obtain h | h | h : (intArg t1).toInt = 21 ∨ (intArg t1).toInt = 22 ∨ (intArg t1).toInt = 23 := by
      omega
    · exact decodeMeta_of_selector 21 [] h rfl
    · exact decodeMeta_of_selector 22 [] h rfl
    · exact decodeMeta_of_selector 23 [] h rfl
  case unknown =>
    rw [← isMetaSelector_iff, Bool.not_eq_true] at h
    exact decodeMeta_of_not_isMetaSelector t1 more h

/-! ### Channel setup and trigger -/

theorem get_set_same {α : Type} (t : Triple α) (c : Channel) (v : α) : (t.set c v).get c = v := by
  cases c <;> rfl

theorem get_set_other {α : Type} (t : Triple α) {c d : Channel} (v : α) (h : d ≠ c) :
    (t.set c v).get d = t.get d := by
  cases c <;> cases d <;> first | rfl | exact absurd rfl h

/-- The channel of an index is the one with that number (R198). -/
theorem channelOf_eq_some {v : I32} {c : Channel} (h : v.toInt = c.index + 1) : channelOf v = some c := by
  obtain rfl : v = BitVec.ofNat 32 (c.index + 1) := eq_ofNat_of_toInt h
  cases c <;> rfl

/-- An index outside 1 to 3 has no channel (R198). -/
theorem channelOf_eq_none {v : I32} (h : v.toInt < 1 ∨ 3 < v.toInt) : channelOf v = none := by
  unfold channelOf
  split_ifs with h1 h2 h3
  case neg => rfl
  all_goals
    subst v
    exact absurd h (by decide)

/-- What `CMD_CHSETUP` does, by the channel of its index (R198). -/
theorem exec_cmdChsetup_some {chan : Token} (op : Token) (s : State) {c : Channel}
    (h : channelOf (intArg chan) = some c) :
    exec (.cmdChsetup chan op) s = .next { s with
      chOp := s.chOp.set c (intArg op)
      out := s.out ++ if intArg op = 2 then [] else [.diag .unsupportedOp] } := by
  change execCmdChsetup chan op s = _
  rw [execCmdChsetup, h, ← setChannelOp_eq]

/-- What `CMD_CHSETUP` does without a channel (R198). -/
theorem exec_cmdChsetup_none {chan : Token} (op : Token) (s : State)
    (h : channelOf (intArg chan) = none) :
    exec (.cmdChsetup chan op) s = .next { s with out := s.out ++ [.diag .channelRange] } := by
  change execCmdChsetup chan op s = _
  rw [execCmdChsetup, h]
  rfl

/-- Settles O21: the two cases of the index, which exclude each other. -/
theorem channelSetupCommand : Obligations.ChannelSetupCommand := by
  intro chan op s
  have htwo : (intArg op).toInt = 2 ↔ intArg op = 2 := BitVec.toInt_inj (y := (2 : I32))
  simp only [htwo]
  cases hchan : channelOf (intArg chan) with
  | some c =>
    refine ⟨_, exec_cmdChsetup_some op s hchan, fun d hd => ?_, fun h => ?_, rfl⟩
    · obtain rfl : c = d := Option.some.inj (hchan.symm.trans (channelOf_eq_some hd))
      exact ⟨get_set_same _ _ _, fun _ hne => get_set_other _ _ hne, rfl⟩
    · exact absurd (hchan.symm.trans (channelOf_eq_none h)) (by simp)
  | none =>
    refine ⟨_, exec_cmdChsetup_none op s hchan, fun d hd => ?_, fun _ => ⟨rfl, rfl⟩, rfl⟩
    exact absurd (hchan.symm.trans (channelOf_eq_some hd)) (by simp)

/-- Bit c - 1 of the mask is channel c (R201). -/
theorem channelMask_getLsbD (s : State) (c : Channel) :
    (channelMask s).getLsbD c.index = (s.chOp.get c != 0) := by
  have hbits : ∀ b3 b2 b1 : Bool,
      let m := BitVec.ofBool b3 ++ BitVec.ofBool b2 ++ BitVec.ofBool b1
      m.getLsbD 0 = b1 ∧ m.getLsbD 1 = b2 ∧ m.getLsbD 2 = b3 := by decide
  obtain ⟨h1, h2, h3⟩ := hbits (channelActive s .ch3) (channelActive s .ch2) (channelActive s .ch1)
  cases c with
  | ch1 => exact h1
  | ch2 => exact h2
  | ch3 => exact h3

/-- What `CMD_TRIGGER` does, as one update (R201). -/
theorem exec_cmdTrigger (s : State) :
    exec .cmdTrigger s = .next { s with
      activeMask := channelMask s
      timerArmed := if 200000 ≤ s.trigPeriodUs.toNat then true else s.timerArmed
      timerPeriodUs := if 200000 ≤ s.trigPeriodUs.toNat then s.trigPeriodUs else s.timerPeriodUs
      sampleIndex := 0
      hlState := .sending } := by
  have hmin : minTriggerPeriodUs ≤ s.trigPeriodUs ↔ 200000 ≤ s.trigPeriodUs.toNat := Iff.rfl
  change execCmdTrigger s = _
  unfold execCmdTrigger
  by_cases h : 200000 ≤ s.trigPeriodUs.toNat
  · simp only [hmin, h, if_true]; rfl
  · simp only [hmin, h, if_false]

/-- Settles O24: the mask bit by bit, and the timer on each side of the bound. -/
theorem triggerCommand : Obligations.TriggerCommand := by
  refine fun s => ⟨_, exec_cmdTrigger s, channelMask_getLsbD s, fun h => ?_, fun h => ?_, rfl, rfl, rfl⟩
  · exact ⟨if_pos h, if_pos h⟩
  · exact ⟨if_neg (Nat.not_le.2 h), if_neg (Nat.not_le.2 h)⟩

/-! ### Publishing -/

/-- A publish as `PUB` call, answer and report: the answer is the next scripted one where there is one
(R206). -/
theorem publish_spec (k : Channel) (v : Token) (s : State) :
    ∃ r : Bool,
      (∀ p ps, s.pubIn = p :: ps → r = p ∧ (publish k v s).pubIn = ps ∧
        (publish k v s).freeDraws = s.freeDraws) ∧
      (publish k v s).out = s.out ++ .pub k v :: (if r then [] else [.diag .publishDropped]) ∧
      { publish k v s with out := s.out, pubIn := s.pubIn, freeDraws := s.freeDraws } = s := by
  rw [publish_eq]
  refine ⟨s.pubIn.headD (Config.pubDraw s.freeDraws), fun p ps h => ?_, rfl, rfl⟩
  simp [h]

/-- Settles O26: the three rows are one publish on three channels. -/
theorem publishCommands : Obligations.PublishCommands := by
  intro v s ik hik
  have hexec : exec ik.1 s = .next (publish ik.2 v s) := by
    simp only [List.mem_cons, List.not_mem_nil, or_false] at hik
    rcases hik with rfl | rfl | rfl <;> rfl
  obtain ⟨r, hanswer, hout, hframe⟩ := publish_spec ik.2 v s
  exact ⟨_, r, hexec, hanswer, hout, hframe⟩

/-! ### Rows that are one assignment -/

/-- Settles O20: the row is one update of two registers. -/
theorem clearCommand : Obligations.ClearCommand :=
  fun _ => ⟨_, rfl, fun c => by cases c <;> rfl, rfl, rfl⟩

/-- Settles O23: the mode is chosen by comparing with 1, as a signed number. -/
theorem statusAndModeCommands : Obligations.StatusAndModeCommands := by
  refine ⟨fun _ => rfl, fun m s => ⟨_, rfl, fun h => ?_, fun h => ?_, rfl⟩⟩
  · exact if_pos (eq_ofNat_of_toInt (n := 1) h)
  · exact if_neg fun hone => h (congrArg BitVec.toInt hone)

/-- Settles O25: each row is one update of `HL_STATE`. -/
theorem metaStateCommands : Obligations.MetaStateCommands :=
  fun _ => ⟨rfl, rfl, rfl, rfl⟩

/-- Settles O27: both rows are one diagnostic, whatever the token. -/
theorem unknownCommands : Obligations.UnknownCommands :=
  fun _ _ => ⟨rfl, rfl⟩

/-! ### What no command writes -/

/-- From `s` to `t` nothing was transmitted, and only configuration registers and the publish port were
written (R210). -/
def WritesConfigurationOnly (s t : State) : Prop :=
  (∃ new, t.out = s.out ++ new ∧ ∀ e ∈ new, isTx e = false) ∧
  { t with chOp := s.chOp, sampleIndex := s.sampleIndex, trigPeriodUs := s.trigPeriodUs,
           trigCount := s.trigCount, trigMode := s.trigMode, pendingCmd := s.pendingCmd,
           activeMask := s.activeMask, timerArmed := s.timerArmed,
           timerPeriodUs := s.timerPeriodUs, hlState := s.hlState, pubIn := s.pubIn,
           freeDraws := s.freeDraws, out := s.out } = s

/-- A row that puts nothing out transmits nothing. -/
theorem no_output_no_transmission (o : List OutEvent) : ∃ new, o = o ++ new ∧ ∀ e ∈ new, isTx e = false :=
  ⟨[], (List.append_nil o).symm, fun _ h => absurd h List.not_mem_nil⟩

/-- A publish transmits nothing: it puts out its call and at most a diagnostic (R206). -/
theorem publish_writesConfigurationOnly (k : Channel) (v : Token) (s : State) :
    WritesConfigurationOnly s (publish k v s) := by
  rw [publish_eq]
  refine ⟨⟨_, rfl, ?_⟩, rfl⟩
  split <;> simp [isTx]

/-- A row that is a diagnostic and nothing else. -/
theorem diag_writesConfigurationOnly (c : DiagCode) (s : State) :
    WritesConfigurationOnly s { s with out := s.out ++ [.diag c] } :=
  ⟨⟨_, rfl, by simp [isTx]⟩, rfl⟩

theorem cmdChsetup_writesConfigurationOnly (chan op : Token) (s : State) :
    ∃ t, exec (.cmdChsetup chan op) s = .next t ∧ WritesConfigurationOnly s t := by
  cases hchan : channelOf (intArg chan) with
  | some c =>
    refine ⟨_, exec_cmdChsetup_some op s hchan, ⟨_, rfl, ?_⟩, rfl⟩
    split <;> simp [isTx]
  | none => exact ⟨_, exec_cmdChsetup_none op s hchan, diag_writesConfigurationOnly _ s⟩

/-- Every command row answers a state that differs in the configuration at most. -/
theorem exec_command_writesConfigurationOnly (i : Instr) (s : State)
    (hi : (commandTokens i).isSome = true) :
    ∃ t, exec i s = .next t ∧ WritesConfigurationOnly s t := by
  have hsilent := no_output_no_transmission s.out
  cases i
  case cmdClear => exact ⟨_, rfl, hsilent, rfl⟩
  case cmdChsetup chan op => exact cmdChsetup_writesConfigurationOnly chan op s
  case cmdRate => exact ⟨_, rfl, hsilent, rfl⟩
  case cmdStatus => exact ⟨_, rfl, hsilent, rfl⟩
  case cmdTrigger => exact ⟨_, exec_cmdTrigger s, hsilent, rfl⟩
  case cmdMode => exact ⟨_, rfl, hsilent, rfl⟩
  case metaStatus => exact ⟨_, rfl, hsilent, rfl⟩
  case metaSample1 => exact ⟨_, rfl, hsilent, rfl⟩
  case metaSample2 => exact ⟨_, rfl, hsilent, rfl⟩
  case metaSample3 => exact ⟨_, rfl, hsilent, rfl⟩
  case metaPublish1 v => exact ⟨_, rfl, publish_writesConfigurationOnly _ v s⟩
  case metaPublish2 v => exact ⟨_, rfl, publish_writesConfigurationOnly _ v s⟩
  case metaPublish3 v => exact ⟨_, rfl, publish_writesConfigurationOnly _ v s⟩
  case metaUnknown => exact ⟨_, rfl, diag_writesConfigurationOnly _ s⟩
  case cmdUnrecognized => exact ⟨_, rfl, diag_writesConfigurationOnly _ s⟩
  all_goals exact absurd hi Bool.false_ne_true

/-- Settles O31: row by row. -/
theorem commandsWriteOnlyConfiguration : Obligations.CommandsWriteOnlyConfiguration := by
  intro i s t hi ht
  obtain ⟨u, hu, hwrites⟩ := exec_command_writesConfigurationOnly i s hi
  obtain rfl : u = t := Host.Outcome.next.inj (hu.symm.trans ht)
  exact hwrites

end Sys2Proof.Machine

/-! PROOFS. Tokens with a point (spec/42_commands.md R193, R196, R199): the reader takes the longest beginning
that is a decimal text, rounds its number once, and truncates and saturates where an integer is asked. -/

namespace Sys2Proof.Machine

/-! ### The exponent -/

/-- A text begins with no digit if none is its first byte. -/
theorem noDigitFirst_of_cons {u : List Byte} (h : ∀ d u', u = d :: u' → ¬isDigit d = true) :
    NoDigitFirst u := by
  intro d hd
  obtain ⟨u', rfl⟩ := List.head?_eq_some_iff.1 hd
  exact Bool.eq_false_iff.2 (h d u' rfl)

theorem AllDigits.snoc {ds : List Byte} {d : Byte} (hds : AllDigits ds) (hd : isDigit d = true) :
    AllDigits (ds ++ [d]) :=
  hds.append fun x hx => (isDigit_iff x).1 (List.mem_singleton.1 hx ▸ hd)

/-- The exponent reader after an exponent mark. -/
theorem exponentOf_cons {b : Byte} (hb : b = 0x65 ∨ b = 0x45) (t : List Byte) :
    exponentOf (b :: t) = if (splitSign t).1 then -(positional ((splitSign t).2.takeWhile isDigit) : ℤ)
      else positional ((splitSign t).2.takeWhile isDigit) := by
  simp only [exponentOf, hb, if_true, digitsValue_eq_positional]

/-- Where the reader finds an exponent other than 0, one is written. -/
theorem exists_exponentText {t : List Byte} (h : exponentOf t ≠ 0) :
    ∃ x e, x <+: t ∧ x ≠ [] ∧ ExponentText x e := by
  cases t with
  | nil => exact absurd rfl h
  | cons b t =>
    by_cases hb : b = 0x65 ∨ b = 0x45
    · obtain ⟨sg, hsg, ht⟩ := splitSign_signText t
      rw [exponentOf_cons hb] at h
      set r := (splitSign t).2
      have hne : r.takeWhile isDigit ≠ [] := by
        intro hnil
        simp [hnil] at h
      refine ⟨b :: sg ++ r.takeWhile isDigit, _, ?_, by simp,
        .written b sg _ _ hb hsg (allDigits_takeWhile r) hne⟩
      refine ⟨r.dropWhile isDigit, ?_⟩
      rw [List.append_assoc, List.takeWhile_append_dropWhile, List.cons_append, ← ht]
    · exact absurd (by simp only [exponentOf, if_neg hb]) h

/-- The reader takes the longest exponent. -/
theorem exponentOf_longest {x u : List Byte} {e : ℤ} (hx : ExponentText x e)
    (hmax : ∀ x' e', x' <+: x ++ u → ExponentText x' e' → x'.length ≤ x.length) :
    exponentOf (x ++ u) = e := by
  cases hx with
  | absent =>
    by_contra h
    obtain ⟨x', e', hpre, hne, hx'⟩ := exists_exponentText h
    exact hne (List.eq_nil_of_length_eq_zero (Nat.le_zero.1 (hmax x' e' hpre hx')))
  | written b sg ds neg hb hsg hds hne =>
    have hnd : NoDigitFirst u := by
      refine noDigitFirst_of_cons fun d u' hu hd => ?_
      have h := hmax _ _ ⟨u', by simp [hu]⟩
        (.written b sg (ds ++ [d]) neg hb hsg (hds.snoc hd) (by simp))
      simp at h
    have hsign : splitSign (sg ++ (ds ++ u)) = (neg, ds ++ u) :=
      splitSign_append hsg _ (head?_ne_of_allDigits hds hne u (by decide))
        (head?_ne_of_allDigits hds hne u (by decide))
    have htext : b :: sg ++ ds ++ u = b :: (sg ++ (ds ++ u)) := by simp
    rw [htext, exponentOf_cons hb, hsign, (takeWhile_digits_append ds u hds hnd).1]

/-- What follows a mantissa begins with an exponent mark, or there is no exponent. -/
theorem ExponentText.head_append {x u : List Byte} {e : ℤ} {d : Byte} (hx : ExponentText x e)
    (h : (x ++ u).head? = some d) : (x = [] ∧ u.head? = some d) ∨ d = 0x65 ∨ d = 0x45 := by
  cases hx with
  | absent => exact .inl ⟨rfl, h⟩
  | written b sg ds neg hb _ _ _ =>
    obtain rfl : b = d := Option.some.inj h
    exact .inr hb

/-- No digit follows a mantissa, where none follows it without an exponent. -/
theorem ExponentText.noDigitFirst_append {x u : List Byte} {e : ℤ} (hx : ExponentText x e)
    (h : ∀ d u', x = [] → u = d :: u' → ¬isDigit d = true) : NoDigitFirst (x ++ u) := by
  intro d hd
  rcases hx.head_append hd with ⟨rfl, hu⟩ | rfl | rfl
  · exact noDigitFirst_of_cons (fun d u' => h d u' rfl) d hu
  · decide
  · decide

/-! ### The mantissa -/

/-- A text of a sign, digits and no point is read as those digits and what follows them (R193). -/
theorem tokFloat_whole {sg ws rest : List Byte} {neg : Bool} (hsg : SignText sg neg)
    (hws : AllDigits ws) (hne : ws ≠ []) (hnd : NoDigitFirst rest)
    (hpoint : rest.head? ≠ some wirePoint) :
    tokFloat (sg ++ (ws ++ rest)) = f64OfDecimal neg (positional ws) (exponentOf rest) := by
  have hsign := splitSign_append hsg (ws ++ rest) (head?_ne_of_allDigits hws hne rest (by decide))
    (head?_ne_of_allDigits hws hne rest (by decide))
  obtain ⟨htake, hdrop⟩ := takeWhile_digits_append ws rest hws hnd
  simp [tokFloat, hsign, htake, hdrop, hpoint, hne, digitsValue_eq_positional]

/-- A text of a sign, digits, a point and digits is read as all its digits, scaled by those after the
point (R193). -/
theorem tokFloat_point {sg ws fs tail : List Byte} {neg : Bool} (hsg : SignText sg neg)
    (hws : AllDigits ws) (hfs : AllDigits fs) (hne : ws ++ fs ≠ []) (hnd : NoDigitFirst tail) :
    tokFloat (sg ++ (ws ++ wirePoint :: (fs ++ tail))) =
      f64OfDecimal neg (positional (ws ++ fs)) (exponentOf tail - fs.length) := by
  have hhead : ∀ x : Byte, isDigit x = false → x ≠ wirePoint →
      (ws ++ wirePoint :: (fs ++ tail)).head? ≠ some x := by
    intro x hdigit hx
    rcases eq_or_ne ws [] with rfl | hws'
    · simpa using Ne.symm hx
    · exact head?_ne_of_allDigits hws hws' _ hdigit
  have hsign := splitSign_append hsg _ (hhead 0x2B (by decide) (by decide))
    (hhead 0x2D (by decide) (by decide))
  obtain ⟨htake, hdrop⟩ := takeWhile_digits_append ws (wirePoint :: (fs ++ tail)) hws
    (by simp [show isDigit wirePoint = false by decide])
  obtain ⟨hfrac, htail⟩ := takeWhile_digits_append fs tail hfs hnd
  simp only [tokFloat, hsign, htake, hdrop, List.head?_cons, if_true, List.drop_one, List.tail_cons,
    hfrac, htail, if_neg hne, digitsValue_eq_positional]

/-- The longest beginning that is a decimal text is read as the nearest value (R193). -/
theorem tokFloat_nearest {p u : List Byte} {q : ℚ} (hp : DecimalText p q)
    (hmax : ∀ p' q', p' <+: p ++ u → DecimalText p' q' → p'.length ≤ p.length) :
    NearestF64 q (tokFloat (p ++ u)) := by
  cases hp with
  | whole sg ws x neg e hsg hws hne hx =>
    have hexp : exponentOf (x ++ u) = e := by
      refine exponentOf_longest hx fun x' e' hpre hx' => ?_
      have h := hmax _ _ (by simpa using hpre) (.whole sg ws x' neg e' hsg hws hne hx')
      simpa using h
    have hnd : NoDigitFirst (x ++ u) := by
      refine hx.noDigitFirst_append fun d u' hx hu hdigit => ?_
      have h := hmax _ _ ⟨u', by simp [hx, hu]⟩
        (.whole sg (ws ++ [d]) [] neg 0 hsg (hws.snoc hdigit) (by simp) .absent)
      simp [hx] at h
    have hpoint : (x ++ u).head? ≠ some wirePoint := by
      intro hd
      rcases hx.head_append hd with ⟨rfl, hu⟩ | h | h
      · obtain ⟨u', rfl⟩ := List.head?_eq_some_iff.1 hu
        have h := hmax _ _ ⟨u', by simp [wirePoint]⟩
          (.point sg ws [] [] neg 0 hsg hws allDigits_nil (by simpa) .absent)
        simp at h
      · exact absurd h (by decide)
      · exact absurd h (by decide)
    have htext : sg ++ ws ++ x ++ u = sg ++ (ws ++ (x ++ u)) := by simp
    rw [htext, tokFloat_whole hsg hws hne hnd hpoint, hexp]
    exact f64OfDecimal_nearest neg (positional ws) e
  | point sg ws fs x neg e hsg hws hfs hne hx =>
    have hexp : exponentOf (x ++ u) = e := by
      refine exponentOf_longest hx fun x' e' hpre hx' => ?_
      have h := hmax _ _ (by simpa using hpre) (.point sg ws fs x' neg e' hsg hws hfs hne hx')
      simpa using h
    have hnd : NoDigitFirst (x ++ u) := by
      refine hx.noDigitFirst_append fun d u' hx hu hdigit => ?_
      have h := hmax _ _ ⟨u', by simp [hx, hu]⟩
        (.point sg ws (fs ++ [d]) [] neg 0 hsg hws (hfs.snoc hdigit) (by simp) .absent)
      simp [hx] at h
    have htext : sg ++ ws ++ 0x2E :: fs ++ x ++ u = sg ++ (ws ++ wirePoint :: (fs ++ (x ++ u))) := by
      simp [wirePoint]
    rw [htext, tokFloat_point hsg hws hfs hne hnd, hexp]
    exact f64OfDecimal_nearest neg (positional (ws ++ fs)) (e - fs.length)

/-- A token that is not read as 0.0 begins with a decimal text (R193). -/
theorem exists_decimalText {t : Token} (h : tokFloat t ≠ 0) : ∃ p q, p <+: t ∧ DecimalText p q := by
  obtain ⟨sg, hsg, ht⟩ := splitSign_signText t
  set r := (splitSign t).2 with hr
  rw [← List.takeWhile_append_dropWhile (p := isDigit) (l := r)] at ht
  have hws := allDigits_takeWhile r
  by_cases hwhole : r.takeWhile isDigit = []
  case neg =>
    exact ⟨_, _, ⟨r.dropWhile isDigit, by rw [List.append_nil, List.append_assoc, ← ht]⟩,
      .whole sg _ [] _ 0 hsg hws hwhole .absent⟩
  by_cases hpoint : (r.dropWhile isDigit).head? = some wirePoint
  case neg =>
    refine absurd ?_ h
    simp only [tokFloat, ← hr, hwhole, hpoint, if_false, List.append_nil, if_true]
    rfl
  obtain ⟨rest, hrest⟩ := List.head?_eq_some_iff.1 hpoint
  by_cases hfrac : rest.takeWhile isDigit = []
  case pos =>
    refine absurd ?_ h
    simp only [tokFloat, ← hr, hwhole, hrest, List.head?_cons, if_true, List.drop_one, List.tail_cons,
      hfrac, List.append_nil]
    rfl
  refine ⟨_, _, ⟨rest.dropWhile isDigit, ?_⟩, .point sg _ _ [] _ 0 hsg hws (allDigits_takeWhile rest)
    (List.append_ne_nil_of_right_ne_nil _ hfrac) .absent⟩
  rw [ht, hrest]
  simp [wirePoint]

/-! ### Truncation and saturation -/

/-- A token is never read as a NaN. -/
theorem tokFloat_finite {t : Token} (h : f64IsInf (tokFloat t) = false) :
    f64IsFinite (tokFloat t) = true := by
  unfold tokFloat at h ⊢
  dsimp only at h ⊢
  split_ifs at h ⊢
  all_goals first | exact f64IsFinite_zero false | exact (f64OfDecimal_nearest _ _ _).finite h

theorem f64TruncSat_bounds {lo hi : ℤ} (hle : lo ≤ hi) (v : F64) :
    lo ≤ f64TruncSat lo hi v ∧ f64TruncSat lo hi v ≤ hi := by
  unfold f64TruncSat
  split_ifs <;> omega

/-- The integer argument of a token with a point is its saturated value: it fits an `i32` (R196). -/
theorem toInt_intArg_of_isFloat {t : Token} (h : tokIsFloat t = true) :
    (intArg t).toInt = f64TruncSat (-2147483648) 2147483647 (tokFloat t) := by
  have hbounds := f64TruncSat_bounds (lo := -2147483648) (hi := 2147483647) (by decide) (tokFloat t)
  have harg : intArg t = BitVec.ofInt 32 (f64TruncSat (-2147483648) 2147483647 (tokFloat t)) := if_pos h
  rw [harg, BitVec.toInt_ofInt]
  exact Int.bmod_eq_of_le (by omega) (by omega)

/-- Settles O29: the longest decimal beginning is the one that the reader cuts off, and the conversion of its
number is rounded once. -/
theorem integerArgumentSaturates : Obligations.IntegerArgumentSaturates := by
  refine fun t => ⟨?_, fun hnone => ?_, fun h => if_neg (by simp [h]), fun h => ?_⟩
  · rintro p q ⟨u, rfl⟩ hp hmax
    exact tokFloat_nearest hp hmax
  · by_contra h
    obtain ⟨p, q, hpre, hp⟩ := exists_decimalText h
    exact hnone p q hpre hp
  · rw [toInt_intArg_of_isFloat h]
    exact ⟨f64TruncSat_inf _ _, f64TruncSat_not_inf _ _⟩

/-! ### The sampling period -/

theorem toNat_ofInt_of_lt {k : ℤ} (hlo : 0 ≤ k) (hhi : k ≤ 2 ^ 32 - 1) :
    ((BitVec.ofInt 32 k).toNat : ℤ) = k := by
  rw [BitVec.toNat_ofInt]
  omega

/-- The period of a token without a point: the exact product, clamped (R199). -/
theorem periodMicros_of_int {t : Token} (h : tokIsFloat t = false) :
    ((periodMicros t).toNat : ℤ) = min (max ((tokInt t).toInt * 1000000) 0) (2 ^ 32 - 1) := by
  have hperiod : periodMicros t =
      BitVec.ofInt 32 (min (max ((tokInt t).toInt * 1000000) 0) (2 ^ 32 - 1)) := if_neg (by simp [h])
  rw [hperiod]
  exact toNat_ofInt_of_lt (by omega) (by omega)

/-- Microseconds in a second, as a binary64 value. -/
def f64Million : F64 := f64OfDecimal false 1000000 0

theorem f64Value_million : f64Value f64Million = 1000000 := by decide +kernel

/-- The period of a token with a point: one product, truncated and saturated (R199). -/
theorem periodMicros_of_float {t : Token} (h : tokIsFloat t = true) :
    ((periodMicros t).toNat : ℤ) = f64TruncSat 0 (2 ^ 32 - 1) (f64Mul (tokFloat t) f64Million) := by
  have hbounds := f64TruncSat_bounds (lo := 0) (hi := 2 ^ 32 - 1) (by decide)
    (f64Mul (tokFloat t) f64Million)
  have hperiod : periodMicros t =
      BitVec.ofInt 32 (f64TruncSat 0 (2 ^ 32 - 1) (f64Mul (tokFloat t) f64Million)) := if_pos h
  rw [hperiod]
  exact toNat_ofInt_of_lt hbounds.1 hbounds.2

/-- An infinite product gives the bound of its sign (R199). -/
theorem periodMicros_of_inf {t : Token} (h : tokIsFloat t = true)
    (hinf : f64IsInf (f64Mul (tokFloat t) f64Million) = true) :
    (periodMicros t).toNat = if f64Neg (f64Mul (tokFloat t) f64Million) then 0 else 2 ^ 32 - 1 := by
  have hperiod := periodMicros_of_float h
  rw [f64TruncSat_inf _ _ hinf] at hperiod
  split_ifs at hperiod ⊢ <;> omega

/-- An infinite token times a million is the infinity of its sign. -/
theorem f64Mul_million_of_inf {v : F64} (h : f64IsInf v = true) :
    f64IsInf (f64Mul v f64Million) = true ∧ f64Neg (f64Mul v f64Million) = f64Neg v := by
  have hneg : f64Neg f64Million = false := by decide +kernel
  rw [f64Mul_inf f64Million h, hneg, Bool.bne_false]
  exact f64Inf_fields (f64Neg v)

/-- A finite token times a million is rounded once. -/
theorem f64Mul_million_nearest {v : F64} (h : f64IsFinite v = true) :
    NearestF64 (f64Value v * 1000000) (f64Mul v f64Million) := by
  have hmul := f64Mul_nearest v f64Million h (by decide +kernel)
  rwa [f64Value_million] at hmul

/-- Settles O22: the three kinds of period token, and the count compared with -1 as a signed number. -/
theorem rateCommand : Obligations.RateCommand := by
  refine fun period count s => ⟨_, rfl, periodMicros_of_int, fun hfloat => ⟨fun hinf => ?_, fun hinf => ?_⟩,
    fun h => ?_, fun h => ?_, rfl⟩
  · obtain ⟨hprod, hneg⟩ := f64Mul_million_of_inf hinf
    rw [← hneg]
    exact periodMicros_of_inf hfloat hprod
  · refine ⟨_, f64Mul_million_nearest (tokFloat_finite hinf), periodMicros_of_inf hfloat, fun hprod => ?_⟩
    rw [← f64TruncSat_not_inf _ _ hprod]
    exact periodMicros_of_float hfloat
  · have hcount : intArg count = -1 := BitVec.toInt_inj.1 h
    exact ⟨if_pos hcount, if_pos hcount⟩
  · have hcount : intArg count ≠ -1 := fun hone => h (congrArg BitVec.toInt hone)
    exact ⟨if_neg hcount, if_neg hcount⟩

end Sys2Proof.Machine

/-! PROOFS. Instruction headers (spec/43_psm.md R233 to R238): the checks in their order and the row a frame
selects, and what a Send header does. -/

namespace Sys2Proof.Machine

/-! ### The fields of a header -/

/-- The bytes that type and form are read from (spec/30_encoding.md R103). -/
theorem getElem?_of_readHdrFields {b : List Byte} {h : HdrFields} (hread : readHdrFields b = some h) :
    b[2]? = some h.typeByte ∧ b[3]? = some h.formByte := by
  unfold readHdrFields at hread
  split at hread
  · obtain rfl := Option.some.inj hread
    exact ⟨rfl, rfl⟩
  · nomatch hread

theorem typeOfByte_eq_hex_iff (t : Byte) : typeOfByte t = .hex ↔ t = 0x48 := by
  unfold typeOfByte wireTypeHex
  split_ifs with ht
  · exact iff_of_true rfl ht
  · exact iff_of_false nofun ht

theorem formOfByte_eq_listForm_iff (f : Byte) : formOfByte f = .listForm ↔ f = 0x4C := by
  unfold formOfByte wireFormList
  split_ifs with hf
  · exact iff_of_true rfl hf
  · exact iff_of_false nofun hf

/-- A header closed again after one change keeps its other bytes before the checksum. -/
theorem getElem?_reclosed {b : List Byte} {k j : Nat} (x : Byte) (hlen : b.length = 15) (hj : j < 14)
    (hne : k ≠ j) : (withChecksum ((b.set k x).take 14))[j]? = b[j]? := by
  rw [withChecksum, List.getElem?_append_left (by simp; omega), List.getElem?_take_of_lt hj,
    List.getElem?_set_ne hne]

/-- Settles O8: the two comparisons of `decodeHeader`, and a closed header again passes the four checks,
none of which looks at the byte that changed. -/
theorem typeAndFormReading : Obligations.TypeAndFormReading := by
  refine ⟨fun b d h hread => ?_, fun b k x hvalid hk => ?_⟩
  · obtain ⟨htype, hform⟩ := getElem?_of_readHdrFields hread
    rw [htype, hform, Option.some_inj, Option.some_inj]
    exact ⟨typeOfByte_eq_hex_iff _, formOfByte_eq_listForm_iff _⟩
  · obtain ⟨hlen, hmark, hdir, -⟩ := (headerFault_eq_none_iff b).1 hvalid
    have hpos : k ≠ 0 ∧ k ≠ 1 := by constructor <;> (rintro rfl; simp at hk)
    have hbody : ((b.set k x).take 14).length = 14 := by simp; omega
    rw [headerFault_eq_none_iff, withChecksum_length, hbody, List.head?_eq_getElem?,
      getElem?_reclosed x hlen (by omega) hpos.1, getElem?_reclosed x hlen (by omega) hpos.2,
      ← List.head?_eq_getElem?]
    exact ⟨rfl, hmark, hdir, verifyChecksum_withChecksum _ (by omega)⟩

/-! ### The checks -/

/-- The four checks in their order (R233): a check counts only when those before it pass. -/
theorem headerFault_eq_some_iff (b : List Byte) :
    (headerFault b = some .length ↔ b.length ≠ 15) ∧
    (headerFault b = some .start ↔ b.length = 15 ∧ b[0]? ≠ some 0x3A) ∧
    (headerFault b = some .direction ↔ b.length = 15 ∧ b[0]? = some 0x3A ∧
      b[1]? ≠ some 0x4E ∧ b[1]? ≠ some 0x52) ∧
    (headerFault b = some .checksum ↔ b.length = 15 ∧ b[0]? = some 0x3A ∧
      (b[1]? = some 0x4E ∨ b[1]? = some 0x52) ∧ verifyChecksum b = false) := by
  unfold headerFault hdrLen wireMark wireDirSend wireDirRecv
  rw [List.head?_eq_getElem?]
  generalize b.length = len, b[0]? = mark, b[1]? = dir
  split_ifs with hlen hmark hdir hsum
  · simp_all
  · simp_all
  · simp_all
  · simp_all
    tauto
  · simp_all

theorem decodeFrame_waitingInstruction {b : List Byte} (hne : b ≠ []) :
    decodeFrame .waitingInstruction b = .ok (decodeHeaderFrame b) := by
  obtain ⟨b0, rest, rfl⟩ := List.exists_cons_of_ne_nil hne
  rfl

/-- A header that passes the checks is made of the fields of its row (R233). -/
theorem exists_hdrRow_of_valid {b : List Byte} (hvalid : headerFault b = none) :
    ∃ d h, b = hdrFrame d h ∧ decodeHeaderFrame b = hdrRow d h := by
  obtain ⟨e, hfault, -⟩ | ⟨d, h, hb, -, hrow⟩ := decodeHeaderFrame_cases b
  · nomatch hvalid.symm.trans hfault
  · exact ⟨d, h, hb, hrow⟩

/-- Settles O35: the checks in their order, the rows they leave, and the report of each failing check. -/
theorem invalidHeader : Obligations.InvalidHeader := by
  refine ⟨headerFault_eq_some_iff, fun b e hne hfault => ?invalid, fun b hvalid => ?valid,
    fun b s => ⟨rfl, rfl, rfl, rfl⟩⟩
  case invalid =>
    rw [decodeFrame_waitingInstruction hne, decodeHeaderFrame_of_fault hfault]
  case valid =>
    obtain ⟨d, h, rfl, hrow⟩ := exists_hdrRow_of_valid hvalid
    have hframe : decodeFrame .waitingInstruction (hdrFrame d h) = .ok (hdrRow d h) :=
      congrArg Except.ok hrow
    refine ⟨h, readHdrFields_hdrFrame d h, fun hdir => ?_, fun hdir => ?_⟩
    · cases d with
      | send => exact hframe
      | recv => exact absurd (Option.some.inj hdir : wireDirRecv = 0x4E) (by decide)
    · cases d with
      | send => exact absurd (Option.some.inj hdir : wireDirSend = 0x52) (by decide)
      | recv => exact hframe

/-! ### The Send header -/

/-- What `HDR_SEND` does, as one update (R237). -/
theorem exec_hdrSend (h : HdrFields) (s : State) :
    exec (.hdrSend h) s = .next { s with
      hdr := decodeHeader .send h
      dir1 := true
      expectedLen := min (h.packetSize.toNat + 2) 30
      commState := .waitingData
      out := s.out ++ (if 28 < h.packetSize.toNat then [.diag .payloadOverflow] else []) ++
        [.tx [0x06]] } := by
  change execHdrSend h s = _
  dsimp only [execHdrSend]
  rw [announceLength_eq]
  rfl

/-- Settles O33: one update, with the announced length clamped. -/
theorem sendHeader : Obligations.SendHeader :=
  fun h s => ⟨_, exec_hdrSend h s, rfl, rfl, rfl, rfl, rfl, rfl⟩

end Sys2Proof.Machine

/-! PROOFS. The response headers (spec/43_psm.md R238, R244 to R248): the case of a response, the fields its
header is answered with, and the size it announces. -/

namespace Sys2Proof.Machine

/-! ### Response cases -/

/-- `HL_STATE` asks for the status, for a direct sample, or for neither (R244). -/
theorem hlState_cases (hl : HlState) :
    (hl = .meStatus ∧ ¬(hl = .meGetSample1 ∨ hl = .meGetSample2 ∨ hl = .meGetSample3) ∧
      ¬(hl = .none ∨ hl = .sending)) ∨
    (hl ≠ .meStatus ∧ (hl = .meGetSample1 ∨ hl = .meGetSample2 ∨ hl = .meGetSample3) ∧
      ¬(hl = .none ∨ hl = .sending)) ∨
    (hl ≠ .meStatus ∧ ¬(hl = .meGetSample1 ∨ hl = .meGetSample2 ∨ hl = .meGetSample3) ∧
      (hl = .none ∨ hl = .sending)) := by
  cases hl <;> simp

theorem headerCase_of_meStatus {s : State} (h : s.hlState = .meStatus) : headerCase s = .status := by
  simp only [headerCase, h]

/-- Each direct sample is that of its channel (R244). -/
theorem headerCase_of_sampling {s : State} {hk : HlState × Channel} (h : s.hlState = hk.1)
    (hmem : hk ∈ [(HlState.meGetSample1, Channel.ch1), (.meGetSample2, .ch2), (.meGetSample3, .ch3)]) :
    headerCase s = .sample hk.2 := by
  simp only [List.mem_cons, List.not_mem_nil, or_false] at hmem
  rcases hmem with rfl | rfl | rfl <;> simp only [headerCase, h]

theorem exists_headerCase_eq_sample {s : State}
    (h : s.hlState = .meGetSample1 ∨ s.hlState = .meGetSample2 ∨ s.hlState = .meGetSample3) :
    ∃ k, headerCase s = .sample k := by
  rcases h with h | h | h
  · exact ⟨.ch1, by simp only [headerCase, h]⟩
  · exact ⟨.ch2, by simp only [headerCase, h]⟩
  · exact ⟨.ch3, by simp only [headerCase, h]⟩

/-- Without a mode of its own a response is the status check or a voltage list (R244). -/
theorem headerCase_of_listing {s : State} (h : s.hlState = .none ∨ s.hlState = .sending) :
    headerCase s = if s.pendingCmd = .statusCheck ∧ s.form2 = .listForm then .statusCheck
      else .voltageList := by
  rcases h with h | h <;> simp only [headerCase, h]

theorem headerCase_of_statusCheck {s : State} (h : s.hlState = .none ∨ s.hlState = .sending)
    (hpend : s.pendingCmd = .statusCheck) (hform : s.form2 = .listForm) :
    headerCase s = .statusCheck := by
  rw [headerCase_of_listing h, if_pos ⟨hpend, hform⟩]

theorem headerCase_eq_voltageList_iff (s : State) :
    headerCase s = .voltageList ↔ (s.hlState = .none ∨ s.hlState = .sending) ∧
      (s.pendingCmd ≠ .statusCheck ∨ s.form2 ≠ .listForm) := by
  obtain ⟨hstatus, -, hnlisting⟩ | ⟨-, hsample, hnlisting⟩ | ⟨-, -, hlisting⟩ :=
    hlState_cases s.hlState
  · rw [headerCase_of_meStatus hstatus]
    exact iff_of_false nofun fun h => hnlisting h.1
  · obtain ⟨k, hcase⟩ := exists_headerCase_eq_sample hsample
    rw [hcase]
    exact iff_of_false nofun fun h => hnlisting h.1
  · rw [headerCase_of_listing hlisting, ← not_and_or, and_iff_right hlisting]
    split_ifs with hcheck
    · exact iff_of_false nofun (not_not.2 hcheck)
    · exact iff_of_true rfl hcheck

/-! ### The announced size -/

theorem activeChannels_length_le (s : State) : (activeChannels s).length ≤ 3 :=
  List.length_filter_le _ _

/-- The size of a list of at most three channels (R248): modulo 2^16 only for an Ascii list of none. -/
theorem listSize_toNat (t : ValueType) {n : Nat} (hn : n ≤ 3) :
    (listSize t n).toNat = if t = .hex then 2 * n else if n = 0 then 0xFFFF else 7 * n - 1 := by
  cases t <;> interval_cases n <;> rfl

theorem length_hexPayload (s : State) : (hexPayload s).length = 2 * (activeChannels s).length := by
  rw [hexPayload, length_hexList, List.length_map]

/-- Settles O47: the sizes of R248 are the lengths of the two list payloads. -/
theorem listHeaderSizeMatchesPayload : Obligations.ListHeaderSizeMatchesPayload := by
  refine ⟨fun vs hmin hmax hfinite => ?_, fun s => ?_⟩
  · rw [listSize_toNat .ascii hmax, length_asciiList vs hfinite, if_neg (by decide), if_neg (by omega)]
  · rw [listSize_toNat .hex (activeChannels_length_le s), length_hexPayload, if_pos rfl]

/-! ### The Recv header -/

/-- The state a Recv header is answered in: the header is latched, and its form once more (R236, R238). -/
def latchRecv (h : HdrFields) (s : State) : State :=
  { s with hdr := decodeHeader .recv h, dir2 := true, form2 := formOfByte h.formByte }

/-- What `HDR_RECV` does, as one update (R238), for the fields of its answer. -/
theorem exec_hdrRecv {h : HdrFields} {s : State} {ty fo area : Byte} {size : U16}
    (hanswer : responseHeader (latchRecv h s) = buildHeader s.params ty fo size area) :
    exec (.hdrRecv h) s = .next { latchRecv h s with
      commState := .waitingHeaderAck
      out := s.out ++ [.tx (buildHeader s.params ty fo size area)] } := by
  rw [← hanswer]
  rfl

theorem typeByteOf_typeOfByte (t : Byte) :
    typeByteOf (typeOfByte t) = if t = 0x48 then 0x48 else 0x41 := by
  unfold typeOfByte
  exact apply_ite typeByteOf (t = wireTypeHex) .hex .ascii

theorem formByteOf_formOfByte (f : Byte) :
    formByteOf (formOfByte f) = if f = 0x4C then 0x4C else 0x56 := by
  unfold formOfByte
  exact apply_ite formByteOf (f = wireFormList) .listForm .variableForm

/-- The size a voltage list is announced with, from the header's type byte and the operation codes
(R248). -/
theorem listSize_of_header (t : Byte) (s : State) :
    (listSize (typeOfByte t) (activeChannels s).length).toNat =
      if t = 0x48 then 2 * Channel.all.countP (fun c => s.chOp.get c != 0)
      else if Channel.all.countP (fun c => s.chOp.get c != 0) = 0 then 0xFFFF
      else 7 * Channel.all.countP (fun c => s.chOp.get c != 0) - 1 := by
  rw [listSize_toNat _ (activeChannels_length_le s), activeChannels_length]
  simp only [typeOfByte_eq_hex_iff]

theorem responseHeader_latchRecv_of_meStatus (h : HdrFields) {s : State} (hl : s.hlState = .meStatus) :
    responseHeader (latchRecv h s) = buildHeader s.params 0x41 0x56 1 0x41 := by
  rw [responseHeader, headerCase_of_meStatus (s := latchRecv h s) hl]
  rfl

theorem responseHeader_latchRecv_of_sampling (h : HdrFields) {s : State}
    (hl : s.hlState = .meGetSample1 ∨ s.hlState = .meGetSample2 ∨ s.hlState = .meGetSample3) :
    responseHeader (latchRecv h s) = buildHeader s.params 0x41 0x56 6 0x41 := by
  obtain ⟨k, hcase⟩ := exists_headerCase_eq_sample (s := latchRecv h s) hl
  rw [responseHeader, hcase]
  rfl

theorem responseHeader_latchRecv_of_statusCheck {h : HdrFields} {s : State}
    (hl : s.hlState = .none ∨ s.hlState = .sending)
    (hcheck : s.pendingCmd = .statusCheck ∧ h.formByte = 0x4C) :
    responseHeader (latchRecv h s) = buildHeader s.params 0x41 0x4C 9 0x41 := by
  obtain ⟨hpend, hbyte⟩ := hcheck
  have hform : (latchRecv h s).form2 = .listForm := (formOfByte_eq_listForm_iff _).2 hbyte
  rw [responseHeader, headerCase_of_statusCheck (s := latchRecv h s) hl hpend hform]
  rfl

theorem responseHeader_latchRecv_of_list {h : HdrFields} {s : State}
    (hl : s.hlState = .none ∨ s.hlState = .sending)
    (hlist : s.pendingCmd ≠ .statusCheck ∨ h.formByte ≠ 0x4C) :
    responseHeader (latchRecv h s) = buildHeader s.params (typeByteOf (typeOfByte h.typeByte))
      (formByteOf (formOfByte h.formByte)) (listSize (typeOfByte h.typeByte) (activeChannels s).length)
      (listArea s) := by
  have hcase : headerCase (latchRecv h s) = .voltageList :=
    (headerCase_eq_voltageList_iff _).2
      ⟨hl, hlist.imp_right fun hbyte hform => hbyte ((formOfByte_eq_listForm_iff _).1 hform)⟩
  rw [responseHeader, hcase]
  rfl

/-- Settles O34: the four cases of a response, each with the fields of its answer. -/
theorem recvHeader : Obligations.RecvHeader := by
  intro h s
  obtain ⟨hstatus, hnsample, hnlisting⟩ | ⟨hnstatus, hsample, hnlisting⟩ |
    ⟨hnstatus, hnsample, hlisting⟩ := hlState_cases s.hlState
  · exact ⟨_, _, _, _, _, exec_hdrRecv (responseHeader_latchRecv_of_meStatus h hstatus),
      rfl, rfl, rfl, rfl, rfl,
      fun _ => ⟨rfl, rfl, rfl, rfl⟩, (absurd · hnsample), (absurd · hnlisting), rfl⟩
  · exact ⟨_, _, _, _, _, exec_hdrRecv (responseHeader_latchRecv_of_sampling h hsample),
      rfl, rfl, rfl, rfl, rfl,
      (absurd · hnstatus), fun _ => ⟨rfl, rfl, rfl, rfl⟩, (absurd · hnlisting), rfl⟩
  · by_cases hcheck : s.pendingCmd = .statusCheck ∧ h.formByte = 0x4C
    · exact ⟨_, _, _, _, _, exec_hdrRecv (responseHeader_latchRecv_of_statusCheck hlisting hcheck),
        rfl, rfl, rfl, rfl, rfl, (absurd · hnstatus), (absurd · hnsample),
        fun _ => ⟨fun _ _ => ⟨rfl, rfl, rfl, rfl⟩, (absurd hcheck <| not_and_or.2 ·)⟩, rfl⟩
    · have hlist := not_and_or.1 hcheck
      exact ⟨_, _, _, _, _, exec_hdrRecv (responseHeader_latchRecv_of_list hlisting hlist),
        rfl, rfl, rfl, rfl, rfl, (absurd · hnstatus), (absurd · hnsample),
        fun _ => ⟨fun hpend hform => absurd ⟨hpend, hform⟩ hcheck,
          fun _ => ⟨typeByteOf_typeOfByte _, formByteOf_formOfByte _, rfl,
            fun n hn => hn ▸ listSize_of_header _ s⟩⟩, rfl⟩

end Sys2Proof.Machine

/-! PROOFS. The frames of one update each, and the data frame (spec/43_psm.md R231, R232, R239, R242, R243,
R252 to R255): what selects them and what they do. -/

namespace Sys2Proof.Machine

/-! ### Frames of `Idle`, the ack states and the roleswap -/

/-- In `Idle` the start indicator anywhere in the frame decides (R231). -/
theorem decodeFrame_idle {b : List Byte} (hne : b ≠ []) :
    decodeFrame .idle b = .ok (if 0x15 ∈ b then .startIdle b else .noise b) := by
  obtain ⟨b0, rest, rfl⟩ := List.exists_cons_of_ne_nil hne
  simp only [decodeFrame, List.contains_iff_mem, wireStart]

theorem decodeFrame_waitingRoleswap {b : List Byte} (hne : b ≠ []) :
    decodeFrame .waitingRoleswap b = .ok (.roleswapStep b) := by
  obtain ⟨b0, rest, rfl⟩ := List.exists_cons_of_ne_nil hne
  rfl

/-- In an ack state a byte 0 that is no code of the protocol selects `ACK_OTHER` (R252). -/
theorem isAckCode_eq_false {b0 : Byte} (h : b0 ∉ ([0x06, 0x05, 0x22, 0x15] : List Byte)) :
    isAckCode b0 = false :=
  Bool.eq_false_iff.2 (mt List.contains_iff_mem.1 h)

/-- A restart reports and then acknowledges (R243). -/
theorem exec_startRestart (rest : List Byte) (s : State) :
    exec (.startRestart rest) s = .next { s with
      commState := .waitingInstruction, out := s.out ++ [.diag .restart, .tx [0x13]] } := by
  change execStartRestart s = _
  simp [execStartRestart, emitOut, wireAOk]

/-- Settles O32: byte 0x15 in the frame selects the row, and each row is one update. -/
theorem idleFrames : Obligations.IdleFrames :=
  fun _ _ => ⟨decodeFrame_idle, rfl, rfl⟩

/-- Settles O44: byte 0 selects the row in both ack states, and each row is one diagnostic. -/
theorem acksThatChangeNothing : Obligations.AcksThatChangeNothing := by
  refine fun b0 rest s => ⟨fun st hmem => ?_, rfl, rfl, rfl⟩
  have hst : st = .waitingHeaderAck ∨ st = .waitingPacketAck := by simpa using hmem
  exact ⟨decodeFrame_encode_ack st _ rest _ hst fun _ => rfl,
    decodeFrame_encode_ack st _ rest _ hst fun _ => rfl,
    fun hcode => decodeFrame_encode_ack st b0 rest _ hst fun ok =>
      decodeAck_of_not_isAckCode ok rest (isAckCode_eq_false hcode)⟩

/-- Settles O45: byte 0 selects the restart and the B-OK, any frame the roleswap step, and each row is one
update. -/
theorem restartPacketAckAndRoleswap : Obligations.RestartPacketAckAndRoleswap := by
  refine fun b s => ⟨fun st hmem => ?_, exec_startRestart b s, rfl, rfl,
    decodeFrame_waitingRoleswap, rfl⟩
  exact decodeFrame_encode_ack st _ b _ (by simpa using hmem) fun _ => rfl

/-! ### Data frames -/

theorem decodeFrame_waitingData {b : List Byte} (hne : b ≠ []) :
    decodeFrame .waitingData b = .ok (.data b) := by
  obtain ⟨b0, rest, rfl⟩ := List.exists_cons_of_ne_nil hne
  rfl

/-- The state a data frame's command runs in: a missing mark is a data error, and is reported (R239). -/
def checkMark (b : List Byte) (s : State) : State :=
  { s with
    dataErr := decide (b.head? ≠ some 0x3A)
    out := s.out ++ (if b.head? = some 0x3A then [] else [.diag .dataNoStart]) }

/-- A data frame checks its mark, runs its command, and is acknowledged by `DATA_ERR` (R239). -/
theorem exec_data (b : List Byte) (s : State) :
    exec (.data b) s = andThen (interpret b (checkMark b s)) fun u =>
      .next { u with dataErr := false, commState := .idle, out := u.out ++ [.tx [dataAck u]] } := by
  have hmark : (if b.head? = some wireMark then clearDataError s
      else raiseDataError .dataNoStart (clearDataError s)) = checkMark b s := by
    unfold checkMark wireMark
    split_ifs with h
    · simp [clearDataError, h]
    · rw [decide_eq_true h]
      rfl
  change execData b s = _
  dsimp only [execData]
  rw [hmark]
  rfl

/-- No command writes `DATA_ERR` (R210). -/
theorem WritesConfigurationOnly.dataErr {s t : State} (h : WritesConfigurationOnly s t) :
    t.dataErr = s.dataErr :=
  (congrArg State.dataErr h.2 :)

/-- Settles O36: the row of the frame's tokens runs after the mark is checked, and leaves the
acknowledgement to the mark alone. -/
theorem dataFrameRunsItsCommand : Obligations.DataFrameRunsItsCommand := by
  refine ⟨payloadText_cons_concat, payloadText_short, fun _ => rfl, fun _ => decodeFrame_waitingData,
    fun b s i hrow => ?_⟩
  have hi := commandTokens_of_decodeTokens _ i hrow
  obtain ⟨u, hu, hwrites⟩ := exec_command_writesConfigurationOnly i (checkMark b s) hi
  refine ⟨u, hu, ?_⟩
  have hrun : interpret b (checkMark b s) = .next u := by
    simp only [interpret, hrow, runCommand_eq_exec i _ hi, hu]
  have hack : dataAck u = if b.head? = some 0x3A then 0x06 else 0x22 := by
    rw [dataAck, hwrites.dataErr]
    by_cases hmark : b.head? = some 0x3A <;> simp [checkMark, hmark, wireBOk, wireBError]
  rw [exec_data, hrun, andThen_next, hack]

/-- Settles O37: without a command the frame is a data error after its mark is checked. -/
theorem shortCommandIsDataError : Obligations.ShortCommandIsDataError := by
  intro b s e hrow
  have hrun : interpret b (checkMark b s) = .next (raiseDataError .dataTokenCount (checkMark b s)) := by
    simp only [interpret, hrow]
  rw [exec_data, hrun, andThen_next]
  simp [checkMark, emitOut, dataAck, wireBError]

end Sys2Proof.Machine

/-! PROOFS. What a B-OK for the response header sends (spec/43_psm.md R241, R249 to R251, R257 to R264): the
packets of the fixed cases, the end of a batch, and the voltage lists. -/

namespace Sys2Proof.Machine

/-! ### The row by its case -/

section
variable {s : State} (rest : List Byte)

theorem exec_ackBOkHdr_of_status (h : headerCase s = .status) :
    exec (.ackBOkHdr rest) s = .next (sendStatus s) := by
  change execAckBOkHdr s = _
  simp only [execAckBOkHdr, h]

theorem exec_ackBOkHdr_of_sample {k : Channel} (h : headerCase s = .sample k) :
    exec (.ackBOkHdr rest) s = .next (sendSample k s) := by
  change execAckBOkHdr s = _
  simp only [execAckBOkHdr, h]

theorem exec_ackBOkHdr_of_statusCheck (h : headerCase s = .statusCheck) :
    exec (.ackBOkHdr rest) s = .next (sendStatusCheck s) := by
  change execAckBOkHdr s = _
  simp only [execAckBOkHdr, h]

theorem exec_ackBOkHdr_of_batch (h : headerCase s = .voltageList) (hmode : s.trigMode = .batch) :
    exec (.ackBOkHdr rest) s = .next (batchStep s) := by
  change execAckBOkHdr s = _
  simp only [execAckBOkHdr, h, hmode]

theorem exec_ackBOkHdr_of_realTime (h : headerCase s = .voltageList) (hmode : s.trigMode = .realTime) :
    exec (.ackBOkHdr rest) s = .next (sendList .realTimeTail s) := by
  change execAckBOkHdr s = _
  simp only [execAckBOkHdr, h, hmode]

/-- A batch whose count is reached sends the terminator (R250, R264). -/
theorem exec_ackBOkHdr_of_batchEnd (h : headerCase s = .voltageList) (hmode : s.trigMode = .batch)
    (hdone : s.sampleIndex.toNat = s.trigCount.toNat) :
    exec (.ackBOkHdr rest) s = .next { s with
      commState := .waitingRoleswap, out := s.out ++ [.tx s.params.endPacket] } := by
  rw [exec_ackBOkHdr_of_batch rest h hmode, batchStep_of_done ((batch_count_iff s).2 hdone)]
  rfl

/-- What a voltage list goes on with in a trigger mode (R250, R251). -/
def listTail (m : TrigMode) : Continuation := if m = .batch then .batchTail else .realTimeTail

/-- Otherwise a voltage list is sent, with the tail of its mode (R250, R251). -/
theorem exec_ackBOkHdr_of_list (h : headerCase s = .voltageList)
    (hmore : s.trigMode = .batch → s.sampleIndex.toNat ≠ s.trigCount.toNat) :
    exec (.ackBOkHdr rest) s = .next (sendList (listTail s.trigMode) s) := by
  cases hmode : s.trigMode with
  | batch =>
    rw [exec_ackBOkHdr_of_batch rest h hmode,
      batchStep_of_more (mt (batch_count_iff s).1 (hmore hmode))]
    rfl
  | realTime => exact exec_ackBOkHdr_of_realTime rest h hmode

end

/-! ### The fixed cases -/

/-- The tests of the status byte, from the highest level down and from the lowest up. -/
theorem status_escalation : ∀ link sync cloud : Bool,
    (if link && sync && cloud then 0x33 else if link && sync then 0x32 else if link then 0x31
      else 0x30 : Byte) =
    if link = false then 0x30 else if sync = false then 0x31 else if cloud = false then 0x32
      else 0x33 := by
  decide

/-- The status byte escalates answer by answer (R257). -/
theorem statusByte_fst (s : State) : ∃ link sync cloud : Bool,
    (statusByte s).1 = (if link = false then 0x30 else if sync = false then 0x31
      else if cloud = false then 0x32 else 0x33) ∧
    ∀ l y k more, s.connIn = l :: y :: k :: more → link = l ∧ sync = y ∧ cloud = k := by
  refine ⟨_, _, _, status_escalation (drawConn s).1 (drawConn (drawConn s).2).1
    (drawConn (drawConn (drawConn s).2).2).1, fun l y k more h => ?_⟩
  simp [drawConn, h]

/-- What the status packet is and writes (R249, R257). -/
theorem sendStatus_eq (s : State) :
    sendStatus s = { s with
      connIn := s.connIn.drop 3
      freeDraws := s.freeDraws + (3 - s.connIn.length)
      commState := .waitingPacketAck
      out := s.out ++ [.tx (buildPacket [(statusByte s).1])] } := by
  dsimp only [sendStatus]
  rw [sendPacket_eq, statusByte_snd]
  rfl

/-- What a direct-sample packet is and writes (R249, R261). -/
theorem sendSample_eq (k : Channel) (s : State) :
    sendSample k s = { s with
      adcIn := s.adcIn.tail
      freeDraws := s.freeDraws + if s.adcIn = [] then 1 else 0
      commState := .waitingPacketAck
      out := s.out ++ [.tx (buildPacket (encodeFixedAscii (drawAdc k s).1.toF64))] } := by
  have hne : encodeFixedAscii (drawAdc k s).1.toF64 ≠ [] :=
    List.ne_nil_of_length_pos (by rw [length_encodeFixedAscii (toF64_finite _)]; decide)
  dsimp only [sendSample]
  rw [sendPacket_eq, drawAdc_snd, if_neg hne]

/-- What the status-check packet is and writes (R249, R263): its nine bytes are never none. -/
theorem sendStatusCheck_eq (s : State) :
    sendStatusCheck s = { s with
      pendingCmd := .none
      commState := .waitingPacketAck
      out := s.out ++ [.tx (buildPacket s.params.statusCheckPayload.toList)] } := by
  have hne : s.params.statusCheckPayload.toList ≠ [] := List.ne_nil_of_length_pos (by simp)
  rw [sendStatusCheck, sendPacket_eq, if_neg hne]

theorem drawAdc_fst_nil (c : Channel) {s : State} (h : s.adcIn = []) :
    (drawAdc c s).1 = Config.adcDraw c s.freeDraws := by
  simp only [drawAdc, h]

/-- Settles O38: the three fixed cases, each with its packet and the answers it takes. -/
theorem fixedResponsePackets : Obligations.FixedResponsePackets := by
  refine fun rest s => ⟨rfl, headerCase_eq_voltageList_iff s, fun hstatus => ?status,
    fun hk hmem hsample => ?sample, fun hlisting hpend hform => ?statusCheck⟩
  case status =>
    obtain ⟨link, sync, cloud, hbyte, hanswers⟩ := statusByte_fst s
    have hexec := exec_ackBOkHdr_of_status rest (headerCase_of_meStatus hstatus)
    rw [sendStatus_eq, hbyte] at hexec
    refine ⟨_, link, sync, cloud, hexec, fun l y k more h => ?_, rfl, rfl, rfl⟩
    obtain ⟨hlink, hsync, hcloud⟩ := hanswers l y k more h
    exact ⟨hlink, hsync, hcloud, by simp [h], by simp [h]⟩
  case sample =>
    have hexec := exec_ackBOkHdr_of_sample rest (headerCase_of_sampling hsample hmem)
    rw [sendSample_eq] at hexec
    exact ⟨_, _, hexec, fun a more h => ⟨drawAdc_fst_cons _ _ _ _ h, by simp [h], by simp [h]⟩,
      drawAdc_fst_nil _, rfl, rfl, rfl⟩
  case statusCheck =>
    rw [exec_ackBOkHdr_of_statusCheck rest (headerCase_of_statusCheck hlisting hpend hform),
      sendStatusCheck_eq]

/-- Settles O39: the batch step at the count. -/
theorem batchEndSendsTerminator : Obligations.BatchEndSendsTerminator :=
  fun rest _ hcase hmode hdone => exec_ackBOkHdr_of_batchEnd rest hcase hmode hdone

/-! ### Voltage lists -/

theorem listTail_of_batch {m : TrigMode} (h : m = .batch) : listTail m = .batchTail := if_pos h

theorem listTail_of_realTime {m : TrigMode} (h : m = .realTime) : listTail m = .realTimeTail :=
  if_neg (by simp [h])

/-- A batch tail leaves the protocol and the timer where they are (R250). -/
theorem finishList_batchTail {k : Continuation} (hk : k = .batchTail) (p : List Byte) (s : State) :
    (finishList k p s).commState = s.commState ∧ (finishList k p s).timerArmed = s.timerArmed := by
  rw [finishList_eq, hk]
  exact ⟨rfl, rfl⟩

/-- A real-time tail waits for the packet's acknowledgement, and disarms at the count (R251). -/
theorem finishList_realTimeTail {k : Continuation} (hk : k = .realTimeTail) (p : List Byte) (s : State) :
    (finishList k p s).commState = .waitingPacketAck ∧
    (finishList k p s).timerArmed =
      (s.timerArmed && decide ((finishList k p s).sampleIndex.toNat < s.trigCount.toNat)) := by
  rw [finishList_eq, hk]
  exact ⟨rfl, rfl⟩

theorem readChannels_finite (cs : List Channel) (s : State) :
    ∀ v ∈ (readChannels cs s).1, f64IsFinite v = true := by
  induction cs generalizing s with
  | nil => exact fun v h => absurd h List.not_mem_nil
  | cons c cs ih =>
    exact List.forall_mem_cons.2 ⟨toF64_finite _, ih _⟩

/-- Only the list of no value is empty (spec/40_codec.md R148). -/
theorem asciiList_eq_nil_iff {vs : List F64} (h : ∀ v ∈ vs, f64IsFinite v = true) :
    asciiList vs = [] ↔ vs = [] := by
  rw [← List.length_eq_zero_iff, length_asciiList vs h, ← List.length_eq_zero_iff]
  omega

/-- The hex payload is empty without an active channel only (R259). -/
theorem hexPayload_eq_nil_iff (s : State) : hexPayload s = [] ↔ s.chOp = ⟨0, 0, 0⟩ := by
  rw [hexPayload, hexList_eq_nil, List.map_eq_nil_iff, activeChannels_eq_nil]

/-- Settles O40: the list of the readings, sent with the tail of the trigger mode. -/
theorem asciiListPacket : Obligations.AsciiListPacket := by
  intro rest s hcase hascii hmore
  have hexec := exec_ackBOkHdr_of_list rest hcase hmore
  rw [sendList_of_ascii _ hascii, readChannels_snd] at hexec
  have hlen := readChannels_length (activeChannels s) s
  have hfinite := readChannels_finite (activeChannels s) s
  refine ⟨_, (readChannels (activeChannels s) s).1, hexec, hlen.trans (activeChannels_length s), hfinite,
    fun henough => ?scripted, ?count, ?out, fun hmode => finishList_batchTail (listTail_of_batch hmode) _ _,
    fun hmode => finishList_realTimeTail (listTail_of_realTime hmode) _ _, ?frame⟩
  case scripted =>
    rw [hlen] at henough ⊢
    rw [finishList_eq]
    exact ⟨readChannels_fst _ s henough, rfl, by simp [henough]⟩
  case count => rw [finishList_eq]
  case out => rw [finishList_eq]; simp only [asciiList_eq_nil_iff hfinite]
  case frame => rw [finishList_eq]

/-- Settles O41: the oldest event is taken, and its list sent with the tail of the trigger mode. -/
theorem hexListPacket : Obligations.HexListPacket := by
  intro rest s e q hcase hhex hmore hsq
  have hexec := exec_ackBOkHdr_of_list rest hcase hmore
  rw [sendList_of_hex_cons _ hhex hsq] at hexec
  refine ⟨_, hexec, ?_, ?_, ?_, ?_, ?out,
    fun hmode => finishList_batchTail (listTail_of_batch hmode) _ _,
    fun hmode => finishList_realTimeTail (listTail_of_realTime hmode) _ _, ?_⟩
  case out => rw [finishList_eq]; simp only [hexPayload_eq_nil_iff]; rfl
  all_goals rw [finishList_eq]; rfl

/-- Settles O42: the list holds its frame, with the tail of the trigger mode to go on with. -/
theorem emptyQueueHolds : Obligations.EmptyQueueHolds := by
  intro rest s hcase hhex hmore hsq
  rw [exec_ackBOkHdr_of_list rest hcase hmore, sendList_of_hex_nil _ hhex hsq]
  rfl

/-! ### Held frames -/

theorem resumeSample_of_empty {s : State} (h : s.sq = []) :
    resumeSample s = finishHeld (sampleTimeout s) := by
  simp only [resumeSample, h]

theorem resumeSample_of_timeout {s : State} (hne : s.sq ≠ []) (h : (drawTimeout s).1 = true) :
    resumeSample s = finishHeld (sampleTimeout (drawTimeout s).2) := by
  obtain ⟨e, q, hsq⟩ := List.exists_cons_of_ne_nil hne
  simp only [resumeSample, hsq, h, if_true]

theorem resumeSample_of_sample {s : State} {e : SampleEvent} {q : List SampleEvent} (hsq : s.sq = e :: q)
    (h : (drawTimeout s).1 = false) :
    resumeSample s = finishHeld (takeSample e q (drawTimeout s).2) := by
  simp only [resumeSample, hsq, h, Bool.false_eq_true, if_false]

/-- A scripted draw decides the race, and is used up (log entry 7). -/
theorem drawTimeout_of_scripted {s : State} {w : Bool} {more : List Bool}
    (h : s.timeoutIn = w :: more) : (drawTimeout s).1 = w ∧ s.timeoutIn.tail = more := by
  simp [drawTimeout, h]

/-- How a held frame is resumed (R262): by the timeout, forced by an empty queue, or by the oldest event;
with both possible the draw decides. -/
theorem resumeSample_eq_finishHeld (s : State) :
    ∃ (timedOut : Bool) (races : List Bool) (n : Nat) (q : List SampleEvent) (m : Triple F64)
      (st : SampleStatus),
      resumeSample s = finishHeld { s with
        timeoutIn := races, freeDraws := n, sq := q, lastMeas := m, lastStatus := st
        out := s.out ++ if timedOut then [.diag .sampleUnavailable] else [] } ∧
      (s.sq = [] → timedOut = true) ∧
      (∀ w more, s.sq ≠ [] → s.timeoutIn = w :: more → timedOut = w ∧ races = more) ∧
      (timedOut = true → q = s.sq ∧ m = s.lastMeas ∧ st = .fail) ∧
      (timedOut = false → ∃ e, s.sq = e :: q ∧ m = e.measurements ∧ st = .ok) := by
  by_cases hempty : s.sq = []
  · exact ⟨true, s.timeoutIn, s.freeDraws, s.sq, s.lastMeas, .fail, resumeSample_of_empty hempty,
      fun _ => rfl, fun _ _ hne => absurd hempty hne, fun _ => ⟨rfl, rfl, rfl⟩, nofun⟩
  · cases hdraw : (drawTimeout s).1 with
    | true =>
      have hres := resumeSample_of_timeout hempty hdraw
      rw [drawTimeout_snd] at hres
      exact ⟨true, _, _, s.sq, s.lastMeas, .fail, hres, (absurd · hempty),
        fun w more _ h => hdraw ▸ drawTimeout_of_scripted h, fun _ => ⟨rfl, rfl, rfl⟩, nofun⟩
    | false =>
      obtain ⟨e, q, hsq⟩ := List.exists_cons_of_ne_nil hempty
      refine ⟨false, s.timeoutIn.tail, (drawTimeout s).2.freeDraws, q, e.measurements, .ok, ?_,
        (absurd · hempty), fun w more _ h => hdraw ▸ drawTimeout_of_scripted h, nofun,
        fun _ => ⟨e, hsq, rfl, rfl⟩⟩
      rw [resumeSample_of_sample hsq hdraw, drawTimeout_snd, if_neg Bool.false_ne_true, List.append_nil]
      rfl

/-- Settles O43: the resumption has its measurements, and the list goes on with the tail that was held. -/
theorem heldFrameResumes : Obligations.HeldFrameResumes := by
  intro s hheld
  obtain ⟨timedOut, races, n, q, m, st, hres, hempty, hdraw, htimeout, hsample⟩ :=
    resumeSample_eq_finishHeld s
  have hstep : taskStep s = .next (resumeSample s) := by simp only [taskStep, hheld]
  rw [hres, finishHeld_eq_finishList] at hstep
  refine ⟨_, timedOut, hstep, hempty, ?draw, ?timeout, ?sample, ?ready, ?consumed, ?count, ?out,
    fun hcont => finishList_batchTail hcont _ _, fun hcont => finishList_realTimeTail hcont _ _, ?frame⟩
  all_goals rw [finishList_eq]
  case draw => exact hdraw
  case timeout => exact htimeout
  case sample => exact hsample
  case out =>
    simp only [hexPayload_eq_nil_iff]
    rfl

end Sys2Proof.Machine

/-! PROOFS. The transition table (spec/43_psm.md R266), state by state: where the row that a frame selects
leads `COMM_STATE`. -/

namespace Sys2Proof.Machine

theorem endFrame_commState (s : State) : (endFrame s).commState = s.commState := by
  rw [endFrame_eq]

section
variable {s t : State} {b : List Byte} {i : Instr}

theorem commState_eq_commAfter_of_idle (hst : s.commState = .idle) (hne : b ≠ [])
    (hrow : decodeFrame .idle b = .ok i) (h : exec i s = .next t) : t.commState = commAfter s b := by
  rw [decodeFrame_idle hne] at hrow
  obtain rfl := Except.ok.inj hrow
  simp only [commAfter, hst, List.contains_iff_mem, wireStart]
  split_ifs at h ⊢ <;> obtain rfl := Host.Outcome.next.inj h
  · rfl
  · exact hst

/-- A header leads on by its direction, and a frame that fails a check leads back (R233, R234). -/
theorem commState_eq_commAfter_of_waitingInstruction (hst : s.commState = .waitingInstruction)
    (hne : b ≠ []) (hrow : decodeFrame .waitingInstruction b = .ok i) (h : exec i s = .next t) :
    t.commState = commAfter s b := by
  rw [decodeFrame_waitingInstruction hne] at hrow
  obtain rfl := Except.ok.inj hrow
  simp only [commAfter, hst]
  obtain ⟨e, hfault, hrow⟩ | ⟨d, f, rfl, hsum, hrow⟩ := decodeHeaderFrame_cases b
  · rw [hrow] at h
    obtain rfl := Host.Outcome.next.inj h
    simp only [hfault, reduceCtorEq, if_false]
  · rw [hrow] at h
    rw [if_pos (headerFault_hdrFrame d f hsum)]
    cases d with
    | send =>
      obtain rfl := Host.Outcome.next.inj ((exec_hdrSend f s).symm.trans h)
      rfl
    | recv =>
      obtain rfl := Host.Outcome.next.inj h
      rfl

/-- Every data frame leads back to `Idle`, with a command or without (R239). -/
theorem commState_eq_commAfter_of_waitingData (hst : s.commState = .waitingData) (hne : b ≠ [])
    (hrow : decodeFrame .waitingData b = .ok i) (h : exec i s = .next t) :
    t.commState = commAfter s b := by
  rw [decodeFrame_waitingData hne] at hrow
  obtain rfl := Except.ok.inj hrow
  rw [exec_data] at h
  obtain ⟨u, -, hu⟩ := (andThen_eq_next _ _ _).1 h
  obtain rfl := Host.Outcome.next.inj hu
  simp only [commAfter, hst]

theorem commState_eq_commAfter_of_waitingRoleswap (hst : s.commState = .waitingRoleswap) (hne : b ≠ [])
    (hrow : decodeFrame .waitingRoleswap b = .ok i) (h : exec i s = .next t) :
    t.commState = commAfter s b := by
  rw [decodeFrame_waitingRoleswap hne] at hrow
  obtain rfl := Except.ok.inj hrow
  obtain rfl := Host.Outcome.next.inj h
  simp only [commAfter, hst]
  rfl

/-- A list stays in its state with a batch tail and in a hold, and else waits for the packet's
acknowledgement (R250, R251, R262). -/
theorem sendList_commState (k : Continuation) (s : State) :
    (sendList k s).commState = if k = .batchTail ∨ (s.hdr.valueType = .hex ∧ s.sq = []) then s.commState
      else .waitingPacketAck := by
  cases hv : s.hdr.valueType with
  | ascii =>
    rw [sendList_of_ascii k hv, finishList_eq, readChannels_snd]
    simp
  | hex =>
    cases hq : s.sq with
    | nil =>
      rw [sendList_of_hex_nil k hv hq]
      simp
    | cons e q =>
      rw [sendList_of_hex_cons k hv hq, finishList_eq]
      simp

/-- A B-OK for the response header leads on by the case of the response (R241, R249 to R251). -/
theorem commState_eq_commAfter_of_ackBOkHdr (hst : s.commState = .waitingHeaderAck) (rest : List Byte)
    (h : exec (.ackBOkHdr rest) s = .next t) : t.commState = commAfter s (wireBOk :: rest) := by
  simp only [commAfter, hst, List.head?_cons, if_true]
  cases hcase : headerCase s with
  | status =>
    rw [exec_ackBOkHdr_of_status rest hcase] at h
    obtain rfl := Host.Outcome.next.inj h
    rfl
  | sample k =>
    rw [exec_ackBOkHdr_of_sample rest hcase] at h
    obtain rfl := Host.Outcome.next.inj h
    rfl
  | statusCheck =>
    rw [exec_ackBOkHdr_of_statusCheck rest hcase] at h
    obtain rfl := Host.Outcome.next.inj h
    rfl
  | voltageList =>
    rw [if_neg (not_not.2 rfl)]
    by_cases hdone : s.trigMode = .batch ∧ s.sampleIndex.toNat = s.trigCount.toNat
    · rw [exec_ackBOkHdr_of_batchEnd rest hcase hdone.1 hdone.2] at h
      obtain rfl := Host.Outcome.next.inj h
      rw [if_pos hdone]
    · rw [exec_ackBOkHdr_of_list rest hcase (not_and.1 hdone)] at h
      obtain rfl := Host.Outcome.next.inj h
      rw [if_neg hdone, sendList_commState, hst]
      cases s.trigMode <;> simp [listTail]

/-- In an ack state byte 0 decides: the state's own B-OK, the restart, and no other code leads on (R240,
R254). -/
theorem commState_of_decodeAck (ok : List Byte → Instr) (b0 : Byte) (rest : List Byte)
    (h : exec (decodeAck ok b0 rest) s = .next t) :
    (b0 = wireBOk ∧ exec (ok rest) s = .next t) ∨
    (b0 ≠ wireBOk ∧ b0 = wireStart ∧ t.commState = .waitingInstruction) ∨
    (b0 ≠ wireBOk ∧ b0 ≠ wireStart ∧ t.commState = s.commState) := by
  unfold decodeAck at h
  split_ifs at h with hok hretry herror hstart
  · exact .inl ⟨hok, h⟩
  all_goals obtain rfl := Host.Outcome.next.inj h
  · subst hretry
    exact .inr (.inr ⟨hok, by decide, rfl⟩)
  · subst herror
    exact .inr (.inr ⟨hok, by decide, rfl⟩)
  · exact .inr (.inl ⟨hok, hstart, rfl⟩)
  · exact .inr (.inr ⟨hok, hstart, rfl⟩)

theorem commState_eq_commAfter_of_waitingHeaderAck (hst : s.commState = .waitingHeaderAck) (hne : b ≠ [])
    (hrow : decodeFrame .waitingHeaderAck b = .ok i) (h : exec i s = .next t) :
    t.commState = commAfter s b := by
  obtain ⟨b0, rest, rfl⟩ := List.exists_cons_of_ne_nil hne
  obtain rfl := Except.ok.inj hrow
  obtain ⟨rfl, hok⟩ | ⟨hok, rfl, ht⟩ | ⟨hok, hstart, ht⟩ :=
    commState_of_decodeAck _ b0 rest h
  · exact commState_eq_commAfter_of_ackBOkHdr hst rest hok
  · simp [commAfter, hst, hok, ht]
  · simp [commAfter, hst, hok, hstart, ht]

theorem commState_eq_commAfter_of_waitingPacketAck (hst : s.commState = .waitingPacketAck) (hne : b ≠ [])
    (hrow : decodeFrame .waitingPacketAck b = .ok i) (h : exec i s = .next t) :
    t.commState = commAfter s b := by
  obtain ⟨b0, rest, rfl⟩ := List.exists_cons_of_ne_nil hne
  obtain rfl := Except.ok.inj hrow
  obtain ⟨rfl, hok⟩ | ⟨hok, rfl, ht⟩ | ⟨hok, hstart, ht⟩ :=
    commState_of_decodeAck _ b0 rest h
  · obtain rfl := Host.Outcome.next.inj hok
    simp [commAfter, hst]
  · simp [commAfter, hst, hok, ht]
  · simp [commAfter, hst, hok, hstart, ht]

/-- The row that a frame selects leads where the table says (R266). -/
theorem commState_eq_commAfter (hne : b ≠ []) (hrow : decodeFrame s.commState b = .ok i)
    (h : exec i s = .next t) : t.commState = commAfter s b := by
  cases hst : s.commState <;> rw [hst] at hrow
  case idle => exact commState_eq_commAfter_of_idle hst hne hrow h
  case waitingInstruction => exact commState_eq_commAfter_of_waitingInstruction hst hne hrow h
  case waitingData => exact commState_eq_commAfter_of_waitingData hst hne hrow h
  case waitingHeaderAck => exact commState_eq_commAfter_of_waitingHeaderAck hst hne hrow h
  case waitingPacketAck => exact commState_eq_commAfter_of_waitingPacketAck hst hne hrow h
  case waitingRoleswap => exact commState_eq_commAfter_of_waitingRoleswap hst hne hrow h

end

/-- Settles O46: the frame's row leads where the table says, and loading and consuming the frame move
`COMM_STATE` nowhere. -/
theorem commStateFollowsTable : Obligations.CommStateFollowsTable := by
  intro s f hpos hlen
  have hne : f ≠ [] := List.ne_nil_of_length_pos hpos
  obtain ⟨i, t, hrow, hexec, hstep⟩ := psmStep_next f s hne hlen
  have hcomm : t.commState = commAfter (loadFrame f s) f := commState_eq_commAfter hne hrow hexec
  exact ⟨endFrame t, hstep, (endFrame_commState t).trans hcomm⟩

end Sys2Proof.Machine

/-! PROOFS. The timer tick (spec/60_exceptions.md R289, R292, R293): over the channels of the mask it reads
the `ADC` port as `readChannels` does, and it is taken only while the timer is armed. -/

namespace Sys2Proof.Machine

/-! ### One channel of the tick -/

/-- Channel c is in the mask: bit c - 1 (spec/10_state.md R52). -/
def inMask (mask : BitVec 3) (c : Channel) : Bool := mask.getLsbD c.index

theorem tickChannel_of_inMask {c : Channel} {s : State} (h : inMask s.activeMask c = true) :
    tickChannel c s = ((drawAdc c s).1.toF64, (drawAdc c s).2) :=
  if_pos h

theorem tickChannel_of_not_inMask {c : Channel} {s : State} (h : ¬inMask s.activeMask c = true) :
    tickChannel c s = (0, s) :=
  if_neg h

theorem tickChannel_activeMask (c : Channel) (s : State) :
    (tickChannel c s).2.activeMask = s.activeMask := by
  rw [tickChannel_snd]

/-! ### The channels in their order -/

/-- Going through the channels of a list from `s`, the tick measures `m` and ends in `t`. -/
inductive TickReads (m : Channel → F64) : List Channel → State → State → Prop
  | nil (s : State) : TickReads m [] s s
  | cons {c : Channel} {cs : List Channel} {s t : State} (hvalue : m c = (tickChannel c s).1)
      (hrest : TickReads m cs (tickChannel c s).2 t) : TickReads m (c :: cs) s t

/-- The tick goes through all channels and pushes what it measured (R292). -/
theorem tick_eq_qpush_of_reads (s : State) : ∃ (m : Triple F64) (t : State),
    TickReads m.get Channel.all s t ∧ tick s = qpush { measurements := m, status := .ok } t :=
  ⟨⟨_, _, _⟩, _, .cons rfl (.cons rfl (.cons rfl (.nil _))), rfl⟩

section
variable {m : Channel → F64} {cs : List Channel} {s t : State}

/-- The reads of the tick are those of the channels in the mask, and no others. -/
theorem TickReads.readChannels_eq (h : TickReads m cs s t) :
    readChannels (cs.filter (inMask s.activeMask)) s = ((cs.filter (inMask s.activeMask)).map m, t) := by
  induction h with
  | nil s => rfl
  | @cons c cs s t hvalue _ ih =>
    rw [tickChannel_activeMask] at ih
    by_cases hc : inMask s.activeMask c = true
    · rw [tickChannel_of_inMask hc] at hvalue ih
      rw [List.filter_cons_of_pos hc, readChannels, ih, List.map_cons, hvalue]
    · rw [tickChannel_of_not_inMask hc] at ih
      rw [List.filter_cons_of_neg hc, ih]

theorem TickReads.eq_zero_of_not_inMask (h : TickReads m cs s t) :
    ∀ c ∈ cs, inMask s.activeMask c = false → m c = 0 := by
  induction h with
  | nil s => exact fun c hc => absurd hc List.not_mem_nil
  | @cons c cs s t hvalue _ ih =>
    rw [tickChannel_activeMask] at ih
    refine List.forall_mem_cons.2 ⟨fun hc => ?_, ih⟩
    rw [hvalue, tickChannel_of_not_inMask (by simp [hc])]

theorem TickReads.finite (h : TickReads m cs s t) : ∀ c ∈ cs, f64IsFinite (m c) = true := by
  induction h with
  | nil s => exact fun c hc => absurd hc List.not_mem_nil
  | cons hvalue _ ih => exact List.forall_mem_cons.2 ⟨hvalue ▸ tickChannel_finite _ _, ih⟩

/-- The tick uses up one answer of the `ADC` port for each channel in the mask. -/
theorem TickReads.eq (h : TickReads m cs s t) :
    t = { s with
      adcIn := s.adcIn.drop (cs.filter (inMask s.activeMask)).length,
      freeDraws := s.freeDraws + ((cs.filter (inMask s.activeMask)).length - s.adcIn.length) } := by
  rw [← readChannels_snd, h.readChannels_eq]

/-- With enough scripted answers, the channels in the mask measure those answers in order. -/
theorem TickReads.map_eq_take (h : TickReads m cs s t)
    (henough : (cs.filter (inMask s.activeMask)).length ≤ s.adcIn.length) :
    (cs.filter (inMask s.activeMask)).map m =
      (s.adcIn.take (cs.filter (inMask s.activeMask)).length).map FiniteF64.toF64 := by
  rw [← readChannels_fst _ s henough, h.readChannels_eq]

end

theorem channel_mem_all (c : Channel) : c ∈ Channel.all := by
  cases c <;> decide

/-! ### The step that takes it -/

/-- A scripted draw of a tick is used up, and the tick is the whole step (log entry 8). -/
theorem step_of_tick {s : State} {ticks : List Bool} (harmed : s.timerArmed = true)
    (htick : s.tickIn = true :: ticks) : step s = .next (tick { s with tickIn := ticks }) := by
  have hdraw : drawTick s = (true, { s with tickIn := ticks }) := by
    simp only [drawTick, harmed, if_pos, htick]
  simp only [step, hdraw, if_pos]

/-! ### Obligations -/

/-- Settles O49: the tick is its reads of the channels in the mask, and one push. -/
theorem tickPushesMaskedMeasurements : Obligations.TickPushesMaskedMeasurements := by
  refine ⟨rfl, rfl, fun s => ?_⟩
  obtain ⟨m, t, hreads, htick⟩ := tick_eq_qpush_of_reads s
  have ht := hreads.eq
  rw [htick, qpush_eq, ht]
  refine ⟨m, rfl, fun c => hreads.eq_zero_of_not_inMask c (channel_mem_all c),
    fun c => hreads.finite c (channel_mem_all c), ?scripted, rfl⟩
  rintro n rfl henough
  rw [List.countP_eq_length_filter] at henough ⊢
  exact ⟨hreads.map_eq_take henough, rfl, congrArg (s.freeDraws + ·) (Nat.sub_eq_zero_of_le henough)⟩

/-- Settles O52: a stopped timer draws nothing, and an armed one takes the scripted draw. -/
theorem tickOnlyWhileArmed : Obligations.TickOnlyWhileArmed :=
  fun _ => ⟨step_of_disarmed, fun _ => step_of_tick, fun _ => step_of_no_tick⟩

end Sys2Proof.Machine

/-! PROOFS. The reset state (spec/70_reset_and_hazards.md R321): its registers, and the invariant that every
run begins with. -/

namespace Sys2Proof.Machine

/-- Settles O55: at reset the append is closed, the frame buffer and the queue are empty, the timer is
disarmed, and `Idle` claims no session. -/
theorem invariantAtReset : Obligations.InvariantAtReset where
  appendClosed _ := rfl
  appendOpen := nofun
  appendHeader := nofun
  frameConsumed _ := rfl
  frameBound := Nat.zero_le _
  heldFrame := nofun
  dataErrClear := rfl
  expectedBound := Nat.zero_le _
  procedureNone := rfl
  pendingKnown := nofun
  queueBound := Nat.zero_le _
  queueEvents := nofun
  lastFinite c := by cases c <;> decide
  armedPeriod := nofun
  sendSession := nofun
  recvSession := by simp [State.reset]

/-- Settles O57: each register is the field that `State.reset` gives. -/
theorem resetState : Obligations.ResetState :=
  ⟨rfl, rfl, rfl, rfl, rfl, rfl, rfl, rfl, rfl, rfl, rfl, rfl, rfl, rfl, rfl, rfl, rfl, rfl, rfl, rfl, rfl,
    rfl, rfl⟩

end Sys2Proof.Machine

/-! PROOFS. A lone start indicator (spec/70_reset_and_hazards.md R334): it is a frame of one byte, and the row
it selects is that of its state. -/

namespace Sys2Proof.Machine

/-- A short chunk that opens no append is the frame whose row runs (spec/41_reassembler.md R173). -/
theorem taskStep_of_frame {s t : State} {b : List Byte} {more : List (List Byte)} {i : Instr}
    (hready : s.taskPhase = .ready) (hclosed : s.fraAppending = false) (hrx : s.rx = b :: more)
    (hne : b ≠ []) (hlen : b.length ≤ 30) (hstart : ¬startsAppend b = true)
    (hrow : decodeFrame s.commState b = .ok i)
    (hexec : exec i (loadFrame b { s with rx := more }) = .next t) :
    taskStep s = .next (endFrame t) := by
  have hcut : b.take rxCap = b := List.take_of_length_le hlen
  have hemit : taskStep s = emitFrame b { s with rx := more } := by
    rw [taskStep_of_chunk hready hrx, hclosed, decodeChunk_of_not_startsAppend hne hstart]
    exact congrArg (emitFrame · _) hcut
  rw [hemit, emitFrame, psmStep_loadFrame b { s with rx := more } i hlen hrow, hexec, andThen_next]

/-- Where a lone 0x15 leads from each state, and what it puts out (R334; spec/43_psm.md R231, R255). -/
def loneStart (p : Params) : CommState → CommState × List OutEvent
  | .idle => (.waitingInstruction, [.tx [0x13]])
  | .waitingInstruction => (.idle, [.diag .framingLen])
  | .waitingData => (.idle, [.diag .dataNoStart, .diag .dataTokenCount, .tx [0x22]])
  | .waitingHeaderAck | .waitingPacketAck => (.waitingInstruction, [.diag .restart, .tx [0x13]])
  | .waitingRoleswap => (.idle, [.tx p.roleswapTrailer])

/-- The row of a lone 0x15 in each state: start, a header that is too short, data without a command, a
restart, or the roleswap step. -/
theorem exec_loneStart (s : State) :
    ∃ i t, decodeFrame s.commState [0x15] = .ok i ∧ exec i s = .next t ∧
      t.commState = (loneStart s.params s.commState).1 ∧
      t.out = s.out ++ (loneStart s.params s.commState).2 := by
  cases s.commState with
  | idle => exact ⟨.startIdle [0x15], _, rfl, rfl, rfl, rfl⟩
  | waitingInstruction => exact ⟨.hdrInvalid .length [0x15], _, rfl, rfl, rfl, rfl⟩
  | waitingData =>
    have hexec := shortCommandIsDataError [0x15] s .tokenCount rfl
    exact ⟨.data [0x15], _, rfl, hexec, rfl, by simp [loneStart]⟩
  | waitingHeaderAck => exact ⟨.startRestart [], _, rfl, exec_startRestart [] s, rfl, rfl⟩
  | waitingPacketAck => exact ⟨.startRestart [], _, rfl, exec_startRestart [] s, rfl, rfl⟩
  | waitingRoleswap => exact ⟨.roleswapStep [0x15], _, rfl, rfl, rfl, rfl⟩

/-- Settles O48: the byte is a frame as it stands, and the table says where its row leads. -/
theorem loneStartByteIsNoRestart : Obligations.LoneStartByteIsNoRestart := by
  intro s more hready hclosed hrx
  obtain ⟨i, t, hrow, hexec, hcomm, hout⟩ := exec_loneStart (loadFrame [0x15] { s with rx := more })
  have hstep := taskStep_of_frame hready hclosed hrx (by decide) (by decide) (by decide) hrow hexec
  have hlead (c : CommState) (h : s.commState = c) :
      (endFrame t).commState = (loneStart s.params c).1 ∧
        (endFrame t).out = s.out ++ (loneStart s.params c).2 := by
    subst h
    rw [endFrame_eq]
    exact ⟨hcomm, hout⟩
  exact ⟨_, hstep, hlead .idle, hlead .waitingInstruction, hlead .waitingData,
    fun h => h.elim (hlead .waitingHeaderAck) (hlead .waitingPacketAck), hlead .waitingRoleswap⟩

end Sys2Proof.Machine

/-! PROOFS. What a step puts out (spec/70_reset_and_hazards.md R340, spec/43_psm.md R256): outputs are only
added, and of the parts of a step only one, the row of its frame or the resumption of a held one, transmits. -/

namespace Sys2Proof.Machine

/-! ### Outputs that grow -/

/-- The outputs grow by events of which at most `n` are transmissions, each of at most `cap` bytes. -/
def OutputGrows (cap n : Nat) (before after : List OutEvent) : Prop :=
  ∃ new, after = before ++ new ∧ new.countP isTx ≤ n ∧ ∀ e ∈ new, txFits cap e = true

section
variable {cap m n : Nat} {o o' o'' : List OutEvent}

theorem OutputGrows.trans (h : OutputGrows cap m o o') (h' : OutputGrows cap n o' o'') :
    OutputGrows cap (m + n) o o'' := by
  obtain ⟨new, rfl, hcount, hfits⟩ := h
  obtain ⟨new', rfl, hcount', hfits'⟩ := h'
  refine ⟨new ++ new', List.append_assoc _ _ _, ?_, List.forall_mem_append.2 ⟨hfits, hfits'⟩⟩
  rw [List.countP_append]
  exact Nat.add_le_add hcount hcount'

theorem OutputGrows.mono (h : OutputGrows cap m o o') (hle : m ≤ n) : OutputGrows cap n o o' := by
  obtain ⟨new, rfl, hcount, hfits⟩ := h
  exact ⟨new, rfl, hcount.trans hle, hfits⟩

theorem txFits_of_not_isTx {e : OutEvent} (h : isTx e = false) : txFits cap e = true := by
  cases e with
  | tx b => nomatch h
  | diag c => rfl
  | pub k v => rfl

/-- Diagnostics and publish calls use none of the transmissions. -/
theorem outputGrows_silent {new : List OutEvent} (h : ∀ e ∈ new, isTx e = false) :
    OutputGrows cap n o (o ++ new) := by
  refine ⟨new, rfl, ?_, fun e he => txFits_of_not_isTx (h e he)⟩
  rw [List.countP_eq_zero.2 fun e he => by simp [h e he]]
  exact Nat.zero_le n

theorem outputGrows_refl : OutputGrows cap n o o :=
  ⟨[], (List.append_nil o).symm, Nat.zero_le n, nofun⟩

theorem outputGrows_diag (c : DiagCode) : OutputGrows cap n o (o ++ [.diag c]) :=
  outputGrows_silent (by simp [isTx])

/-- A diagnostic under a condition. -/
theorem outputGrows_report (p : Prop) [Decidable p] (c : DiagCode) :
    OutputGrows cap 0 o (o ++ if p then [.diag c] else []) := by
  split
  · exact outputGrows_diag c
  · exact outputGrows_silent nofun

theorem outputGrows_tx {b : List Byte} (h : b.length ≤ cap) : OutputGrows cap 1 o (o ++ [.tx b]) :=
  ⟨_, rfl, by simp [isTx], by simpa [txFits] using h⟩

end

/-! ### Commands -/

/-- A missing mark is a diagnostic (spec/43_psm.md R239). -/
theorem checkMark_outputGrows (cap : Nat) (b : List Byte) (s : State) :
    OutputGrows cap 0 s.out (checkMark b s).out := by
  unfold checkMark
  dsimp only
  split
  · exact outputGrows_silent nofun
  · exact outputGrows_diag _

/-- The interpreter transmits nothing, with a command or without (spec/42_commands.md R210). -/
theorem interpret_outputGrows {b : List Byte} {s t : State} (cap : Nat) (h : interpret b s = .next t) :
    OutputGrows cap 0 s.out t.out := by
  unfold interpret at h
  split at h
  case h_1 i hi =>
    have hrow := commandTokens_of_decodeTokens _ i hi
    rw [runCommand_eq_exec i s hrow] at h
    obtain ⟨⟨new, hout, hsilent⟩, -⟩ := commandsWriteOnlyConfiguration i s t hrow h
    rw [hout]
    exact outputGrows_silent hsilent
  case h_2 =>
    obtain rfl := Host.Outcome.next.inj h
    exact outputGrows_diag _

/-! ### Voltage lists -/

theorem hexPayload_length_le (s : State) : (hexPayload s).length ≤ 20 := by
  have hactive := activeChannels_length_le s
  rw [length_hexPayload]
  omega

/-- Three readings are 20 characters with their commas (spec/40_codec.md R148). -/
theorem asciiPayload_length_le (s : State) :
    (asciiList (readChannels (activeChannels s) s).1).length ≤ 20 := by
  have hactive := activeChannels_length_le s
  rw [length_asciiList _ (readChannels_finite _ s), readChannels_length]
  omega

section
variable {cap : Nat} (hcap : 22 ≤ cap)
include hcap

theorem outputGrows_packet {p : List Byte} {o : List OutEvent} (hp : p.length ≤ 20) :
    OutputGrows cap 1 o (o ++ [.tx (buildPacket p)]) :=
  outputGrows_tx (by rw [buildPacket_length]; omega)

/-- A list is one packet, and a list of no value is reported after it (spec/40_codec.md R147). -/
theorem finishList_outputGrows (k : Continuation) {p : List Byte} (s : State) (hp : p.length ≤ 20) :
    OutputGrows cap 1 s.out (finishList k p s).out := by
  rw [finishList_eq, List.append_cons]
  exact (outputGrows_packet hcap hp).trans (outputGrows_report _ _)

/-- A voltage list is sent, or its frame held and nothing put out (spec/43_psm.md R258, R259, R262). -/
theorem sendList_outputGrows (k : Continuation) (s : State) :
    OutputGrows cap 1 s.out (sendList k s).out := by
  cases hv : s.hdr.valueType with
  | ascii =>
    have hreads : (readChannels (activeChannels s) s).2.out = s.out := by rw [readChannels_snd]
    rw [sendList_of_ascii k hv, ← hreads]
    exact finishList_outputGrows hcap k _ (asciiPayload_length_le s)
  | hex =>
    cases hq : s.sq with
    | nil =>
      rw [sendList_of_hex_nil k hv hq]
      exact outputGrows_refl
    | cons e q =>
      rw [sendList_of_hex_cons k hv hq]
      exact finishList_outputGrows hcap k (takeSample e q s) (hexPayload_length_le _)

theorem finishHeld_outputGrows (s : State) : OutputGrows cap 1 s.out (finishHeld s).out := by
  rw [finishHeld_eq_finishList]
  exact finishList_outputGrows hcap _ { s with taskPhase := .ready, rxLen := 0 } (hexPayload_length_le s)

/-- A resumption reports a timeout before its list (R262). -/
theorem resumeSample_outputGrows (s : State) : OutputGrows cap 1 s.out (resumeSample s).out := by
  obtain ⟨timedOut, races, n, q, m, st, hres, -⟩ := resumeSample_eq_finishHeld s
  rw [hres]
  refine OutputGrows.trans (m := 0) ?_ (finishHeld_outputGrows hcap _)
  exact outputGrows_report _ _

end

/-! ### Frames -/

theorem responseHeader_length (s : State) : (responseHeader s).length = 15 := by
  unfold responseHeader
  split <;> rfl

section
variable {s t : State} (hfit : paramsFitTransmit s.params)
include hfit

/-- A B-OK for the response header sends one packet, or the terminator of the batch (R241, R250). -/
theorem exec_ackBOkHdr_outputGrows {rest : List Byte} (h : exec (.ackBOkHdr rest) s = .next t) :
    OutputGrows s.params.txCap 1 s.out t.out := by
  obtain ⟨hcap, hend, -⟩ := hfit
  cases hcase : headerCase s with
  | status =>
    rw [exec_ackBOkHdr_of_status rest hcase, sendStatus_eq] at h
    obtain rfl := Host.Outcome.next.inj h
    exact outputGrows_packet hcap (by simp)
  | sample k =>
    rw [exec_ackBOkHdr_of_sample rest hcase, sendSample_eq] at h
    obtain rfl := Host.Outcome.next.inj h
    exact outputGrows_packet hcap (by rw [length_encodeFixedAscii (toF64_finite _)]; decide)
  | statusCheck =>
    rw [exec_ackBOkHdr_of_statusCheck rest hcase, sendStatusCheck_eq] at h
    obtain rfl := Host.Outcome.next.inj h
    exact outputGrows_packet hcap (by simp)
  | voltageList =>
    by_cases hdone : s.trigMode = .batch ∧ s.sampleIndex.toNat = s.trigCount.toNat
    · rw [exec_ackBOkHdr_of_batchEnd rest hcase hdone.1 hdone.2] at h
      obtain rfl := Host.Outcome.next.inj h
      exact outputGrows_tx hend
    · rw [exec_ackBOkHdr_of_list rest hcase (not_and.1 hdone)] at h
      obtain rfl := Host.Outcome.next.inj h
      exact sendList_outputGrows hcap _ s

/-- A data frame reports a missing mark, runs its command, and is acknowledged by one byte (R239). -/
theorem exec_data_outputGrows {b : List Byte} (h : exec (.data b) s = .next t) :
    OutputGrows s.params.txCap 1 s.out t.out := by
  have hone : 1 ≤ s.params.txCap := Nat.one_le_of_lt hfit.1
  rw [exec_data] at h
  obtain ⟨u, hu, ht⟩ := (andThen_eq_next _ _ _).1 h
  obtain rfl := Host.Outcome.next.inj ht
  have hcommand : OutputGrows s.params.txCap 0 s.out u.out :=
    (checkMark_outputGrows _ b s).trans (interpret_outputGrows _ hu)
  exact hcommand.trans (outputGrows_tx (b := [dataAck u]) hone)

/-- Every frame row transmits at most one string: a byte, a header, a packet, or one of the two strings that
are sent as they stand. -/
theorem exec_frame_outputGrows {i : Instr} {st : CommState} (hadm : i.admits (.frame st) = true)
    (h : exec i s = .next t) : OutputGrows s.params.txCap 1 s.out t.out := by
  have ⟨hcap, _, htrailer⟩ := hfit
  have hone : 1 ≤ s.params.txCap := by omega
  cases i
  case data b => exact exec_data_outputGrows hfit h
  case ackBOkHdr r => exact exec_ackBOkHdr_outputGrows hfit h
  case hdrSend hd =>
    rw [exec_hdrSend] at h
    obtain rfl := Host.Outcome.next.inj h
    exact (outputGrows_report _ _).trans (outputGrows_tx hone)
  case startRestart r =>
    rw [exec_startRestart] at h
    obtain rfl := Host.Outcome.next.inj h
    rw [List.append_cons]
    exact (outputGrows_diag (n := 0) _).trans (outputGrows_tx hone)
  all_goals first | exact absurd hadm Bool.false_ne_true | obtain rfl := Host.Outcome.next.inj h
  case startIdle b => exact outputGrows_tx hone
  case noise b => exact outputGrows_diag _
  case hdrRecv hd =>
    exact outputGrows_tx (by rw [responseHeader_length]; omega)
  case hdrInvalid e b => exact outputGrows_diag _
  case ackBOkPkt r => exact outputGrows_refl
  case ackBRetry r => exact outputGrows_diag _
  case ackBError r => exact outputGrows_diag _
  case ackOther b0 r => exact outputGrows_diag _
  case roleswapStep b => exact outputGrows_tx htrailer

theorem emitFrame_outputGrows {f : List Byte} (hne : f ≠ []) (hlen : f.length ≤ 30)
    (h : emitFrame f s = .next t) : OutputGrows s.params.txCap 1 s.out t.out := by
  obtain ⟨i, u, hrow, hexec, hstep⟩ := psmStep_next f s hne hlen
  obtain rfl := Host.Outcome.next.inj (hstep.symm.trans h)
  have hrun := exec_frame_outputGrows (s := loadFrame f s) hfit (decodeFrame_admits _ _ _ hrow) hexec
  rw [endFrame_eq]
  exact hrun

end

/-! ### Chunks and steps -/

/-- An append reports a surplus and transmits nothing (spec/41_reassembler.md R174). -/
theorem appendChunk_outputGrows (cap : Nat) (c : List Byte) (s : State) :
    OutputGrows cap 0 s.out (appendChunk c s).out := by
  unfold appendChunk
  dsimp only
  split
  · exact outputGrows_diag _
  · exact outputGrows_refl

section
variable {s t : State} (hfit : paramsFitTransmit s.params)
include hfit

/-- A completed append emits its header after the report of a surplus (R174). -/
theorem execChunkAppendCont_outputGrows {c : List Byte} (h : execChunkAppendCont c s = .next t) :
    OutputGrows s.params.txCap 1 s.out t.out := by
  have happend := appendChunk_outputGrows s.params.txCap c s
  have hparams : (appendChunk c s).params = s.params := by
    obtain ⟨buf, len, o, heq⟩ := appendChunk_frame c s
    rw [heq]
  unfold execChunkAppendCont at h
  dsimp only at h
  split at h
  case isTrue =>
    have hlen : (memRead (appendChunk c s).appBuf 0 hdrLen).length = 15 := by simp [hdrLen]
    have hframe := emitFrame_outputGrows
      (s := { appendChunk c s with fraAppending := false, appLen := 0 }) (hparams ▸ hfit)
      (List.ne_nil_of_length_pos (by omega)) (by omega) h
    rw [← hparams] at happend ⊢
    exact happend.trans hframe
  case isFalse =>
    obtain rfl := Host.Outcome.next.inj h
    exact happend.mono (Nat.zero_le 1)

/-- The row of a chunk emits at most one frame. -/
theorem exec_decodeChunk_outputGrows {appending : Bool} {c : List Byte}
    (h : exec (decodeChunk appending c) s = .next t) : OutputGrows s.params.txCap 1 s.out t.out := by
  unfold decodeChunk at h
  split_ifs at h with hempty
  · obtain rfl := Host.Outcome.next.inj h
    exact outputGrows_refl
  · exact execChunkAppendCont_outputGrows hfit h
  · obtain rfl := Host.Outcome.next.inj h
    exact outputGrows_refl
  · have hne : c.take rxCap ≠ [] := by simp [rxCap, hempty]
    exact emitFrame_outputGrows hfit hne (List.length_take_le _ _) h

theorem taskStep_outputGrows (h : taskStep s = .next t) :
    OutputGrows s.params.txCap 1 s.out t.out := by
  obtain ⟨-, rfl⟩ | ⟨-, -, rfl⟩ | ⟨-, c, more, -, hexec⟩ := taskStep_cases s t h
  · exact resumeSample_outputGrows hfit.1 s
  · exact outputGrows_refl
  · exact exec_decodeChunk_outputGrows (s := { s with rx := more }) hfit hexec

end

/-- A tick puts nothing out (spec/60_exceptions.md R292). -/
theorem tick_out (s : State) : (tick s).out = s.out := by
  obtain ⟨m, answers, n, -, h⟩ := tick_eq_qpush s
  rw [h, qpush_eq]

/-- Settles O60: a tick puts nothing out, and a `TASK` step resumes a held frame or runs one chunk. -/
theorem transmissionsFitAndAreSingle : Obligations.TransmissionsFitAndAreSingle := by
  intro s t hfit h
  have hdraw : (drawTick s).2.params = s.params ∧ (drawTick s).2.out = s.out := by
    rw [drawTick_snd]
    exact ⟨rfl, rfl⟩
  obtain ⟨hparams, hout⟩ := hdraw
  obtain ⟨-, rfl⟩ | htask := step_cases s t h
  · rw [tick_out, hout]
    exact outputGrows_refl
  · rw [← hparams, ← hout]
    exact taskStep_outputGrows (hparams ▸ hfit) htask

end Sys2Proof.Machine

/-! PROOFS. The sample words of spec/30_encoding.md sections 2 and 4: each is the encoding of a well-formed
instruction, so it decodes to it where that row is read. -/

namespace Sys2Proof.Machine

/-- Bytes that encode a well-formed instruction decode to it wherever its row is read. -/
theorem decode_of_encode_eq {i : Instr} {src : Source} {b : List Byte} (henc : encode i = b)
    (hwf : i.wf = true) (hadm : i.admits src = true) : decode src b = .ok i := by
  rw [← henc]
  exact encodedInstructionDecodesBack i src hwf hadm

/-- Settles O4: each word is the encoder's output for its instruction, and O1 decodes that back. -/
theorem sampleWordsDecode : Obligations.SampleWordsDecode := by
  refine ⟨?chunk, ?header, ?command, ?headerAck, ?packetAck⟩
  case chunk =>
    exact decode_of_encode_eq rfl (show startsAppend _ = true by decide) rfl
  case header =>
    have hframe : hdrFrame .send
          { typeByte := 0x41, formByte := 0x56, line := 0x1234, offset := 0x56789ABC,
            packetSize := 3, pad := 0xFF, area := 0x41, checksum := 0x6E } =
        [0x3A, 0x4E, 0x41, 0x56, 0x12, 0x34, 0x56, 0x78, 0x9A, 0xBC, 0x00, 0x03, 0xFF, 0x41, 0x6E] := by
      decide
    have hsum : verifyChecksum
        [0x3A, 0x4E, 0x41, 0x56, 0x12, 0x34, 0x56, 0x78, 0x9A, 0xBC, 0x00, 0x03, 0xFF, 0x41, 0x6E] =
        true := by decide
    exact decode_of_encode_eq hframe ((congrArg verifyChecksum hframe).trans hsum) rfl
  case command =>
    have hbytes : encodeCommand [[0x31], [0x31], [0x32]] =
        [0x3A, 0x31, 0x2C, 0x31, 0x2C, 0x32, 0x14] := by decide
    have hfit : tokensFit [[0x31], [0x31], [0x32]] = true := by decide
    exact decode_of_encode_eq hbytes hfit rfl
  case headerAck => exact decode_of_encode_eq rfl rfl rfl
  case packetAck => exact decode_of_encode_eq rfl rfl rfl

end Sys2Proof.Machine
